-- ==== Sys2Proof/Word.lean ====
section
/-! DEFINITION. The widths the hardware works in: a byte, a 16-byte block, a lane (a pair of blocks), the eight
lanes and a 64-byte block of data. Operations on them are in Machine/Bytes.lean. -/

namespace Sys2Proof

/-- A byte, 0..255 (R8). -/
abbrev Byte := BitVec 8

/-- A `Block`, sixteen bytes seen as a 128-bit register (R9, R21); byte `k` occupies bits `8k+7 .. 8k` (R10). -/
abbrev Block := BitVec 128

/-- A `Lane`: "one 256-bit register per lane, or equivalently a pair of 128-bit registers" (R21). `inst0` is bytes
0..15, the block of instance 0; `inst1` is bytes 16..31, the block of instance 1 (R9). Any thirty-two byte string
of the rules (a message half, a 32-byte tag) is one too. -/
structure Lane where
  inst0 : Block
  inst1 : Block
  deriving DecidableEq, Repr

/-- The lane register file `S[0]` to `S[7]` (R21). -/
structure Lanes where
  s0 : Lane
  s1 : Lane
  s2 : Lane
  s3 : Lane
  s4 : Lane
  s5 : Lane
  s6 : Lane
  s7 : Lane
  deriving DecidableEq, Repr

/-- A 64-byte block of data as its two halves: `m0` is bytes 0..31, `m1` is bytes 32..63 (R57, R140). -/
structure Chunk where
  m0 : Lane
  m1 : Lane
  deriving DecidableEq, Repr

/-- `zeros(32)` (R8). -/
def Lane.zero : Lane := ⟨0, 0⟩

/-- The eight lanes at `zeros(32)` each (R34, R164, R187). -/
def Lanes.zero : Lanes :=
  ⟨Lane.zero, Lane.zero, Lane.zero, Lane.zero, Lane.zero, Lane.zero, Lane.zero, Lane.zero⟩

end Sys2Proof
end

