-- ==== Sys2Proof/Syntax.lean ====
section
/-! DEFINITION. The command set: the twelve rows of spec/opcode_table.json, and a command with its operands. -/

namespace Sys2Proof

/-- The rows of the command table (R83), named by their mnemonics. -/
inductive Row where
  | setkey | init | ad | enc | dec | final16 | final32 | verify16 | verify32 | macfinal16 | macfinal32 | zeroize
  deriving DecidableEq, Repr

/-- A command with the fields its row uses (R83). SRC, DST and LEN are "unsigned 16-bit integers, 0..65535, used as
they are", and sums of them are exact integers (R82), so they are natural numbers; WellFormed.lean bounds them. -/
inductive Instr where
  /-- R121: loads the key. -/
  | setkey (src len : Nat)
  /-- R122: starts an operation. -/
  | init (src len : Nat)
  /-- R142: absorbs associated data. -/
  | ad (src len : Nat)
  /-- R145: encrypts. -/
  | enc (src dst len : Nat)
  /-- R148: decrypts. -/
  | dec (src dst len : Nat)
  /-- R165: writes the 16-byte AEAD tag. -/
  | final16 (dst len : Nat)
  /-- R166: writes the 32-byte AEAD tag. -/
  | final32 (dst len : Nat)
  /-- R183: checks a 16-byte tag. -/
  | verify16 (src len : Nat)
  /-- R184: checks a 32-byte tag. -/
  | verify32 (src len : Nat)
  /-- R171: writes the 16-byte MAC tag. -/
  | macfinal16 (dst len : Nat)
  /-- R172: writes the 32-byte MAC tag. -/
  | macfinal32 (dst len : Nat)
  /-- R187: clears every secret. -/
  | zeroize
  deriving DecidableEq, Repr

/-- The row a command belongs to. -/
def Instr.row : Instr → Row
  | .setkey _ _ => .setkey
  | .init _ _ => .init
  | .ad _ _ => .ad
  | .enc _ _ _ => .enc
  | .dec _ _ _ => .dec
  | .final16 _ _ => .final16
  | .final32 _ _ => .final32
  | .verify16 _ _ => .verify16
  | .verify32 _ _ => .verify32
  | .macfinal16 _ _ => .macfinal16
  | .macfinal32 _ _ => .macfinal32
  | .zeroize => .zeroize

/-- The SRC field; "A field that is not written is 0" (R88). -/
def Instr.src : Instr → Nat
  | .setkey src _ => src
  | .init src _ => src
  | .ad src _ => src
  | .enc src _ _ => src
  | .dec src _ _ => src
  | .final16 _ _ => 0
  | .final32 _ _ => 0
  | .verify16 src _ => src
  | .verify32 src _ => src
  | .macfinal16 _ _ => 0
  | .macfinal32 _ _ => 0
  | .zeroize => 0

/-- The DST field (R83, R88). -/
def Instr.dst : Instr → Nat
  | .setkey _ _ => 0
  | .init _ _ => 0
  | .ad _ _ => 0
  | .enc _ dst _ => dst
  | .dec _ dst _ => dst
  | .final16 dst _ => dst
  | .final32 dst _ => dst
  | .verify16 _ _ => 0
  | .verify32 _ _ => 0
  | .macfinal16 dst _ => dst
  | .macfinal32 dst _ => dst
  | .zeroize => 0

/-- The LEN field (R83, R88). -/
def Instr.len : Instr → Nat
  | .setkey _ len => len
  | .init _ len => len
  | .ad _ len => len
  | .enc _ _ len => len
  | .dec _ _ len => len
  | .final16 _ len => len
  | .final32 _ len => len
  | .verify16 _ len => len
  | .verify32 _ len => len
  | .macfinal16 _ len => len
  | .macfinal32 _ len => len
  | .zeroize => 0

end Sys2Proof
end

