-- ==== Sys2Proof/WellFormed.lean ====
section
/-! DEFINITION. Which commands a command word can hold: every operand an unsigned 16-bit integer (R82). -/

namespace Sys2Proof

/-- R82: SRC, DST and LEN are "unsigned 16-bit integers, 0..65535". -/
def fitsField (n : Nat) : Bool := decide (n < 65536)

/-- Each operand fits its field. A used field is otherwise free: "any value decodes, and the value is checked later
by the command's own faults" (R84). -/
def Instr.wellFormed (i : Instr) : Bool := fitsField i.src && fitsField i.dst && fitsField i.len

end Sys2Proof
end

