-- ==== Sys2Proof/Decode.lean ====
section
/-! DEFINITION. Format C: the fields of a command word, the decoder (total on every word, rejecting by name), the
table's match and mask, and the encoder. -/

namespace Sys2Proof

/-- Why a word is no command (R85). Every one of them is executed as `Fault(E_ILLEGAL)` (R204). -/
inductive Reject where
  /-- OPCODE 0x00 or 0x0D to 0xFF. -/
  | unknownOpcode
  /-- RSV is not 0. -/
  | reservedField
  /-- A field the command does not use is not 0. -/
  | unusedField
  deriving DecidableEq, Repr

/-- Bits [7:0] (R81). -/
def opcodeField (w : BitVec 64) : BitVec 8 := w.extractLsb' 0 8

/-- Bits [15:8] (R81). -/
def rsvField (w : BitVec 64) : BitVec 8 := w.extractLsb' 8 8

/-- Bits [31:16] (R81). -/
def srcField (w : BitVec 64) : BitVec 16 := w.extractLsb' 16 16

/-- Bits [47:32] (R81). -/
def dstField (w : BitVec 64) : BitVec 16 := w.extractLsb' 32 16

/-- Bits [63:48] (R81). -/
def lenField (w : BitVec 64) : BitVec 16 := w.extractLsb' 48 16

/-- `word = OPCODE + 2^8 * RSV + 2^16 * SRC + 2^32 * DST + 2^48 * LEN` with RSV = 0 (R81). -/
def packWord (opcode : BitVec 8) (src dst len : BitVec 16) : BitVec 64 := len ++ dst ++ src ++ (0 : BitVec 8) ++ opcode

/-- A row that uses SRC and LEN: DST must be 0 (R83, R84). -/
def decodeSrcLen (w : BitVec 64) (mk : Nat → Nat → Instr) : Except Reject Instr :=
  if dstField w = 0 then .ok (mk (srcField w).toNat (lenField w).toNat) else .error .unusedField

/-- A row that uses DST and LEN: SRC must be 0 (R83, R84). -/
def decodeDstLen (w : BitVec 64) (mk : Nat → Nat → Instr) : Except Reject Instr :=
  if srcField w = 0 then .ok (mk (dstField w).toNat (lenField w).toNat) else .error .unusedField

/-- A row that uses all three fields (R83, R84). -/
def decodeSrcDstLen (w : BitVec 64) (mk : Nat → Nat → Nat → Instr) : Except Reject Instr :=
  .ok (mk (srcField w).toNat (dstField w).toNat (lenField w).toNat)

/-- The row that uses no field: SRC, DST and LEN must be 0 (R83, R84). -/
def decodeNoField (w : BitVec 64) (i : Instr) : Except Reject Instr :=
  if srcField w = 0 ∧ dstField w = 0 ∧ lenField w = 0 then .ok i else .error .unusedField

/-- The opcode column of R83. -/
def rowOfOpcode (op : BitVec 8) : Option Row :=
  if op = 0x01 then some .setkey
  else if op = 0x02 then some .init
  else if op = 0x03 then some .ad
  else if op = 0x04 then some .enc
  else if op = 0x05 then some .dec
  else if op = 0x06 then some .final16
  else if op = 0x07 then some .final32
  else if op = 0x08 then some .verify16
  else if op = 0x09 then some .verify32
  else if op = 0x0A then some .macfinal16
  else if op = 0x0B then some .macfinal32
  else if op = 0x0C then some .zeroize
  else none

/-- The operands of a word whose row is known (R83). -/
def decodeRow (w : BitVec 64) : Row → Except Reject Instr
  | .setkey => decodeSrcLen w .setkey
  | .init => decodeSrcLen w .init
  | .ad => decodeSrcLen w .ad
  | .enc => decodeSrcDstLen w .enc
  | .dec => decodeSrcDstLen w .dec
  | .final16 => decodeDstLen w .final16
  | .final32 => decodeDstLen w .final32
  | .verify16 => decodeSrcLen w .verify16
  | .verify32 => decodeSrcLen w .verify32
  | .macfinal16 => decodeDstLen w .macfinal16
  | .macfinal32 => decodeDstLen w .macfinal32
  | .zeroize => decodeNoField w .zeroize

/-- The command a 64-bit word encodes, or why it encodes none (R84, R85). -/
def decode (w : BitVec 64) : Except Reject Instr :=
  match rowOfOpcode (opcodeField w) with
  | none => .error .unknownOpcode
  | some row => if rsvField w = 0 then decodeRow w row else .error .reservedField

/-- The opcode of each row (R83). -/
def Row.opcode : Row → BitVec 8
  | .setkey => 0x01
  | .init => 0x02
  | .ad => 0x03
  | .enc => 0x04
  | .dec => 0x05
  | .final16 => 0x06
  | .final32 => 0x07
  | .verify16 => 0x08
  | .verify32 => 0x09
  | .macfinal16 => 0x0A
  | .macfinal32 => 0x0B
  | .zeroize => 0x0C

/-- The match column of R84. -/
def Row.matchWord : Row → BitVec 64
  | .setkey => 0x0000000000000001
  | .init => 0x0000000000000002
  | .ad => 0x0000000000000003
  | .enc => 0x0000000000000004
  | .dec => 0x0000000000000005
  | .final16 => 0x0000000000000006
  | .final32 => 0x0000000000000007
  | .verify16 => 0x0000000000000008
  | .verify32 => 0x0000000000000009
  | .macfinal16 => 0x000000000000000A
  | .macfinal32 => 0x000000000000000B
  | .zeroize => 0x000000000000000C

/-- The mask column of R84. -/
def Row.maskWord : Row → BitVec 64
  | .setkey => 0x0000FFFF0000FFFF
  | .init => 0x0000FFFF0000FFFF
  | .ad => 0x0000FFFF0000FFFF
  | .enc => 0x000000000000FFFF
  | .dec => 0x000000000000FFFF
  | .final16 => 0x00000000FFFFFFFF
  | .final32 => 0x00000000FFFFFFFF
  | .verify16 => 0x0000FFFF0000FFFF
  | .verify32 => 0x0000FFFF0000FFFF
  | .macfinal16 => 0x00000000FFFFFFFF
  | .macfinal32 => 0x00000000FFFFFFFF
  | .zeroize => 0xFFFFFFFFFFFFFFFF

/-- The word of a command, every field at its place (R81), an unused field at 0 (R82, R88). -/
def encode (i : Instr) : BitVec 64 :=
  packWord i.row.opcode (BitVec.ofNat 16 i.src) (BitVec.ofNat 16 i.dst) (BitVec.ofNat 16 i.len)

/-- What the decoder reads from an instruction whose bits are `w`, numbered as spec/opcode_table.json numbers them;
every bit from `nbits` up is 0. A command is one 64-bit word, delivered whole (R80), so there are no bytes to lay
out (R58). -/
def decodeTableWord (nbits w : Nat) : Option Instr :=
  match decode (BitVec.ofNat 64 (w % 2 ^ nbits)) with
  | .ok i => some i
  | .error _ => none

end Sys2Proof
end

