-- ==== Sys2Proof/Machine/Bytes.lean ====
section
/-! DEFINITION. Byte strings, blocks, lanes and 64-byte blocks as bytes: packing, `zeros`, `LE64`, bytewise XOR and
AND, `inst`, `rep` (R8 to R12, R57). A definition marked irreducible is one no proof should compute through: its lemmas
are in Laws/. -/

namespace Sys2Proof

/-- `zeros(n)`: n bytes 0x00 (R8). -/
def zeros (n : Nat) : List Byte := List.replicate n 0

/-- A byte string as a number, byte `k` in bits `8k+7 .. 8k` (R10). -/
def packBytes : List Byte → Nat
  | [] => 0
  | b :: bs => b.toNat + 256 * packBytes bs

/-- The block whose byte `k` is byte `k` of the string; bytes after the sixteenth are not used, missing ones are 0. -/
@[irreducible] def Block.ofBytes (l : List Byte) : Block := BitVec.ofNat 128 (packBytes l)

/-- Byte `j` of a block (R10). -/
def Block.byte (b : Block) (j : Nat) : Byte := b.extractLsb' (8 * j) 8

/-- The sixteen bytes of a block, byte 0 first. -/
@[irreducible] def Block.bytes (b : Block) : List Byte := (List.range 16).map (Block.byte b)

/-- The block whose byte `j` is `f j`. -/
def Block.ofFn (f : Nat → Byte) : Block := Block.ofBytes ((List.range 16).map f)

/-- The block a string of 32 hexadecimal digits denotes: "the bytes in the order written" (R8), so byte 0 is the
most significant byte of the number. -/
def Block.ofHex (h : BitVec 128) : Block := Block.ofFn fun j => h.extractLsb' (8 * (15 - j)) 8

/-- `rep(b) = b ‖ b` (R9). -/
def rep (b : Block) : Lane := ⟨b, b⟩

/-- `inst(L, i) = L[16i .. 16i+16)`, i in 0, 1 (R9). -/
def inst (l : Lane) (i : Nat) : Block := if i = 0 then l.inst0 else l.inst1

/-- `a ^ b` on lanes (R12). -/
def Lane.xor (a b : Lane) : Lane := ⟨a.inst0 ^^^ b.inst0, a.inst1 ^^^ b.inst1⟩

/-- `a & b` on lanes (R12). -/
def Lane.and (a b : Lane) : Lane := ⟨a.inst0 &&& b.inst0, a.inst1 &&& b.inst1⟩

/-- The lane whose bytes are the first 32 of the string; missing ones are 0 (R9). -/
def Lane.ofBytes (l : List Byte) : Lane := ⟨Block.ofBytes l, Block.ofBytes (l.drop 16)⟩

/-- The thirty-two bytes of a lane, instance 0 first (R9). -/
def Lane.bytes (l : Lane) : List Byte := Block.bytes l.inst0 ++ Block.bytes l.inst1

/-- The 64-byte block of a string, by position (R57, R140); missing bytes are 0. -/
def Chunk.ofBytes (l : List Byte) : Chunk := ⟨Lane.ofBytes l, Lane.ofBytes (l.drop 32)⟩

/-- The sixty-four bytes of a block, half M0 first (R57). -/
def Chunk.bytes (c : Chunk) : List Byte := Lane.bytes c.m0 ++ Lane.bytes c.m1

/-- Byte `j` of a 64-byte block, by position (R57). -/
def Chunk.byte (c : Chunk) (j : Nat) : Byte :=
  if j < 16 then Block.byte c.m0.inst0 j
  else if j < 32 then Block.byte c.m0.inst1 (j - 16)
  else if j < 48 then Block.byte c.m1.inst0 (j - 32)
  else if j < 64 then Block.byte c.m1.inst1 (j - 48)
  else 0

/-- `a ^ b` on 64-byte blocks (R12). -/
def Chunk.xor (a b : Chunk) : Chunk := ⟨Lane.xor a.m0 b.m0, Lane.xor a.m1 b.m1⟩

/-- `LE64(x)[j] = (x div 2^(8j)) mod 256`, j = 0..7 (R11). -/
def le64 (x : Nat) : List Byte := (List.range 8).map fun j => BitVec.ofNat 8 (x / 2 ^ (8 * j) % 256)

end Sys2Proof
end

