-- ==== Sys2Proof/Config.lean ====
section
/-! DEFINITION. What the spec leaves to an implementation: the buffer size `BUF_BYTES` and the latency `lat`. -/

namespace Sys2Proof

/-- The open parameter of the machine (R7). `bufBytes` is `BUF_BYTES`, the size in bytes of each of IBUF and OBUF.
It stands in the state as plain data, so that whatever is proved for every state is proved for every size (log 4). -/
structure Config where
  bufBytes : Nat
  deriving DecidableEq, Repr

/-- R7: "Any value with 64 <= BUF_BYTES <= 65536 is allowed." -/
def Config.wf (c : Config) : Bool := decide (64 ≤ c.bufBytes ∧ c.bufBytes ≤ 65536)

/-- R7: "Default 65536". -/
def Config.standard : Config := ⟨65536⟩

/-- `lat(cmd)`, the latency in clock cycles, OPEN (R7, R236, R237, U1): a function of the opcode and of LEN and of
nothing else. It has no value in this model and no rule reads it (log 7). -/
opaque Config.latency : (opcode : Nat) → (len : Nat) → Nat

end Sys2Proof
end

