-- ==== Sys2Proof/Machine/State.lean ====
section
/-! DEFINITION. The state of the machine, the reasons a step can stop, and the state after reset. The components R20
lists are `lanes` to `obuf`; the last three fields stand for what is outside the core. -/

namespace Sys2Proof.Machine

/-- A byte-addressed buffer as (address, byte) pairs: addresses strictly rising, no byte equal to what an unlisted
address reads as, which is 0x00, the reset contents (R32, R34). -/
abbrev Memory := List Host.Cell

/-- `PHASE`, STATUS bits [2:0] (R26). "Values 5, 6 and 7 never occur." -/
inductive Phase where
  | idle | ad | msg | closed | done
  deriving DecidableEq, Repr

/-- `DIR`, STATUS bits [4:3] (R27). "Value 3 never occurs." -/
inductive Dir where
  | none | enc | dec
  deriving DecidableEq, Repr

/-- `CAUSE`, STATUS bits [13:10] (R201); codes 9..15 are never written. -/
inductive Cause where
  | none | illegal | seq | keyLen | nonceLen | tagLen | partialLen | range | length
  deriving DecidableEq, Repr

/-- The fields of STATUS (R29), "written only by the hardware"; `Status.word` in Flags.lean is the 32-bit register
the host reads. -/
structure Status where
  phase : Phase
  dir : Dir
  keyValid : Bool
  obufLock : Bool
  authOk : Bool
  authFail : Bool
  fault : Bool
  cause : Cause
  deriving DecidableEq, Repr

/-- `STATUS = 0x00000000` (R34). -/
def Status.zero : Status := ⟨.idle, .none, false, false, false, false, false, .none⟩

/-- The completion code of a command (R87). Code 3 is never returned. -/
inductive Completion where
  | ok | authFail | fault
  deriving DecidableEq, Repr

/-- The five host transactions (R50). `ibufWrite` and `obufRead` take an address below 65536 (R52, R55). -/
inductive Transaction where
  | reset
  | ibufWrite (addr : BitVec 16) (b : Byte)
  | obufRead (addr : BitVec 16)
  | statusRead
  | command (w : BitVec 64)
  deriving DecidableEq, Repr

/-- What the host observes (R67): the byte an `ObufRead` returned, the word a `StatusRead` returned, the completion
code of a `Command`. `IbufWrite` and `Reset` return nothing. -/
inductive Output where
  | byte (b : Byte)
  | word (w : BitVec 32)
  | completion (c : Completion)
  deriving DecidableEq, Repr

/-- The state. `lanes` to `obuf` are "the complete architectural state of the hardware" (R20). `config` is the open
parameter (log 4); `pending` is the transactions the host will issue, oldest first, and the step takes the head
(log 1); `outputs` is what the host has observed so far, oldest first (log 2). -/
structure State where
  lanes : Lanes
  key : Block
  adLen : Nat
  msgLen : Nat
  status : Status
  ibuf : Memory
  obuf : Memory
  config : Config
  pending : List Transaction
  outputs : List Output
  deriving DecidableEq, Repr

/-- Reasons a step stops with a fault: there are none, so nobody raises one. "every transaction has exactly one
outcome in every state; there is no stuck state, no hang and no draw" (R67), and what the spec calls a fault is
recorded in STATUS while the machine goes on accepting transactions (R203, R213): it is a next state (log 3). -/
inductive Fault where
  deriving DecidableEq, Repr

/-- Reasons a step refuses an instruction. -/
inductive Refusal where
  /-- Raised by an arm of `exec` whose instruction has no meaning yet; no arm uses it now. Safe: the run stops. -/
  | notModelled (mnemonic : String)
  deriving DecidableEq, Repr

/-- R34, R230: "After reset every piece of state is zero". `BUF_BYTES` is at its default (R7); the host has issued
and observed nothing (log 1, log 2). -/
def State.reset : State :=
  { lanes := Lanes.zero, key := 0, adLen := 0, msgLen := 0, status := Status.zero, ibuf := [], obuf := []
    config := Config.standard, pending := [], outputs := [] }

end Sys2Proof.Machine
end

