-- ==== Sys2Proof/Machine/Flags.lean ====
section
/-! DEFINITION. STATUS as the 32-bit register the host reads (R29), the codes of its fields (R26, R27, R201), the
completion codes (R87), and the transition table's condition for each command (R28). -/

namespace Sys2Proof.Machine

/-- R26. -/
def Phase.code : Phase → BitVec 3
  | .idle => 0
  | .ad => 1
  | .msg => 2
  | .closed => 3
  | .done => 4

/-- R27. -/
def Dir.code : Dir → BitVec 2
  | .none => 0
  | .enc => 1
  | .dec => 2

/-- R201. -/
def Cause.code : Cause → BitVec 4
  | .none => 0
  | .illegal => 1
  | .seq => 2
  | .keyLen => 3
  | .nonceLen => 4
  | .tagLen => 5
  | .partialLen => 6
  | .range => 7
  | .length => 8

/-- R87. -/
def Completion.code : Completion → BitVec 2
  | .ok => 0
  | .authFail => 1
  | .fault => 2

/-- STATUS (R29): bits [31:14] reserved, CAUSE [13:10], FAULT [9], AUTH_FAIL [8], AUTH_OK [7], OBUF_LOCK [6],
KEY_VALID [5], DIR [4:3], PHASE [2:0]. -/
def Status.word (st : Status) : BitVec 32 :=
  (0 : BitVec 18) ++ st.cause.code ++ BitVec.ofBool st.fault ++ BitVec.ofBool st.authFail ++ BitVec.ofBool st.authOk ++
    BitVec.ofBool st.obufLock ++ BitVec.ofBool st.keyValid ++ st.dir.code ++ st.phase.code

/-- The condition on (PHASE, DIR, KEY_VALID) under which a command is legal (R28). -/
def legalNow (row : Row) (st : Status) : Bool :=
  match row with
  | .setkey => decide (st.phase = .idle ∨ st.phase = .done)
  | .init => st.keyValid
  | .ad => decide (st.phase = .ad)
  | .enc => decide ((st.phase = .ad ∨ st.phase = .msg) ∧ (st.dir = .none ∨ st.dir = .enc))
  | .dec => decide ((st.phase = .ad ∨ st.phase = .msg) ∧ (st.dir = .none ∨ st.dir = .dec))
  | .final16 => decide ((st.phase = .ad ∨ st.phase = .msg ∨ st.phase = .closed) ∧ (st.dir = .none ∨ st.dir = .enc))
  | .final32 => decide ((st.phase = .ad ∨ st.phase = .msg ∨ st.phase = .closed) ∧ (st.dir = .none ∨ st.dir = .enc))
  | .verify16 => decide ((st.phase = .ad ∨ st.phase = .msg ∨ st.phase = .closed) ∧ (st.dir = .none ∨ st.dir = .dec))
  | .verify32 => decide ((st.phase = .ad ∨ st.phase = .msg ∨ st.phase = .closed) ∧ (st.dir = .none ∨ st.dir = .dec))
  | .macfinal16 => decide ((st.phase = .ad ∨ st.phase = .msg) ∧ st.dir = .none)
  | .macfinal32 => decide ((st.phase = .ad ∨ st.phase = .msg) ∧ st.dir = .none)
  | .zeroize => true

/-- PHASE after an ENC or DEC of `len` bytes: "MSG if r = 0, CLOSED if r != 0" (R28). -/
def messagePhase (len : Nat) : Phase := if len % 64 = 0 then .msg else .closed

/-- PHASE after an AD of `len` bytes issued in `ph`: unchanged (AD) if r = 0, "MSG if r != 0" (R28, R142). -/
def adPhase (ph : Phase) (len : Nat) : Phase := if len % 64 = 0 then ph else .msg

end Sys2Proof.Machine
end

