-- ==== Sys2Proof/Machine/Operands.lean ====
section
/-! DEFINITION. The operands of a command: which fields a row uses (R83), the length it requires (R206), the range
checks (R62) and the counter bound (R208), and the cutting of LEN bytes into 64-byte blocks (R141). -/

namespace Sys2Proof.Machine

/-- `MAX_LEN = 2^61 - 1`, "the largest value either byte counter may hold" (R7, R24). -/
def maxLen : Nat := 2 ^ 61 - 1

/-- The "uses" column of R83, SRC. -/
def usesSrc : Row → Bool
  | .setkey => true
  | .init => true
  | .ad => true
  | .enc => true
  | .dec => true
  | .final16 => false
  | .final32 => false
  | .verify16 => true
  | .verify32 => true
  | .macfinal16 => false
  | .macfinal32 => false
  | .zeroize => false

/-- The "uses" column of R83, DST. -/
def usesDst : Row → Bool
  | .setkey => false
  | .init => false
  | .ad => false
  | .enc => true
  | .dec => true
  | .final16 => true
  | .final32 => true
  | .verify16 => false
  | .verify32 => false
  | .macfinal16 => true
  | .macfinal32 => true
  | .zeroize => false

/-- The "LEN must be" column of R83 and the fault of each fixed-size check (R206): the required length and the
cause, or nothing for a row whose LEN may be any. -/
def requiredLen : Row → Option (Nat × Cause)
  | .setkey => some (16, .keyLen)
  | .init => some (16, .nonceLen)
  | .ad => none
  | .enc => none
  | .dec => none
  | .final16 => some (16, .tagLen)
  | .final32 => some (32, .tagLen)
  | .verify16 => some (16, .tagLen)
  | .verify32 => some (32, .tagLen)
  | .macfinal16 => some (16, .tagLen)
  | .macfinal32 => some (32, .tagLen)
  | .zeroize => none

/-- The fixed-size check of a row (R86, R206). -/
def lengthChecks (row : Row) (len : Nat) : List (Bool × Cause) :=
  match requiredLen row with
  | none => []
  | some (n, c) => [(decide (len = n), c)]

/-- `addr + len <= BUF_BYTES`, "the sums are exact integers" (R62). -/
def inBuffer (s : State) (addr len : Nat) : Bool := decide (addr + len ≤ s.config.bufBytes)

/-- The counter of the row stays within MAX_LEN (R24, R86, R208). -/
def counterOk (row : Row) (len : Nat) (s : State) : Bool :=
  match row with
  | .setkey => true
  | .init => true
  | .ad => decide (s.adLen + len ≤ maxLen)
  | .enc => decide (s.msgLen + len ≤ maxLen)
  | .dec => decide (s.msgLen + len ≤ maxLen)
  | .final16 => true
  | .final32 => true
  | .verify16 => true
  | .verify32 => true
  | .macfinal16 => true
  | .macfinal32 => true
  | .zeroize => true

/-- The tests of R86 in their order, which is the priority of the faults (R210): each test and the cause recorded
when it fails. -/
def checks (row : Row) (src dst len : Nat) (s : State) : List (Bool × Cause) :=
  (legalNow row s.status, .seq) ::
    (lengthChecks row len ++
      [(!usesSrc row || inBuffer s src len, .range),
       (!usesDst row || inBuffer s dst len, .range),
       (counterOk row len s, .length)])

/-- The cause of the first test that fails. -/
def firstFault : List (Bool × Cause) → Option Cause
  | [] => none
  | (true, _) :: rest => firstFault rest
  | (false, c) :: _ => some c

/-- `q = LEN div 64`, the number of full blocks (R141). -/
def fullBlocks (len : Nat) : Nat := len / 64

/-- `r = LEN mod 64`, the length of the partial block (R141). -/
def partialLen (len : Nat) : Nat := len % 64

end Sys2Proof.Machine
end

