-- ==== Sys2Proof/Machine/Ops.lean ====
section
/-! DEFINITION. The named operations: the buffers (R53, R54), answering the host (R67, R87), taking a fault (R203),
being refused while FAULT = 1 (R203), the dispatch of a command (R86) and the end of an operation (R164). -/

namespace Sys2Proof.Machine

/-- What an address that is not listed reads as: "every byte of IBUF and of OBUF is 0x00" after reset (R34). -/
def Memory.unlisted : Byte := 0

/-- The canonical form from a lower bound on the addresses. -/
def Memory.wfFrom : Nat → Memory → Bool
  | _, [] => true
  | lo, (a, b) :: m => decide (lo ≤ a) && decide (b ≠ Memory.unlisted) && Memory.wfFrom (a + 1) m

/-- The canonical form: addresses strictly rising, no entry equal to what an unlisted address reads as. -/
def Memory.wf (m : Memory) : Bool := Memory.wfFrom 0 m

/-- Every listed address is one of the buffer's `0 .. n-1` (R32). -/
def Memory.within (n : Nat) (m : Memory) : Bool := m.all fun c => decide (c.1 < n)

/-- One byte of a buffer. -/
def Memory.read : Memory → Nat → Byte
  | [], _ => Memory.unlisted
  | (a', b') :: m, a => if a = a' then b' else Memory.read m a

/-- One byte written, the canonical form kept. -/
def Memory.write : Memory → Nat → Byte → Memory
  | [], a, b => if b = Memory.unlisted then [] else [(a, b)]
  | (a', b') :: m, a, b =>
    if a < a' then (if b = Memory.unlisted then (a', b') :: m else (a, b) :: (a', b') :: m)
    else if a = a' then (if b = Memory.unlisted then m else (a, b) :: m)
    else (a', b') :: Memory.write m a b

/-- `MemRead(space, addr, n)`: byte k is byte `addr + k` (R53). -/
def Memory.readBytes (m : Memory) (addr n : Nat) : List Byte := (List.range n).map fun k => Memory.read m (addr + k)

/-- `MemWrite(space, addr, n, v)`: byte `addr + k` becomes `v[k]`, in address order (R54). -/
def Memory.writeBytes : Memory → Nat → List Byte → Memory
  | m, _, [] => m
  | m, addr, b :: bs => Memory.writeBytes (Memory.write m addr b) (addr + 1) bs

/-- `MemWrite(space, 0, BUF_BYTES, zeros(BUF_BYTES))`: every byte of the buffer is 0x00, so none is listed. -/
def Memory.clear : Memory := []

/-- What a transaction returns goes to the host (R67). -/
def State.respond (s : State) (o : Output) : State := { s with outputs := s.outputs ++ [o] }

/-- Taking a fault, `raise Fault(c)`: FAULT <- 1, CAUSE <- c, rsp <- FAULT, nothing else changes (R203). There is no
handler, no vector and no saved program counter (R213), and no return from a fault (R214). -/
def raiseFault (c : Cause) (s : State) : State :=
  State.respond { s with status := { s.status with fault := true, cause := c } } (.completion .fault)

/-- A command while FAULT = 1: "nothing whatever changes and the completion code is FAULT" (R203). -/
def refuse (s : State) : State := s.respond (.completion .fault)

/-- `Command(w)` for a word that matches `row` (R86): the test of FAULT, which ZEROIZE alone passes, then the checks
in order, then the command's effect, given as its next state and completion code. -/
def command (row : Row) (src dst len : Nat) (s : State) (effect : Except Cause (State × Completion)) :
    Host.Outcome State Fault Refusal :=
  if s.status.fault ∧ row ≠ .zeroize then .next (refuse s)
  else
    match firstFault (checks row src dst len s) with
    | some c => .next (raiseFault c s)
    | none =>
      match effect with
      | .error c => .next (raiseFault c s)
      | .ok (t, code) => .next (t.respond (.completion code))

/-- `Command(w)` for a word that matches no row (R85, R86, R204). -/
def illegalCommand (s : State) : State := if s.status.fault then refuse s else raiseFault .illegal s

/-- `EndOperation()` (R164). -/
def endOperation (s : State) : State :=
  { s with lanes := Lanes.zero, adLen := 0, msgLen := 0, status := { s.status with phase := .done, dir := .none } }

end Sys2Proof.Machine
end

