-- ==== Sys2Proof/Machine/Permutation.lean ====
section
/-! DEFINITION. The vector permutation core (spec/40_permutation_core.md): the single-round AES transform, the one-step
update of the eight lanes, initialization, and the commands SETKEY and INIT. The rules R110 to R115, R118 and the
seeds of R120 are marked by the spec itself "from general knowledge, not in source"; the model follows them as the
rules they are (log 10). A definition marked irreducible is one no proof should compute through: its lemmas are in
Laws/. -/

namespace Sys2Proof.Machine

/-- The S-box, one row of R111's table a number, column 0 its most significant byte. -/
def sboxRows : List (BitVec 128) :=
  [0x637c777bf26b6fc53001672bfed7ab76,
   0xca82c97dfa5947f0add4a2af9ca472c0,
   0xb7fd9326363ff7cc34a5e5f171d83115,
   0x04c723c31896059a071280e2eb27b275,
   0x09832c1a1b6e5aa0523bd6b329e32f84,
   0x53d100ed20fcb15b6acbbe394a4c58cf,
   0xd0efaafb434d338545f9027f503c9fa8,
   0x51a3408f929d38f5bcb6da2110fff3d2,
   0xcd0c13ec5f974417c4a77e3d645d1973,
   0x60814fdc222a908846eeb814de5e0bdb,
   0xe0323a0a4906245cc2d3ac629195e479,
   0xe7c8376d8dd54ea96c56f4ea657aae08,
   0xba78252e1ca6b4c6e8dd741f4bbd8b8a,
   0x703eb5664803f60e613557b986c11d9e,
   0xe1f8981169d98e949b1e87e9ce5528df,
   0x8ca1890dbfe6426841992d0fb054bb16]

/-- `SBOX[0xXY]`: row `X_`, column `Y` (R111). -/
def sbox (a : Byte) : Byte := (sboxRows.getD (a.toNat / 16) 0).extractLsb' (8 * (15 - a.toNat % 16)) 8

/-- `SubBytes(b)[j] = SBOX[b[j]]` (R111). -/
def subBytes (b : Block) : Block := Block.ofFn fun j => sbox (Block.byte b j)

/-- `ShiftRows(b)[r + 4c] = b[r + 4*((c + r) mod 4)]` (R110, R112). -/
def shiftRows (b : Block) : Block := Block.ofFn fun j => Block.byte b (j % 4 + 4 * ((j / 4 + j % 4) % 4))

/-- Multiplication by 2 in GF(2^8) (R113). -/
def xtime (a : Byte) : Byte :=
  if a.toNat < 128 then BitVec.ofNat 8 (2 * a.toNat % 256) else BitVec.ofNat 8 (2 * a.toNat % 256) ^^^ 0x1b

/-- `mul2(a) = xtime(a)` (R113). -/
def mul2 (a : Byte) : Byte := xtime a

/-- `mul3(a) = xtime(a) XOR a` (R113). -/
def mul3 (a : Byte) : Byte := xtime a ^^^ a

/-- The four bytes `o0 .. o3` of one column (R114), `r` the row. -/
def mixColumn (a0 a1 a2 a3 : Byte) (r : Nat) : Byte :=
  if r = 0 then mul2 a0 ^^^ mul3 a1 ^^^ a2 ^^^ a3
  else if r = 1 then a0 ^^^ mul2 a1 ^^^ mul3 a2 ^^^ a3
  else if r = 2 then a0 ^^^ a1 ^^^ mul2 a2 ^^^ mul3 a3
  else mul3 a0 ^^^ a1 ^^^ a2 ^^^ mul2 a3

/-- `MixColumns(b)`: each column `b[4c .. 4c+4)` replaced (R114). -/
def mixColumns (b : Block) : Block := Block.ofFn fun j =>
  mixColumn (Block.byte b (4 * (j / 4))) (Block.byte b (4 * (j / 4) + 1)) (Block.byte b (4 * (j / 4) + 2))
    (Block.byte b (4 * (j / 4) + 3)) (j % 4)

/-- `AESRound(in, rk) = MixColumns(ShiftRows(SubBytes(in))) ^ rk` (R115). -/
@[irreducible] def aesRound (input rk : Block) : Block := mixColumns (shiftRows (subBytes input)) ^^^ rk

/-- The round applied to each instance on its own (R116). -/
def aesRoundX2 (input rk : Lane) : Lane := ⟨aesRound input.inst0 rk.inst0, aesRound input.inst1 rk.inst1⟩

/-- `Update(S, M0, M1)`: "Every new lane is computed from the old lanes" (R117). -/
@[irreducible] def update (s : Lanes) (m0 m1 : Lane) : Lanes :=
  { s0 := aesRoundX2 s.s7 (Lane.xor s.s0 m0)
    s1 := aesRoundX2 s.s0 s.s1
    s2 := aesRoundX2 s.s1 s.s2
    s3 := aesRoundX2 s.s2 s.s3
    s4 := aesRoundX2 s.s3 (Lane.xor s.s4 m1)
    s5 := aesRoundX2 s.s4 s.s5
    s6 := aesRoundX2 s.s5 s.s6
    s7 := aesRoundX2 s.s6 s.s7 }

/-- `C0` (R118). -/
def constC0 : Block := Block.ofHex 0x000101020305080d1522375990e97962

/-- `C1` (R118). -/
def constC1 : Block := Block.ofHex 0xdb3d18556dc22ff12011314273b528dd

/-- `CTX`: `inst(CTX, i) = (i, 1, 0, 0, ..., 0)` (R119). -/
def constCTX : Lane :=
  ⟨Block.ofHex 0x00010000000000000000000000000000, Block.ofHex 0x01010000000000000000000000000000⟩

/-- The eight seeds (R120). -/
def initSeeds (key nonce : Block) : Lanes :=
  { s0 := Lane.xor (rep key) (rep nonce)
    s1 := rep constC1
    s2 := rep constC0
    s3 := rep constC1
    s4 := Lane.xor (rep key) (rep nonce)
    s5 := Lane.xor (rep key) (rep constC0)
    s6 := Lane.xor (rep key) (rep constC1)
    s7 := Lane.xor (rep key) (rep constC0) }

/-- One priming round: the context into lanes 3 and 7, then the update with M0 the replicated nonce and M1 the
replicated key (R120). -/
def primingRound (key nonce : Block) (s : Lanes) : Lanes :=
  update { s with s3 := Lane.xor s.s3 constCTX, s7 := Lane.xor s.s7 constCTX } (rep nonce) (rep key)

/-- INIT_ROUNDS (R6). -/
def initRounds : Nat := 10

/-- `Init(key, nonce)` (R120). -/
def initLanes (key nonce : Block) : Lanes := (primingRound key nonce)^[initRounds] (initSeeds key nonce)

/-- `SETKEY src, len` (R121): loads the key. -/
def execSetkey (src len : Nat) (s : State) : Host.Outcome State Fault Refusal :=
  command .setkey src 0 len s
    (.ok ({ s with key := Block.ofBytes (Memory.readBytes s.ibuf src 16), status := { s.status with keyValid := true } },
      .ok))

/-- INIT's first lines: OBUF is wiped and the lock released when an unverified decryption is abandoned (R122). -/
def wipeIfLocked (s : State) : State :=
  if s.status.obufLock then { s with obuf := Memory.clear, status := { s.status with obufLock := false } } else s

/-- `INIT src, len` (R122): starts an operation. -/
def execInit (src len : Nat) (s : State) : Host.Outcome State Fault Refusal :=
  command .init src 0 len s
    (let u := wipeIfLocked s
     let nonce := Block.ofBytes (Memory.readBytes u.ibuf src 16)
     .ok ({ u with
        lanes := initLanes u.key nonce
        adLen := 0
        msgLen := 0
        status := { u.status with phase := .ad, dir := .none, authOk := false, authFail := false } }, .ok))

end Sys2Proof.Machine
end

