-- ==== Sys2Proof/Machine/Duplex.lean ====
section
/-! DEFINITION. The duplex absorption engine (spec/41_duplex_engine.md): absorption, keystream, the full and the
partial block in both directions, and the commands AD, ENC and DEC. -/

namespace Sys2Proof.Machine

/-- `Absorb(S, B) = Update(S, B[0..32), B[32..64))` (R140). -/
def absorb (s : Lanes) (b : Chunk) : Lanes := update s b.m0 b.m1

/-- `Keystream(S)`: the halves Z0 and Z1 (R143). -/
def keystream (s : Lanes) : Chunk :=
  ⟨Lane.xor (Lane.xor s.s6 s.s1) (Lane.and s.s2 s.s3), Lane.xor (Lane.xor s.s2 s.s5) (Lane.and s.s6 s.s7)⟩

/-- `EncBlock(S, P)`: keystream from the lanes before the update, which absorbs the plaintext (R144). -/
def encBlock (s : Lanes) (p : Chunk) : Lanes × Chunk := (absorb s p, Chunk.xor p (keystream s))

/-- `DecBlock(S, C)`: the update absorbs the recovered plaintext (R146). -/
def decBlock (s : Lanes) (c : Chunk) : Lanes × Chunk :=
  let p := Chunk.xor c (keystream s)
  (absorb s p, p)

/-- `EncPartial(S, p, r)`, p the r plaintext bytes (R147). -/
def encPartial (s : Lanes) (p : List Byte) (r : Nat) : Lanes × List Byte :=
  let w := Chunk.ofBytes (p ++ zeros (64 - r))
  let y := Chunk.xor w (keystream s)
  (absorb s w, y.bytes.take r)

/-- `DecPartial(S, c, r)`, c the r ciphertext bytes: "force everything beyond r to zero" before the update; a length
not in 1..63 is `E_PARTIAL_LEN` (R147, R209). -/
def decPartial (s : Lanes) (c : List Byte) (r : Nat) : Except Cause (Lanes × List Byte) :=
  if 0 < r ∧ r < 64 then
    let w := Chunk.ofBytes (c ++ zeros (64 - r))
    let y := Chunk.xor w (keystream s)
    let p := Chunk.ofBytes (y.bytes.take r ++ zeros (64 - r))
    .ok (absorb s p, y.bytes.take r)
  else .error .partialLen

/-- The full blocks of an AD: `q` blocks from `src`, in ascending order (R141, R142). -/
def absorbBlocks : (q src : Nat) → State → State
  | 0, _, s => s
  | q + 1, src, s =>
    absorbBlocks q (src + 64) { s with lanes := absorb s.lanes (Chunk.ofBytes (Memory.readBytes s.ibuf src 64)) }

/-- The full blocks of an ENC or a DEC, `f` being EncBlock or DecBlock: `q` blocks read at `src` and written at `dst`,
in ascending order (R141, R145, R148). -/
def cryptBlocks (f : Lanes → Chunk → Lanes × Chunk) : (q src dst : Nat) → State → State
  | 0, _, _, s => s
  | q + 1, src, dst, s =>
    let r := f s.lanes (Chunk.ofBytes (Memory.readBytes s.ibuf src 64))
    cryptBlocks f q (src + 64) (dst + 64) { s with lanes := r.1, obuf := Memory.writeBytes s.obuf dst r.2.bytes }

/-- The last block of an AD when `r > 0` (R142). -/
def absorbLast (src len : Nat) (s : State) : State :=
  let r := partialLen len
  if r > 0 then
    { s with
      lanes := absorb s.lanes
        (Chunk.ofBytes (Memory.readBytes s.ibuf (src + 64 * fullBlocks len) r ++ zeros (64 - r))) }
  else s

/-- The last block of an ENC when `r > 0` (R145). -/
def encryptLast (src dst len : Nat) (s : State) : State :=
  let r := partialLen len
  if r > 0 then
    let e := encPartial s.lanes (Memory.readBytes s.ibuf (src + 64 * fullBlocks len) r) r
    { s with lanes := e.1, obuf := Memory.writeBytes s.obuf (dst + 64 * fullBlocks len) e.2 }
  else s

/-- The last block of a DEC when `r > 0` (R148). -/
def decryptLast (src dst len : Nat) (s : State) : Except Cause State :=
  let r := partialLen len
  if r > 0 then
    match decPartial s.lanes (Memory.readBytes s.ibuf (src + 64 * fullBlocks len) r) r with
    | .error c => .error c
    | .ok d => .ok { s with lanes := d.1, obuf := Memory.writeBytes s.obuf (dst + 64 * fullBlocks len) d.2 }
  else .ok s

/-- `AD src, len` (R142): absorbs associated data. -/
def execAd (src len : Nat) (s : State) : Host.Outcome State Fault Refusal :=
  command .ad src 0 len s
    (let u := absorbLast src len (absorbBlocks (fullBlocks len) src s)
     .ok ({ u with adLen := u.adLen + len, status := { u.status with phase := adPhase u.status.phase len } }, .ok))

/-- `ENC src, dst, len` (R145): encrypts. -/
def execEnc (src dst len : Nat) (s : State) : Host.Outcome State Fault Refusal :=
  command .enc src dst len s
    (let u := encryptLast src dst len (cryptBlocks encBlock (fullBlocks len) src dst s)
     .ok ({ u with
        msgLen := u.msgLen + len
        status := { u.status with phase := messagePhase len, dir := .enc } }, .ok))

/-- `DEC src, dst, len` (R148): decrypts and locks OBUF. -/
def execDec (src dst len : Nat) (s : State) : Host.Outcome State Fault Refusal :=
  command .dec src dst len s
    (match decryptLast src dst len (cryptBlocks decBlock (fullBlocks len) src dst s) with
     | .error c => .error c
     | .ok u => .ok ({ u with
        msgLen := u.msgLen + len
        status := { u.status with phase := messagePhase len, dir := .dec, obufLock := true } }, .ok))

end Sys2Proof.Machine
end

