-- ==== Sys2Proof/Machine/Finalizer.lean ====
section
/-! DEFINITION. The finalizer (spec/42_finalizer.md): length block, finalization rounds, the two reductions, the MAC
variant, and the commands FINAL16, FINAL32, MACFINAL16 and MACFINAL32. The MAC rules R168 to R170 are marked by the
spec itself "from general knowledge, not in source" (log 10). -/

namespace Sys2Proof.Machine

/-- `LE64(a) ‖ LE64(b)` as a block (R160, R168, R169). -/
def le64Pair (a b : Nat) : Block := Block.ofBytes (le64 a ++ le64 b)

/-- `LengthBlock(a, m) = LE64(8 * a) ‖ LE64(8 * m)` (R160). -/
def lengthBlock (a m : Nat) : Block := le64Pair (8 * a) (8 * m)

/-- FINAL_ROUNDS (R6). -/
def finalRounds : Nat := 7

/-- Seven updates with the same lane as both message halves (R161, R169). -/
def finalUpdates (t : Lane) (s : Lanes) : Lanes := (fun u => update u t t)^[finalRounds] s

/-- `FinalMix(S, u)`: `t` is computed once, from lane 2 as it is now (R161). -/
def finalMix (s : Lanes) (u : Block) : Lanes := finalUpdates (Lane.xor s.s2 (rep u)) s

/-- `S[0] ^ S[1] ^ S[2] ^ S[3] ^ S[4] ^ S[5] ^ S[6]`; "S[7] is not used" (R162). -/
def xorLanes0to6 (s : Lanes) : Lane :=
  Lane.xor (Lane.xor (Lane.xor (Lane.xor (Lane.xor (Lane.xor s.s0 s.s1) s.s2) s.s3) s.s4) s.s5) s.s6

/-- `S[0] ^ S[1] ^ S[2] ^ S[3]` (R163). -/
def xorLanes0to3 (s : Lanes) : Lane := Lane.xor (Lane.xor (Lane.xor s.s0 s.s1) s.s2) s.s3

/-- `S[4] ^ S[5] ^ S[6] ^ S[7]` (R163). -/
def xorLanes4to7 (s : Lanes) : Lane := Lane.xor (Lane.xor (Lane.xor s.s4 s.s5) s.s6) s.s7

/-- `inst(x, 0) ^ inst(x, 1)`, the reduction across instances (R162, R163). -/
def foldInstances (x : Lane) : Block := inst x 0 ^^^ inst x 1

/-- `Tag16(S)` (R162). -/
def tag16 (s : Lanes) : Block := foldInstances (xorLanes0to6 s)

/-- `Tag32(S)`, its first sixteen bytes in `inst0` and its second in `inst1` (R163). -/
def tag32 (s : Lanes) : Lane := ⟨foldInstances (xorLanes0to3 s), foldInstances (xorLanes4to7 s)⟩

/-- `Finalize16(S, a, m)` (R164). -/
def finalize16 (s : Lanes) (a m : Nat) : Block := tag16 (finalMix s (lengthBlock a m))

/-- `Finalize32(S, a, m)` (R164). -/
def finalize32 (s : Lanes) (a m : Nat) : Lane := tag32 (finalMix s (lengthBlock a m))

/-- `u1` of MacStage1: data length in bits, tag length in bits (R168). -/
def macLengthBlock (a tagBytes : Nat) : Block := le64Pair (8 * a) (8 * tagBytes)

/-- `MacStage1(S, a, 16)`: the lanes and the two values (R168). -/
def macStage1For16 (s : Lanes) (a : Nat) : Lanes × Block × Block :=
  let m := finalMix s (macLengthBlock a 16)
  (m, inst (xorLanes0to6 m) 0, inst (xorLanes0to6 m) 1)

/-- `MacStage1(S, a, 32)`: "For L = 32 both values come from instance 1" (R168). -/
def macStage1For32 (s : Lanes) (a : Nat) : Lanes × Block × Block :=
  let m := finalMix s (macLengthBlock a 32)
  (m, inst (xorLanes0to3 m) 1, inst (xorLanes4to7 m) 1)

/-- `MacStage2(S, x0, x1, L)`: only instance 0 is given a message (R169). -/
def macStage2 (s : Lanes) (x0 x1 : Block) (tagBytes : Nat) : Lanes :=
  let m := update s ⟨x0, 0⟩ ⟨x1, 0⟩
  finalUpdates ⟨inst m.s2 0 ^^^ le64Pair 2 (8 * tagBytes), 0⟩ m

/-- `MacTag16(S)` (R170). -/
def macTag16 (s : Lanes) : Block := inst (xorLanes0to6 s) 0

/-- `MacTag32(S)` (R170). -/
def macTag32 (s : Lanes) : Lane := ⟨inst (xorLanes0to3 s) 0, inst (xorLanes4to7 s) 0⟩

/-- `MacFinalize16(S, a)` (R170). -/
def macFinalize16 (s : Lanes) (a : Nat) : Block :=
  let r := macStage1For16 s a
  macTag16 (macStage2 r.1 r.2.1 r.2.2 16)

/-- `MacFinalize32(S, a)` (R170). -/
def macFinalize32 (s : Lanes) (a : Nat) : Lane :=
  let r := macStage1For32 s a
  macTag32 (macStage2 r.1 r.2.1 r.2.2 32)

/-- The common body of the four commands: the tag goes to OBUF at DST, then EndOperation (R165, R166, R171, R172). -/
def writeTag (tag : List Byte) (dst : Nat) (s : State) : State :=
  endOperation { s with obuf := Memory.writeBytes s.obuf dst tag }

/-- `FINAL16 dst, len` (R165). -/
def execFinal16 (dst len : Nat) (s : State) : Host.Outcome State Fault Refusal :=
  command .final16 0 dst len s (.ok (writeTag (finalize16 s.lanes s.adLen s.msgLen).bytes dst s, .ok))

/-- `FINAL32 dst, len` (R166). -/
def execFinal32 (dst len : Nat) (s : State) : Host.Outcome State Fault Refusal :=
  command .final32 0 dst len s (.ok (writeTag (finalize32 s.lanes s.adLen s.msgLen).bytes dst s, .ok))

/-- `MACFINAL16 dst, len` (R171). -/
def execMacfinal16 (dst len : Nat) (s : State) : Host.Outcome State Fault Refusal :=
  command .macfinal16 0 dst len s (.ok (writeTag (macFinalize16 s.lanes s.adLen).bytes dst s, .ok))

/-- `MACFINAL32 dst, len` (R172). -/
def execMacfinal32 (dst len : Nat) (s : State) : Host.Outcome State Fault Refusal :=
  command .macfinal32 0 dst len s (.ok (writeTag (macFinalize32 s.lanes s.adLen).bytes dst s, .ok))

end Sys2Proof.Machine
end

