-- ==== Sys2Proof/Machine/Verify.lean ====
section
/-! DEFINITION. Constant-time tag comparison and secure zeroing (spec/43_verify_zeroize.md): TagEqual, Verify, and the
commands VERIFY16, VERIFY32 and ZEROIZE. -/

namespace Sys2Proof.Machine

/-- `TagEqual(a, b)`: the OR over every j of `a[j] XOR b[j]`, then a test for zero (R180). -/
def tagEqual (a b : List Byte) : Bool :=
  decide ((List.zipWith (fun x y => x ^^^ y) a b).foldl (fun d x => d ||| x) (0 : Byte) = 0)

/-- `Verify(L, G)` with the recomputed tag `expected` and the supplied one `given` (R181, R182). -/
def verifyTag (expected given : List Byte) (s : State) : State × Completion :=
  let e := endOperation s
  if tagEqual expected given then
    ({ e with status := { e.status with authOk := true, authFail := false, obufLock := false } }, .ok)
  else
    ({ e with
      obuf := Memory.clear
      status := { e.status with authOk := false, authFail := true, obufLock := false } }, .authFail)

/-- `VERIFY16 src, len` (R183). -/
def execVerify16 (src len : Nat) (s : State) : Host.Outcome State Fault Refusal :=
  command .verify16 src 0 len s
    (.ok (verifyTag (finalize16 s.lanes s.adLen s.msgLen).bytes (Memory.readBytes s.ibuf src 16) s))

/-- `VERIFY32 src, len` (R184). -/
def execVerify32 (src len : Nat) (s : State) : Host.Outcome State Fault Refusal :=
  command .verify32 src 0 len s
    (.ok (verifyTag (finalize32 s.lanes s.adLen s.msgLen).bytes (Memory.readBytes s.ibuf src 32) s))

/-- The effect of ZEROIZE: all but FAULT and CAUSE to the reset value (R187). -/
def zeroizeAll (s : State) : State :=
  { s with
    lanes := Lanes.zero
    key := 0
    adLen := 0
    msgLen := 0
    ibuf := Memory.clear
    obuf := Memory.clear
    status := { Status.zero with fault := s.status.fault, cause := s.status.cause } }

/-- `ZEROIZE` (R187): "the one command carried out while FAULT = 1". -/
def execZeroize (s : State) : Host.Outcome State Fault Refusal := command .zeroize 0 0 0 s (.ok (zeroizeAll s, .ok))

end Sys2Proof.Machine
end

