-- ==== Sys2Proof/Machine/Dispatch.lean ====
section
/-! DEFINITION. Which meaning each command has. -/

namespace Sys2Proof.Machine

/-- A command carried out (R86). -/
def exec (i : Instr) (s : State) : Host.Outcome State Fault Refusal :=
  match i with
  | .setkey src len => Sys2Proof.Machine.execSetkey src len s
  | .init src len => Sys2Proof.Machine.execInit src len s
  | .ad src len => Sys2Proof.Machine.execAd src len s
  | .enc src dst len => Sys2Proof.Machine.execEnc src dst len s
  | .dec src dst len => Sys2Proof.Machine.execDec src dst len s
  | .final16 dst len => Sys2Proof.Machine.execFinal16 dst len s
  | .final32 dst len => Sys2Proof.Machine.execFinal32 dst len s
  | .verify16 src len => Sys2Proof.Machine.execVerify16 src len s
  | .verify32 src len => Sys2Proof.Machine.execVerify32 src len s
  | .macfinal16 dst len => Sys2Proof.Machine.execMacfinal16 dst len s
  | .macfinal32 dst len => Sys2Proof.Machine.execMacfinal32 dst len s
  | .zeroize => Sys2Proof.Machine.execZeroize s

end Sys2Proof.Machine
end

