-- ==== Sys2Proof/Machine/Transactions.lean ====
section
/-! DEFINITION. The five host transactions (spec/20_memory.md): Reset, IbufWrite, ObufRead, StatusRead, Command. -/

namespace Sys2Proof.Machine

/-- `Reset` (R230): every piece of state at its reset value. BUF_BYTES is a parameter, and what the host will issue
and has observed is outside the core. -/
def resetTransaction (s : State) : State :=
  { State.reset with config := s.config, pending := s.pending, outputs := s.outputs }

/-- `IbufWrite(addr, b)` (R52): an address at or above BUF_BYTES is ignored. -/
def ibufWrite (addr : BitVec 16) (b : Byte) (s : State) : State :=
  if addr.toNat < s.config.bufBytes then { s with ibuf := Memory.write s.ibuf addr.toNat b } else s

/-- The byte `ObufRead(addr)` returns (R55). -/
def obufByte (addr : BitVec 16) (s : State) : Byte :=
  if s.status.obufLock then 0
  else if addr.toNat < s.config.bufBytes then Memory.read s.obuf addr.toNat
  else 0

/-- `ObufRead(addr)` (R55): "It has no side effect". -/
def obufRead (addr : BitVec 16) (s : State) : State := s.respond (.byte (obufByte addr s))

/-- `StatusRead` (R51): "no flag is cleared by reading". -/
def statusRead (s : State) : State := s.respond (.word s.status.word)

/-- `Command(w)` (R86): a word that matches a row is carried out, any other is illegal. -/
def commandWord (w : BitVec 64) (s : State) : Host.Outcome State Fault Refusal :=
  match decode w with
  | .ok i => exec i s
  | .error _ => .next (illegalCommand s)

/-- One host transaction (R50). -/
def transact (t : Transaction) (s : State) : Host.Outcome State Fault Refusal :=
  match t with
  | .reset => .next (resetTransaction s)
  | .ibufWrite addr b => .next (ibufWrite addr b s)
  | .obufRead addr => .next (obufRead addr s)
  | .statusRead => .next (statusRead s)
  | .command w => commandWord w s

/-- The transaction `withFetchWord` puts at the head: the command whose bits are `w` below `nbits`. -/
def fetchTransaction (nbits w : Nat) : Transaction := .command (BitVec.ofNat 64 (w % 2 ^ nbits))

end Sys2Proof.Machine
end

