-- ==== Sys2Proof/Machine/Step.lean ====
section
/-! DEFINITION. One step: the next transaction of the host, or nothing when the host issues none. -/

namespace Sys2Proof.Machine

/-- The step takes the oldest pending transaction. When there is none nothing happens: "The core never acts on its
own" (R50). -/
def step (s : State) : Host.Outcome State Fault Refusal :=
  match s.pending with
  | [] => .next s
  | t :: rest => transact t { s with pending := rest }

/-- The command word `w` placed as the host's next transaction. The hardware fetches nothing: "A command word is
delivered by value in the `Command` transaction" (R65; log 1). -/
def State.withFetchWord (s : State) (nbits w : Nat) : State :=
  { s with pending := fetchTransaction nbits w :: s.pending }

end Sys2Proof.Machine
end

