-- ==== Sys2Proof/Machine/Pseudo.lean ====
section
/-! DEFINITION. The assembler text of a command (R88), the pseudo-instructions (R89, R188) as the commands they expand
to, and a host that issues such a sequence and stops at the first completion code that is not OK. -/

namespace Sys2Proof.Machine

/-- One `name=value`, the value in decimal (R88). -/
def asmField (name : String) (value : Nat) : String := name ++ "=" ++ toString value

/-- A command "as a mnemonic in capitals followed by the used fields in the fixed order `src`, `dst`, `len`" (R88). -/
def asmText (i : Instr) : String :=
  match i with
  | .setkey src len => "SETKEY " ++ asmField "src" src ++ ", " ++ asmField "len" len
  | .init src len => "INIT " ++ asmField "src" src ++ ", " ++ asmField "len" len
  | .ad src len => "AD " ++ asmField "src" src ++ ", " ++ asmField "len" len
  | .enc src dst len => "ENC " ++ asmField "src" src ++ ", " ++ asmField "dst" dst ++ ", " ++ asmField "len" len
  | .dec src dst len => "DEC " ++ asmField "src" src ++ ", " ++ asmField "dst" dst ++ ", " ++ asmField "len" len
  | .final16 dst len => "FINAL16 " ++ asmField "dst" dst ++ ", " ++ asmField "len" len
  | .final32 dst len => "FINAL32 " ++ asmField "dst" dst ++ ", " ++ asmField "len" len
  | .verify16 src len => "VERIFY16 " ++ asmField "src" src ++ ", " ++ asmField "len" len
  | .verify32 src len => "VERIFY32 " ++ asmField "src" src ++ ", " ++ asmField "len" len
  | .macfinal16 dst len => "MACFINAL16 " ++ asmField "dst" dst ++ ", " ++ asmField "len" len
  | .macfinal32 dst len => "MACFINAL32 " ++ asmField "dst" dst ++ ", " ++ asmField "len" len
  | .zeroize => "ZEROIZE"

/-- `SEAL16 n, ad, adlen, pt, ptlen, dst` (R89). -/
def seal16 (n ad adlen pt ptlen dst : Nat) : List Instr :=
  [.init n 16, .ad ad adlen, .enc pt dst ptlen, .final16 (dst + ptlen) 16]

/-- `DSEAL16 n, ad, adlen, pt, ptlen, dst, tagdst` (R89). -/
def dseal16 (n ad adlen pt ptlen dst tagdst : Nat) : List Instr :=
  [.init n 16, .ad ad adlen, .enc pt dst ptlen, .final16 tagdst 16]

/-- `DSEAL32 n, ad, adlen, pt, ptlen, dst, tagdst` (R89). -/
def dseal32 (n ad adlen pt ptlen dst tagdst : Nat) : List Instr :=
  [.init n 16, .ad ad adlen, .enc pt dst ptlen, .final32 tagdst 32]

/-- `DOPEN16 n, ad, adlen, ct, ctlen, tag, dst` (R89). -/
def dopen16 (n ad adlen ct ctlen tag dst : Nat) : List Instr :=
  [.init n 16, .ad ad adlen, .dec ct dst ctlen, .verify16 tag 16]

/-- `DOPEN32 n, ad, adlen, ct, ctlen, tag, dst` (R89). -/
def dopen32 (n ad adlen ct ctlen tag dst : Nat) : List Instr :=
  [.init n 16, .ad ad adlen, .dec ct dst ctlen, .verify32 tag 32]

/-- `OPEN16 n, ad, adlen, in, inlen, dst` (R89): nothing when "ciphertext too small", for which no command is issued. -/
def open16 (n ad adlen input inlen dst : Nat) : Option (List Instr) :=
  if inlen < 16 then none else some (dopen16 n ad adlen input (inlen - 16) (input + inlen - 16) dst)

/-- `MACSUM16 n, data, datalen, dst` (R89). -/
def macsum16 (n data datalen dst : Nat) : List Instr := [.init n 16, .ad data datalen, .macfinal16 dst 16]

/-- `MACSUM32 n, data, datalen, dst` (R89). -/
def macsum32 (n data datalen dst : Nat) : List Instr := [.init n 16, .ad data datalen, .macfinal32 dst 32]

/-- The completion code the host saw last. -/
def lastCompletion (s : State) : Option Completion :=
  match s.outputs.getLast? with
  | some (.completion c) => some c
  | _ => none

/-- "The host stops at the first command whose completion code is not OK" (R89): the state then, and whether every
command returned OK. -/
def runSequence : List Instr → State → State × Bool
  | [], s => (s, true)
  | i :: is, s =>
    match exec i s with
    | .next t => if lastCompletion t = some .ok then runSequence is t else (t, false)
    | .fault _ => (s, false)
    | .refused _ => (s, false)

end Sys2Proof.Machine
end

