-- ==== Sys2Proof/Machine/Timing.lean ====
section
/-! DEFINITION. Timing information (spec/70_reset_and_hazards.md): the number of update steps of a command (R237) and
its latency, an open parameter (R236). No step of the machine reads either. -/

namespace Sys2Proof.Machine

/-- The table of R237. -/
def updateSteps (i : Instr) : Nat :=
  match i with
  | .setkey _ _ => 0
  | .init _ _ => initRounds
  | .ad _ len => (len + 63) / 64
  | .enc _ _ len => (len + 63) / 64
  | .dec _ _ len => (len + 63) / 64
  | .final16 _ _ => finalRounds
  | .final32 _ _ => finalRounds
  | .verify16 _ _ => finalRounds
  | .verify32 _ _ => finalRounds
  | .macfinal16 _ _ => finalRounds + 1 + finalRounds
  | .macfinal32 _ _ => finalRounds + 1 + finalRounds
  | .zeroize => 0

/-- `lat(cmd)`: it "may depend on the command's opcode and on its LEN field, and on nothing else" (R236; log 7). -/
def commandLatency (i : Instr) : Nat := Config.latency i.row.opcode.toNat i.len

end Sys2Proof.Machine
end

