-- ==== Sys2Proof/Safety.lean ====
section
/-! DEFINITION. What claims use to say a state is sound: the buffers in canonical form, the sequencing invariants of
R31, and the whole invariant; and what it means that OBUF is hidden from the host. -/

namespace Sys2Proof.Safety

open Sys2Proof.Machine

/-- Both buffers are in canonical form and list only addresses of the buffer, whose size is an allowed one (R7, R32). -/
structure BuffersSound (s : State) : Prop where
  size : s.config.wf = true
  ibufWf : Memory.wf s.ibuf = true
  obufWf : Memory.wf s.obuf = true
  ibufWithin : Memory.within s.config.bufBytes s.ibuf = true
  obufWithin : Memory.within s.config.bufBytes s.obuf = true

/-- The byte counters hold at most MAX_LEN (R7, R24). -/
structure CountersBounded (s : State) : Prop where
  adLen : s.adLen ≤ maxLen
  msgLen : s.msgLen ≤ maxLen

/-- The invariants (a) to (f) of the sequencing fields and flags (R31), and "AUTH_OK and AUTH_FAIL are never both 1"
(R30). -/
structure SequencingSound (s : State) : Prop where
  atRest : s.status.phase = .idle ∨ s.status.phase = .done →
    s.status.dir = .none ∧ s.status.obufLock = false ∧ s.lanes = Lanes.zero ∧ s.adLen = 0 ∧ s.msgLen = 0
  locked : s.status.obufLock = true → s.status.dir = .dec ∧ (s.status.phase = .msg ∨ s.status.phase = .closed)
  absorbing : s.status.phase = .ad → s.status.dir = .none ∧ s.msgLen = 0
  closed : s.status.phase = .closed → s.status.dir = .enc ∨ s.status.dir = .dec
  keyed : s.status.phase ≠ .idle → s.status.keyValid = true
  unfaulted : s.status.fault = false → s.status.cause = .none
  exclusive : ¬(s.status.authOk = true ∧ s.status.authFail = true)

/-- The whole invariant. -/
structure Inv (s : State) : Prop where
  buffers : BuffersSound s
  counters : CountersBounded s
  sequencing : SequencingSound s

/-- Every `ObufRead` returns 0x00. -/
def ObufHidden (s : State) : Prop := ∀ addr : BitVec 16, obufByte addr s = 0

/-- The two states agree on everything but the content of OBUF. -/
def SameButObuf (s u : State) : Prop := u = { s with obuf := u.obuf }

end Sys2Proof.Safety
end

