-- ==== Sys2Proof/Certificates/Slice0/Obligations.lean ====
section
/-! DEFINITION. The statements for the provers. The first part is the vocabulary they share, written from the rules and
not from the meanings; each statement's docstring names the rule it formalises or the sections it rests on. -/

namespace Sys2Proof.Statements

open Sys2Proof.Machine

/-- `raise Fault(c)` written out (R203): FAULT, CAUSE and the completion code; "nothing else changes". -/
def faulted (c : Cause) (s : State) : State :=
  { s with status := { s.status with fault := true, cause := c }, outputs := s.outputs ++ [.completion .fault] }

/-- The completion code FAULT and "nothing whatever changes" (R203). -/
def turnedAway (s : State) : State := { s with outputs := s.outputs ++ [.completion .fault] }

/-- Byte `j` of a 32-byte string held as a lane (R9). -/
def laneByte (l : Lane) (j : Nat) : Byte := if j < 16 then Block.byte l.inst0 j else Block.byte l.inst1 (j - 16)

/-- Block `i` of a `len`-byte string whose byte `k` is `f k`: bytes `64i .. 64i+63`, 0x00 beyond the string (R141,
R142, R147). -/
def blockAt (f : Nat → Byte) (len i : Nat) : Chunk :=
  Chunk.ofBytes ((List.range 64).map fun j => if 64 * i + j < len then f (64 * i + j) else 0)

/-- The string cut into 64-byte blocks, the last one zero-padded: `ceil(len / 64)` of them (R141). -/
def blocksOf (f : Nat → Byte) (len : Nat) : List Chunk := (List.range ((len + 63) / 64)).map (blockAt f len)

/-- The lanes after the string has been absorbed block by block (R140, R141). -/
def absorbAll (s : Lanes) (f : Nat → Byte) (len : Nat) : Lanes := (blocksOf f len).foldl absorb s

/-- The keystream byte for byte `k` of the message: from the lanes before its own block is absorbed (R143, R144). -/
def keystreamByte (s : Lanes) (f : Nat → Byte) (len k : Nat) : Byte :=
  Chunk.byte (keystream (((blocksOf f len).take (k / 64)).foldl absorb s)) (k % 64)

/-- PHASE is one of AD, MSG, CLOSED: a finalizing command may follow (R28). -/
def inOperation (st : Status) : Prop := st.phase = .ad ∨ st.phase = .msg ∨ st.phase = .closed

/-- The condition of each command in the transition table (R28). -/
def mayFollow (i : Instr) (st : Status) : Prop :=
  match i with
  | .setkey _ _ => st.phase = .idle ∨ st.phase = .done
  | .init _ _ => st.keyValid = true
  | .ad _ _ => st.phase = .ad
  | .enc _ _ _ => (st.phase = .ad ∨ st.phase = .msg) ∧ (st.dir = .none ∨ st.dir = .enc)
  | .dec _ _ _ => (st.phase = .ad ∨ st.phase = .msg) ∧ (st.dir = .none ∨ st.dir = .dec)
  | .final16 _ _ => inOperation st ∧ (st.dir = .none ∨ st.dir = .enc)
  | .final32 _ _ => inOperation st ∧ (st.dir = .none ∨ st.dir = .enc)
  | .verify16 _ _ => inOperation st ∧ (st.dir = .none ∨ st.dir = .dec)
  | .verify32 _ _ => inOperation st ∧ (st.dir = .none ∨ st.dir = .dec)
  | .macfinal16 _ _ => (st.phase = .ad ∨ st.phase = .msg) ∧ st.dir = .none
  | .macfinal32 _ _ => (st.phase = .ad ∨ st.phase = .msg) ∧ st.dir = .none
  | .zeroize => True

/-- The column "PHASE after" (R28). -/
def phaseAfter (i : Instr) (ph : Phase) : Phase :=
  match i with
  | .setkey _ _ => ph
  | .init _ _ => .ad
  | .ad _ len => if len % 64 = 0 then .ad else .msg
  | .enc _ _ len => if len % 64 = 0 then .msg else .closed
  | .dec _ _ len => if len % 64 = 0 then .msg else .closed
  | .final16 _ _ => .done
  | .final32 _ _ => .done
  | .verify16 _ _ => .done
  | .verify32 _ _ => .done
  | .macfinal16 _ _ => .done
  | .macfinal32 _ _ => .done
  | .zeroize => .idle

/-- The column "DIR after" (R28). -/
def dirAfter (i : Instr) (d : Dir) : Dir :=
  match i with
  | .setkey _ _ => d
  | .init _ _ => .none
  | .ad _ _ => d
  | .enc _ _ _ => .enc
  | .dec _ _ _ => .dec
  | .final16 _ _ => .none
  | .final32 _ _ => .none
  | .verify16 _ _ => .none
  | .verify32 _ _ => .none
  | .macfinal16 _ _ => .none
  | .macfinal32 _ _ => .none
  | .zeroize => .none

/-- The fixed size of a command and the cause of its check (R83, R206); `none` where LEN may be any. -/
def fixedSize : Instr → Option (Nat × Cause)
  | .setkey _ _ => some (16, .keyLen)
  | .init _ _ => some (16, .nonceLen)
  | .ad _ _ => none
  | .enc _ _ _ => none
  | .dec _ _ _ => none
  | .final16 _ _ => some (16, .tagLen)
  | .final32 _ _ => some (32, .tagLen)
  | .verify16 _ _ => some (16, .tagLen)
  | .verify32 _ _ => some (32, .tagLen)
  | .macfinal16 _ _ => some (16, .tagLen)
  | .macfinal32 _ _ => some (32, .tagLen)
  | .zeroize => none

/-- The bytes a command would read or write are inside the buffers (R62, R207). -/
def inRange (i : Instr) (s : State) : Prop :=
  match i with
  | .setkey src len => src + len ≤ s.config.bufBytes
  | .init src len => src + len ≤ s.config.bufBytes
  | .ad src len => src + len ≤ s.config.bufBytes
  | .enc src dst len => src + len ≤ s.config.bufBytes ∧ dst + len ≤ s.config.bufBytes
  | .dec src dst len => src + len ≤ s.config.bufBytes ∧ dst + len ≤ s.config.bufBytes
  | .final16 dst len => dst + len ≤ s.config.bufBytes
  | .final32 dst len => dst + len ≤ s.config.bufBytes
  | .verify16 src len => src + len ≤ s.config.bufBytes
  | .verify32 src len => src + len ≤ s.config.bufBytes
  | .macfinal16 dst len => dst + len ≤ s.config.bufBytes
  | .macfinal32 dst len => dst + len ≤ s.config.bufBytes
  | .zeroize => True

/-- The counter the command advances stays within MAX_LEN = 2^61 - 1 (R208). -/
def counterFits (i : Instr) (s : State) : Prop :=
  match i with
  | .setkey _ _ => True
  | .init _ _ => True
  | .ad _ len => s.adLen + len ≤ 2 ^ 61 - 1
  | .enc _ _ len => s.msgLen + len ≤ 2 ^ 61 - 1
  | .dec _ _ len => s.msgLen + len ≤ 2 ^ 61 - 1
  | .final16 _ _ => True
  | .final32 _ _ => True
  | .verify16 _ _ => True
  | .verify32 _ _ => True
  | .macfinal16 _ _ => True
  | .macfinal32 _ _ => True
  | .zeroize => True

/-- The faults of one command in their order (R205 to R208, R210), each with its condition: out of sequence, wrong
fixed size, out of range, counter overflow. -/
def FaultsInOrder (i : Instr) (s : State) : Prop :=
  (¬mayFollow i s.status → exec i s = .next (faulted .seq s)) ∧
  (∀ n c, fixedSize i = some (n, c) → mayFollow i s.status → i.len ≠ n → exec i s = .next (faulted c s)) ∧
  (mayFollow i s.status → (∀ n c, fixedSize i = some (n, c) → i.len = n) → ¬inRange i s →
    exec i s = .next (faulted .range s)) ∧
  (mayFollow i s.status → (∀ n c, fixedSize i = some (n, c) → i.len = n) → inRange i s → ¬counterFits i s →
    exec i s = .next (faulted .length s))

/-- A finalizing command that writes a tag of `size` bytes, `tagByte s j` its byte `j` (R164 to R166, R171, R172): where
it is carried out, what it leaves, and its faults in order. -/
def WritesTag (cmd : Nat → Nat → Instr) (size : Nat) (tagByte : State → Nat → Byte) : Prop :=
  ∀ (dst len : Nat) (s : State), s.status.fault = false →
    (mayFollow (cmd dst len) s.status → len = size → dst + size ≤ s.config.bufBytes →
      ∃ t, exec (cmd dst len) s = .next t ∧
        t = { s with
          lanes := Lanes.zero, adLen := 0, msgLen := 0, obuf := t.obuf
          status := { s.status with phase := .done, dir := .none }
          outputs := s.outputs ++ [.completion .ok] } ∧
        (Memory.wf s.obuf = true → ∀ a, Memory.read t.obuf a =
          if dst ≤ a ∧ a < dst + size then tagByte s (a - dst) else Memory.read s.obuf a)) ∧
    FaultsInOrder (cmd dst len) s

/-- A command that checks a tag of `size` bytes (R180 to R184): OK and a released OBUF when the supplied bytes are the
recomputed ones, AUTH_FAIL and an OBUF of zeros when they are not, and its faults in order. -/
def ChecksTag (cmd : Nat → Nat → Instr) (size : Nat) (tagByte : State → Nat → Byte) : Prop :=
  ∀ (src len : Nat) (s : State), s.status.fault = false →
    (mayFollow (cmd src len) s.status → len = size → src + size ≤ s.config.bufBytes →
      (∀ j, j < size → Memory.read s.ibuf (src + j) = tagByte s j) →
      exec (cmd src len) s = .next { s with
        lanes := Lanes.zero, adLen := 0, msgLen := 0
        status := { s.status with phase := .done, dir := .none, obufLock := false, authOk := true, authFail := false }
        outputs := s.outputs ++ [.completion .ok] }) ∧
    (mayFollow (cmd src len) s.status → len = size → src + size ≤ s.config.bufBytes →
      (∃ j, j < size ∧ Memory.read s.ibuf (src + j) ≠ tagByte s j) →
      ∃ t, exec (cmd src len) s = .next t ∧
        t = { s with
          lanes := Lanes.zero, adLen := 0, msgLen := 0, obuf := t.obuf
          status := { s.status with phase := .done, dir := .none, obufLock := false, authOk := false, authFail := true }
          outputs := s.outputs ++ [.completion .authFail] } ∧
        ∀ a, Memory.read t.obuf a = 0) ∧
    FaultsInOrder (cmd src len) s

/-- The transaction returns something to the host (R67): ObufRead, StatusRead and Command do. -/
def returnsOutput : Transaction → Bool
  | .reset => false
  | .ibufWrite _ _ => false
  | .obufRead _ => true
  | .statusRead => true
  | .command _ => true

/-- The lanes after a list of update steps, one for each pair of message halves (R117). -/
def updatedBy (s : Lanes) (steps : List (Lane × Lane)) : Lanes := steps.foldl (fun u m => update u m.1 m.2) s

/-- The update steps that absorb a string: one for each of its blocks (R140, R141). -/
def stepsOfBytes (f : Nat → Byte) (len : Nat) : List (Lane × Lane) := (blocksOf f len).map fun b => (b.m0, b.m1)

/-- `n` update steps with the same lane as both message halves (R161, R169). -/
def stepsWith (n : Nat) (t : Lane) : List (Lane × Lane) := List.replicate n (t, t)

/-- AD, ENC and DEC (R142, R145, R148, R237): the steps are those of the bytes absorbed, which are the bytes at SRC, for
DEC with the keystream taken off. -/
def DataSteps : Prop :=
  ∀ (i : Instr) (s t : State), i.row = .ad ∨ i.row = .enc ∨ i.row = .dec → s.status.fault = false →
    exec i s = .next t → t.status.fault = false →
    ∃ p : Nat → Byte,
      (∀ k, k < i.len → p k = Memory.read s.ibuf (i.src + k) ^^^
        (if i.row = .dec then keystreamByte s.lanes p i.len k else 0)) ∧
      t.lanes = updatedBy s.lanes (stepsOfBytes p i.len) ∧ (stepsOfBytes p i.len).length = updateSteps i ∧
      64 * updateSteps i < i.len + 64 ∧ i.len ≤ 64 * updateSteps i

/-- INIT (R120, R122, R237): ten steps from the seeds, the context XORed into lanes 3 and 7 before each. -/
def InitSteps : Prop :=
  ∀ (src len : Nat) (s t : State), s.status.fault = false → exec (.init src len) s = .next t → t.status.fault = false →
    updateSteps (.init src len) = 10 ∧
    ∃ nonce : Block, (∀ j, j < 16 → Block.byte nonce j = Memory.read s.ibuf (src + j)) ∧
      t.lanes = (fun u : Lanes => update { u with s3 := Lane.xor u.s3 constCTX, s7 := Lane.xor u.s7 constCTX }
        (rep nonce) (rep s.key))^[10] (initSeeds s.key nonce)

/-- FINAL and VERIFY (R161, R164, R237): seven steps, the message from lane 2 as it is at the start. -/
def FinalSteps : Prop :=
  ∀ (i : Instr) (s : Lanes) (a m : Nat),
    i.row = .final16 ∨ i.row = .final32 ∨ i.row = .verify16 ∨ i.row = .verify32 →
    let t := Lane.xor s.s2 (rep (lengthBlock a m))
    updateSteps i = 7 ∧ finalize16 s a m = tag16 (updatedBy s (stepsWith 7 t)) ∧
    finalize32 s a m = tag32 (updatedBy s (stepsWith 7 t))

/-- MACFINAL (R168 to R170, R237): fifteen steps, seven in the first stage, then one with what the first stage gives, then
seven. `x` is what the first stage gives of the lanes after it. -/
def MacSteps : Prop :=
  ∀ (i : Instr) (s : Lanes) (a : Nat), i.row = .macfinal16 ∨ i.row = .macfinal32 →
    let steps := fun (size : Nat) (x : Lanes → Block × Block) =>
      let first := stepsWith 7 (Lane.xor s.s2 (rep (macLengthBlock a size)))
      let given := x (updatedBy s first)
      let middle : List (Lane × Lane) := [(⟨given.1, 0⟩, ⟨given.2, 0⟩)]
      let n := updatedBy s (first ++ middle)
      first ++ middle ++ stepsWith 7 ⟨inst n.s2 0 ^^^ le64Pair 2 (8 * size), 0⟩
    let steps16 := steps 16 fun m => (inst (xorLanes0to6 m) 0, inst (xorLanes0to6 m) 1)
    let steps32 := steps 32 fun m => (inst (xorLanes0to3 m) 1, inst (xorLanes4to7 m) 1)
    updateSteps i = 15 ∧ steps16.length = 15 ∧ steps32.length = 15 ∧
    macFinalize16 s a = macTag16 (updatedBy s steps16) ∧ macFinalize32 s a = macTag32 (updatedBy s steps32)

/-- Multiplication in GF(2^8) by repeated doubling (R113). -/
def gfMul (a b : Byte) : Byte :=
  (List.range 8).foldl (fun acc k => if b.getLsbD k then acc ^^^ xtime^[k] a else acc) 0

/-- The affine map of R111: `y_i = x_i XOR x_(i+4) XOR x_(i+5) XOR x_(i+6) XOR x_(i+7) XOR c_i`, indices modulo 8. -/
def affine (x : Byte) : Byte :=
  (List.range 8).foldl
    (fun acc i =>
      acc ||| (if (x.getLsbD i ^^ x.getLsbD ((i + 4) % 8) ^^ x.getLsbD ((i + 5) % 8) ^^ x.getLsbD ((i + 6) % 8) ^^
        x.getLsbD ((i + 7) % 8) ^^ (0x63 : Byte).getLsbD i) then (1 : Byte) <<< i else 0)) 0

end Sys2Proof.Statements

open Sys2Proof Sys2Proof.Machine Sys2Proof.Safety Sys2Proof.Statements

/-! ## Encoding -/

/-- Every command a word can hold comes back from its word (30_encoding.md sections 1 to 3). -/
def Obligations.DecodeOfEncode : Prop := ∀ i : Instr, i.wellFormed = true → decode (encode i) = .ok i

/-- The other direction: a word has at most one meaning, and re-encoding it loses no bit (30_encoding.md sections 1 to
4). -/
def Obligations.EncodeOfDecode : Prop :=
  ∀ (w : BitVec 64) (i : Instr), decode w = .ok i → i.wellFormed = true ∧ encode i = w

/-- R84: "A word `w` encodes a command of the table exactly when `w AND mask = match` for that command's row", and the
rows exclude one another. -/
def Obligations.DecodeAgreesWithMatchAndMask : Prop :=
  (∀ (w : BitVec 64) (row : Row),
    (∃ i, decode w = .ok i ∧ i.row = row) ↔ w &&& row.maskWord = row.matchWord) ∧
  ∀ (w : BitVec 64) (row row' : Row),
    w &&& row.maskWord = row.matchWord → w &&& row'.maskWord = row'.matchWord → row = row'

/-- R81: the word as a number. -/
def Obligations.EncodedWordIsTheSumOfItsFields : Prop :=
  ∀ i : Instr, i.wellFormed = true →
    (encode i).toNat = i.row.opcode.toNat + 2 ^ 16 * i.src + 2 ^ 32 * i.dst + 2 ^ 48 * i.len

/-- Command words written out from the fields of 30_encoding.md section 1 decode to what they stand for. -/
def Obligations.WordsDecodeAsWrittenOut : Prop :=
  decode 0x0010000000000001 = .ok (.setkey 0 16) ∧
  decode 0x0078000000400004 = .ok (.enc 0x40 0 120) ∧
  decode 0x0010007800000006 = .ok (.final16 0x78 16) ∧
  decode 0x0020000000b80009 = .ok (.verify32 0xb8 32) ∧
  decode 0x000000000000000c = .ok .zeroize ∧
  decode 0x000100000000000c = .error .unusedField

/-- R85, R204: the words that match no row are those with opcode 0x00 or 0x0D to 0xFF, a reserved field that is not 0, or
a field their command does not use that is not 0; such a word is answered with E_ILLEGAL in every PHASE, and nothing else
changes. -/
def Obligations.IllegalWordFaults : Prop :=
  ∀ w : BitVec 64,
    ((∀ row : Row, w &&& row.maskWord ≠ row.matchWord) ↔
      (opcodeField w).toNat = 0 ∨ 0x0D ≤ (opcodeField w).toNat ∨ rsvField w ≠ 0 ∨
      ∃ row : Row, opcodeField w = row.opcode ∧
        ((usesSrc row = false ∧ srcField w ≠ 0) ∨ (usesDst row = false ∧ dstField w ≠ 0) ∨
          (row = .zeroize ∧ lenField w ≠ 0))) ∧
    ∀ s : State, s.status.fault = false → (∀ row : Row, w &&& row.maskWord ≠ row.matchWord) →
      commandWord w s = .next (faulted .illegal s)

/-! ## Steps and host transactions -/

/-- A step whose next transaction is the word of a command is `exec` of that command, the transaction taken off. That the
transactions of the host stand in `pending` is the model's choice (log 1). -/
def Obligations.StepRunsTheDecodedCommand : Prop :=
  ∀ (s : State) (w : BitVec 64) (rest : List Transaction) (i : Instr),
    s.pending = .command w :: rest → decode w = .ok i → step s = exec i { s with pending := rest }

/-- Every transaction has exactly one outcome in every state, a next state, and takes exactly itself off the pending
list; with none pending nothing changes: "The core never acts on its own" (20_memory.md sections 1 and 6; `pending` is
the model's choice, log 1). -/
def Obligations.EveryStepAnswersANextState : Prop :=
  ∀ s : State, ∃ t, step s = .next t ∧ t.pending = s.pending.tail ∧ t.config = s.config ∧ (s.pending = [] → t = s)

/-- All the pending transactions complete, one a step (70_reset_and_hazards.md section 3; `pending` is the model's choice,
log 1). -/
def Obligations.PendingTransactionsAllComplete : Prop :=
  ∀ s : State, ∃ t, core.run s.pending.length s = .next t ∧ t.pending = []

/-- What the host observes of a transaction: one output from an ObufRead, a StatusRead or a Command, none from an
IbufWrite or a Reset, and nothing observed before is lost (20_memory.md section 6; `outputs` is the model's choice,
log 2). -/
def Obligations.OutputsOfATransaction : Prop :=
  ∀ (s t : State) (tr : Transaction) (rest : List Transaction), s.pending = tr :: rest → step s = .next t →
    ∃ added, t.outputs = s.outputs ++ added ∧ added.length = if returnsOutput tr then 1 else 0

/-- R51: StatusRead returns STATUS and has no side effect. -/
def Obligations.StatusReadReturnsStatus : Prop :=
  ∀ s : State, transact .statusRead s = .next { s with outputs := s.outputs ++ [.word s.status.word] }

/-- The fields of the STATUS word at their bits, with their codes, the reserved bits 0 (10_state.md sections 4 and 5,
60_exceptions.md section 2); and the numbers of the codes: PHASE (R26), DIR (R27), CAUSE (R201) and the completion codes
(R87). -/
def Obligations.StatusWordFields : Prop :=
  (Phase.idle.code = 0 ∧ Phase.ad.code = 1 ∧ Phase.msg.code = 2 ∧ Phase.closed.code = 3 ∧ Phase.done.code = 4) ∧
  (Dir.none.code = 0 ∧ Dir.enc.code = 1 ∧ Dir.dec.code = 2) ∧
  (Cause.none.code = 0 ∧ Cause.illegal.code = 1 ∧ Cause.seq.code = 2 ∧ Cause.keyLen.code = 3 ∧ Cause.nonceLen.code = 4 ∧
    Cause.tagLen.code = 5 ∧ Cause.partialLen.code = 6 ∧ Cause.range.code = 7 ∧ Cause.length.code = 8) ∧
  (Completion.ok.code = 0 ∧ Completion.authFail.code = 1 ∧ Completion.fault.code = 2) ∧
  ∀ st : Status,
    st.word.extractLsb' 0 3 = st.phase.code ∧ st.word.extractLsb' 3 2 = st.dir.code ∧
    st.word.getLsbD 5 = st.keyValid ∧ st.word.getLsbD 6 = st.obufLock ∧ st.word.getLsbD 7 = st.authOk ∧
    st.word.getLsbD 8 = st.authFail ∧ st.word.getLsbD 9 = st.fault ∧ st.word.extractLsb' 10 4 = st.cause.code ∧
    st.word.extractLsb' 14 18 = 0 ∧
    (st.word.extractLsb' 0 3).toNat ≤ 4 ∧ (st.word.extractLsb' 3 2).toNat ≤ 2 ∧ (st.word.extractLsb' 10 4).toNat ≤ 8

/-- R52: IbufWrite writes the byte it names and nothing else, in every PHASE and when FAULT = 1; at or above BUF_BYTES
nothing happens; and no transaction of the host reads IBUF: but for a Command, which answers with its completion code
alone, what is answered does not depend on it. -/
def Obligations.IbufWriteWritesOneByte : Prop :=
  (∀ (addr : BitVec 16) (b : Byte) (s : State), Memory.wf s.ibuf = true →
    ∃ t, transact (.ibufWrite addr b) s = .next t ∧ t = { s with ibuf := t.ibuf } ∧
      (addr.toNat < s.config.bufBytes →
        ∀ a, Memory.read t.ibuf a = if a = addr.toNat then b else Memory.read s.ibuf a) ∧
      (s.config.bufBytes ≤ addr.toNat → t = s)) ∧
  ∀ (s t u : State) (ibuf : Memory) (tr : Transaction), (∀ w, tr ≠ .command w) → transact tr s = .next t →
    transact tr { s with ibuf := ibuf } = .next u → t.outputs = u.outputs

/-- R55: ObufRead returns 0x00 while OBUF_LOCK = 1 and at or above BUF_BYTES, otherwise the byte, and has no side
effect. -/
def Obligations.ObufReadObeysTheLock : Prop :=
  ∀ (addr : BitVec 16) (s : State), ∃ b : Byte,
    transact (.obufRead addr) s = .next { s with outputs := s.outputs ++ [.byte b] } ∧
    (s.status.obufLock = true → b = 0) ∧ (s.config.bufBytes ≤ addr.toNat → b = 0) ∧
    (s.status.obufLock = false → addr.toNat < s.config.bufBytes → b = Memory.read s.obuf addr.toNat)

/-- R53, R54: byte `k` of a string read is byte `addr + k`; a string written puts byte `k` at `addr + k` and leaves every
other byte. -/
def Obligations.BufferReadsAndWritesByByte : Prop :=
  ∀ (m : Memory) (addr n : Nat) (v : List Byte), Memory.wf m = true →
    (Memory.readBytes m addr n).length = n ∧
    (∀ k, k < n → (Memory.readBytes m addr n).getD k 0 = Memory.read m (addr + k)) ∧
    Memory.wf (Memory.writeBytes m addr v) = true ∧
    (∀ k, k < v.length → Memory.read (Memory.writeBytes m addr v) (addr + k) = v.getD k 0) ∧
    ∀ a, a < addr ∨ addr + v.length ≤ a → Memory.read (Memory.writeBytes m addr v) a = Memory.read m a

/-! ## Reset -/

/-- R34: after reset every piece of state is zero. (`config`, `pending` and `outputs` are the model's, logs 1, 2 and
4.) -/
def Obligations.ResetLeavesEverythingZero : Prop :=
  State.reset.lanes = Lanes.zero ∧ State.reset.key = 0 ∧ State.reset.adLen = 0 ∧ State.reset.msgLen = 0 ∧
  State.reset.status.word = 0 ∧ State.reset.status.phase = .idle ∧ State.reset.status.dir = .none ∧
  State.reset.status.keyValid = false ∧ State.reset.status.obufLock = false ∧ State.reset.status.authOk = false ∧
  State.reset.status.authFail = false ∧ State.reset.status.fault = false ∧ State.reset.status.cause = .none ∧
  (∀ a, Memory.read State.reset.ibuf a = 0) ∧ ∀ a, Memory.read State.reset.obuf a = 0

/-- R230: the Reset transaction, from any state, leaves every piece of state at its reset value, and nothing else clears
FAULT or CAUSE. (The three fields it keeps are the model's, logs 1, 2 and 4.) -/
def Obligations.ResetTransactionRestoresReset : Prop :=
  (∀ s : State, transact .reset s =
    .next { State.reset with config := s.config, pending := s.pending, outputs := s.outputs }) ∧
  ∀ (s t : State) (tr : Transaction), s.status.fault = true → tr ≠ .reset → transact tr s = .next t →
    t.status.fault = true ∧ t.status.cause = s.status.cause

/-- The state after reset meets the invariant, whatever allowed size the buffers have. -/
def Obligations.ResetMeetsTheInvariant : Prop :=
  ∀ c : Config, c.wf = true → Inv { State.reset with config := c }

/-- Every step keeps the invariant: the buffers in canonical form (the model's choice, log 8) and inside BUF_BYTES, the
counters within MAX_LEN, the sequencing invariants (a) to (f) of 10_state.md section 5, which the spec marks as derived,
AUTH_OK and AUTH_FAIL never both 1. -/
def Obligations.EveryStepKeepsTheInvariant : Prop := ∀ s t : State, Inv s → step s = .next t → Inv t

/-- The invariant holds after any number of steps of any host, from reset, for every allowed buffer size (10_state.md
section 5: "which hold after reset and after every command"). -/
def Obligations.EveryRunFromResetMeetsTheInvariant : Prop :=
  ∀ (c : Config) (ts : List Transaction) (n : Nat) (t : State), c.wf = true →
    core.run n { State.reset with config := c, pending := ts } = .next t → Inv t

/-! ## The permutation core -/

/-- ShiftRows rotates row `r` left by `r` positions, and MixColumns replaces each column by the four sums of its rule
(40_permutation_core.md section 1). -/
def Obligations.ShiftRowsAndMixColumnsByByte : Prop :=
  (∀ (b : Block) (r c : Nat), r < 4 → c < 4 →
    Block.byte (shiftRows b) (r + 4 * c) = Block.byte b (r + 4 * ((c + r) % 4))) ∧
  ∀ (b : Block) (c : Nat), c < 4 →
    let a := fun k => Block.byte b (4 * c + k)
    let o := fun k => Block.byte (mixColumns b) (4 * c + k)
    o 0 = mul2 (a 0) ^^^ mul3 (a 1) ^^^ a 2 ^^^ a 3 ∧
    o 1 = a 0 ^^^ mul2 (a 1) ^^^ mul3 (a 2) ^^^ a 3 ∧
    o 2 = a 0 ^^^ a 1 ^^^ mul2 (a 2) ^^^ mul3 (a 3) ∧
    o 3 = mul3 (a 0) ^^^ a 1 ^^^ a 2 ^^^ mul2 (a 3)

/-- The S-box table is the one its construction generates: the affine map of the inverse in GF(2^8) (40_permutation_core.md
section 1). -/
def Obligations.SboxIsTheAffineInverse : Prop :=
  ∀ a : Byte, ∃ x : Byte, (if a = 0 then x = 0 else gfMul a x = 1) ∧ sbox a = affine x

/-- R117: every new lane is the round of its old left neighbour with the old lane, the message halves XORed into lanes 0
and 4. -/
def Obligations.UpdateIsARingOfRounds : Prop :=
  ∀ (s : Lanes) (m0 m1 : Lane),
    (update s m0 m1).s0 = aesRoundX2 s.s7 (Lane.xor s.s0 m0) ∧ (update s m0 m1).s1 = aesRoundX2 s.s0 s.s1 ∧
    (update s m0 m1).s2 = aesRoundX2 s.s1 s.s2 ∧ (update s m0 m1).s3 = aesRoundX2 s.s2 s.s3 ∧
    (update s m0 m1).s4 = aesRoundX2 s.s3 (Lane.xor s.s4 m1) ∧ (update s m0 m1).s5 = aesRoundX2 s.s4 s.s5 ∧
    (update s m0 m1).s6 = aesRoundX2 s.s5 s.s6 ∧ (update s m0 m1).s7 = aesRoundX2 s.s6 s.s7

/-- The two instances never mix in an update: the instance-`k` halves of the result depend on the instance-`k` halves of
the lanes and of the message alone (40_permutation_core.md section 2). -/
def Obligations.InstancesDoNotMixInUpdate : Prop :=
  ∀ (k : Nat) (s u : Lanes) (m0 m1 n0 n1 : Lane),
    inst s.s0 k = inst u.s0 k → inst s.s1 k = inst u.s1 k → inst s.s2 k = inst u.s2 k → inst s.s3 k = inst u.s3 k →
    inst s.s4 k = inst u.s4 k → inst s.s5 k = inst u.s5 k → inst s.s6 k = inst u.s6 k → inst s.s7 k = inst u.s7 k →
    inst m0 k = inst n0 k → inst m1 k = inst n1 k →
    inst (update s m0 m1).s0 k = inst (update u n0 n1).s0 k ∧ inst (update s m0 m1).s1 k = inst (update u n0 n1).s1 k ∧
    inst (update s m0 m1).s2 k = inst (update u n0 n1).s2 k ∧ inst (update s m0 m1).s3 k = inst (update u n0 n1).s3 k ∧
    inst (update s m0 m1).s4 k = inst (update u n0 n1).s4 k ∧ inst (update s m0 m1).s5 k = inst (update u n0 n1).s5 k ∧
    inst (update s m0 m1).s6 k = inst (update u n0 n1).s6 k ∧ inst (update s m0 m1).s7 k = inst (update u n0 n1).s7 k

/-- R121: SETKEY, where it is carried out, what it leaves, and its faults in order. -/
def Obligations.SetkeyLoadsTheKey : Prop :=
  ∀ (src len : Nat) (s : State), s.status.fault = false →
    (mayFollow (.setkey src len) s.status → len = 16 → src + 16 ≤ s.config.bufBytes →
      ∃ key : Block, (∀ j, j < 16 → Block.byte key j = Memory.read s.ibuf (src + j)) ∧
        exec (.setkey src len) s = .next { s with
          key := key, status := { s.status with keyValid := true }, outputs := s.outputs ++ [.completion .ok] }) ∧
    FaultsInOrder (.setkey src len) s

/-- R122: INIT, where it is carried out, what it leaves (OBUF wiped when it was locked), and its faults in order. -/
def Obligations.InitStartsAnOperation : Prop :=
  ∀ (src len : Nat) (s : State), s.status.fault = false →
    (mayFollow (.init src len) s.status → len = 16 → src + 16 ≤ s.config.bufBytes →
      ∃ (nonce : Block) (t : State), (∀ j, j < 16 → Block.byte nonce j = Memory.read s.ibuf (src + j)) ∧
        exec (.init src len) s = .next t ∧
        t = { s with
          lanes := initLanes s.key nonce, adLen := 0, msgLen := 0, obuf := t.obuf
          status := { s.status with phase := .ad, dir := .none, obufLock := false, authOk := false, authFail := false }
          outputs := s.outputs ++ [.completion .ok] } ∧
        (s.status.obufLock = true → ∀ a, Memory.read t.obuf a = 0) ∧
        (s.status.obufLock = false → t.obuf = s.obuf)) ∧
    FaultsInOrder (.init src len) s

/-! ## The duplex engine -/

/-- R142: AD absorbs the bytes block by block, the last block zero-padded, and its faults in order. -/
def Obligations.AdAbsorbsItsBytes : Prop :=
  ∀ (src len : Nat) (s : State), s.status.fault = false →
    (mayFollow (.ad src len) s.status → inRange (.ad src len) s → counterFits (.ad src len) s →
      exec (.ad src len) s = .next { s with
        lanes := absorbAll s.lanes (fun k => Memory.read s.ibuf (src + k)) len
        adLen := s.adLen + len
        status := { s.status with phase := if len % 64 = 0 then .ad else .msg }
        outputs := s.outputs ++ [.completion .ok] }) ∧
    FaultsInOrder (.ad src len) s

/-- R145: ENC writes every plaintext byte XORed with its keystream byte, absorbs the plaintext, and its faults in
order. -/
def Obligations.EncEncryptsItsBytes : Prop :=
  ∀ (src dst len : Nat) (s : State), s.status.fault = false →
    (mayFollow (.enc src dst len) s.status → inRange (.enc src dst len) s → counterFits (.enc src dst len) s →
      ∃ t, exec (.enc src dst len) s = .next t ∧
        t = { s with
          lanes := absorbAll s.lanes (fun k => Memory.read s.ibuf (src + k)) len
          msgLen := s.msgLen + len, obuf := t.obuf
          status := { s.status with phase := if len % 64 = 0 then .msg else .closed, dir := .enc }
          outputs := s.outputs ++ [.completion .ok] } ∧
        (Memory.wf s.obuf = true → ∀ a, Memory.read t.obuf a =
          if dst ≤ a ∧ a < dst + len then
            Memory.read s.ibuf (src + (a - dst)) ^^^
              keystreamByte s.lanes (fun k => Memory.read s.ibuf (src + k)) len (a - dst)
          else Memory.read s.obuf a)) ∧
    FaultsInOrder (.enc src dst len) s

/-- R148: DEC writes every ciphertext byte XORed with its keystream byte, absorbs the recovered plaintext `p` and not the
ciphertext, locks OBUF, and its faults in order. -/
def Obligations.DecDecryptsItsBytes : Prop :=
  ∀ (src dst len : Nat) (s : State), s.status.fault = false →
    (mayFollow (.dec src dst len) s.status → inRange (.dec src dst len) s → counterFits (.dec src dst len) s →
      ∃ (t : State) (p : Nat → Byte),
        (∀ k, k < len → p k = Memory.read s.ibuf (src + k) ^^^ keystreamByte s.lanes p len k) ∧
        exec (.dec src dst len) s = .next t ∧
        t = { s with
          lanes := absorbAll s.lanes p len
          msgLen := s.msgLen + len, obuf := t.obuf
          status := { s.status with phase := if len % 64 = 0 then .msg else .closed, dir := .dec, obufLock := true }
          outputs := s.outputs ++ [.completion .ok] } ∧
        (Memory.wf s.obuf = true → ∀ a, Memory.read t.obuf a =
          if dst ≤ a ∧ a < dst + len then p (a - dst) else Memory.read s.obuf a)) ∧
    FaultsInOrder (.dec src dst len) s

/-- The partial block in both directions absorbs the same bytes, and decryption gives the plaintext back; outside 1..63
the routine is a fault (41_duplex_engine.md section 4). -/
def Obligations.PartialBlockRoundTrip : Prop :=
  (∀ (s : Lanes) (p : List Byte) (r : Nat), p.length = r → 0 < r → r < 64 →
    decPartial s (encPartial s p r).2 r = .ok ((encPartial s p r).1, p)) ∧
  ∀ (s : Lanes) (c : List Byte) (r : Nat), ¬(0 < r ∧ r < 64) → decPartial s c r = .error .partialLen

/-- An AD, ENC or DEC of `a + b` bytes, `a` a multiple of 64, is the command of `a` bytes followed by the command of the
rest, SRC and DST advanced by `a`, which answer OK twice where the one answers it once (41_duplex_engine.md section
1). -/
def Obligations.DataCommandsChainAtBlockBoundaries : Prop :=
  ∀ (src dst a b : Nat) (s : State), s.status.fault = false → a % 64 = 0 →
    ∀ whole first rest : Instr,
      (whole = .ad src (a + b) ∧ first = .ad src a ∧ rest = .ad (src + a) b) ∨
      (whole = .enc src dst (a + b) ∧ first = .enc src dst a ∧ rest = .enc (src + a) (dst + a) b) ∨
      (whole = .dec src dst (a + b) ∧ first = .dec src dst a ∧ rest = .dec (src + a) (dst + a) b) →
    mayFollow whole s.status → inRange whole s → counterFits whole s →
    ∃ t u v, exec whole s = .next t ∧ exec first s = .next u ∧ exec rest u = .next v ∧
      v.status.fault = false ∧ t = { v with outputs := s.outputs ++ [.completion .ok] } ∧
      v.outputs = s.outputs ++ [.completion .ok, .completion .ok]

/-- Decrypting what an ENC wrote, from the same lanes, gives the plaintext back, and leaves the same lanes and the same
message length, so that both runs finalize to the same tag (41_duplex_engine.md section 5). -/
def Obligations.DecUndoesEnc : Prop :=
  ∀ (src dst len src' dst' : Nat) (s t u v : State),
    s.status.fault = false → t.status.fault = false → exec (.enc src dst len) s = .next t →
    u.status.fault = false → v.status.fault = false → exec (.dec src' dst' len) u = .next v →
    Memory.wf s.obuf = true → Memory.wf u.obuf = true → u.lanes = s.lanes → u.msgLen = s.msgLen →
    (∀ k, k < len → Memory.read u.ibuf (src' + k) = Memory.read t.obuf (dst + k)) →
    v.lanes = t.lanes ∧ v.msgLen = t.msgLen ∧
    ∀ k, k < len → Memory.read v.obuf (dst' + k) = Memory.read s.ibuf (src + k)

/-- The update steps of every command are those of the table of R237, each with its own message: `ceil(LEN / 64)` for AD,
ENC and DEC, ten for INIT, seven for FINAL and VERIFY, fifteen for MACFINAL, none for SETKEY and ZEROIZE, of which SETKEY
leaves the lanes (70_reset_and_hazards.md section 4; R118, the seeds of R120 and R168 to R170 are general knowledge in the
spec, log 10). -/
def Obligations.UpdateStepsOfEveryCommand : Prop :=
  DataSteps ∧ InitSteps ∧ FinalSteps ∧ MacSteps ∧
  (∀ (src len : Nat) (s t : State), exec (.setkey src len) s = .next t →
    updateSteps (.setkey src len) = 0 ∧ t.lanes = s.lanes) ∧
  updateSteps .zeroize = 0

/-! ## The finalizer -/

/-- R160: the length block holds the two bit counts as little-endian 64-bit integers, and two pairs of lengths up to
MAX_LEN with the same block are the same pair. -/
def Obligations.LengthBlockHoldsBothLengths : Prop :=
  (∀ a m : Nat, a ≤ 2 ^ 61 - 1 → m ≤ 2 ^ 61 - 1 →
    (∀ j, j < 8 → (Block.byte (lengthBlock a m) j).toNat = 8 * a / 2 ^ (8 * j) % 256) ∧
    ∀ j, j < 8 → (Block.byte (lengthBlock a m) (8 + j)).toNat = 8 * m / 2 ^ (8 * j) % 256) ∧
  ∀ a m a' m' : Nat, a ≤ 2 ^ 61 - 1 → m ≤ 2 ^ 61 - 1 → a' ≤ 2 ^ 61 - 1 → m' ≤ 2 ^ 61 - 1 →
    lengthBlock a m = lengthBlock a' m' → a = a' ∧ m = m'

/-- The two reductions are tied by lane 7 alone: `Tag16(S) = Tag32(S)[0..16) ^ Tag32(S)[16..32) ^ inst(S[7],0) ^
inst(S[7],1)` (42_finalizer.md section 1). -/
def Obligations.TagReductionsDifferByLane7 : Prop :=
  ∀ s : Lanes, tag16 s = (tag32 s).inst0 ^^^ (tag32 s).inst1 ^^^ inst s.s7 0 ^^^ inst s.s7 1

/-- In the MAC's second stage the instance-1 half of the message constant cannot be told from outside: the tag is taken
from instance 0, whose halves no instance-1 half reaches (95_test_vectors.md section 7). -/
def Obligations.MacTagIgnoresInstanceOne : Prop :=
  ∀ (s : Lanes) (t t' : Lane), t.inst0 = t'.inst0 →
    macTag16 (finalUpdates t s) = macTag16 (finalUpdates t' s) ∧
    macTag32 (finalUpdates t s) = macTag32 (finalUpdates t' s)

/-- R165, R166: FINAL16 and FINAL32. -/
def Obligations.FinalWritesTheTag : Prop :=
  WritesTag .final16 16 (fun s j => Block.byte (finalize16 s.lanes s.adLen s.msgLen) j) ∧
  WritesTag .final32 32 fun s j => laneByte (finalize32 s.lanes s.adLen s.msgLen) j

/-- R171, R172: MACFINAL16 and MACFINAL32. -/
def Obligations.MacFinalWritesTheTag : Prop :=
  WritesTag .macfinal16 16 (fun s j => Block.byte (macFinalize16 s.lanes s.adLen) j) ∧
  WritesTag .macfinal32 32 fun s j => laneByte (macFinalize32 s.lanes s.adLen) j

/-! ## Verification and zeroing -/

/-- R180: the comparison's "result is 1 exactly when `a = b`", for strings of the same length. -/
def Obligations.TagEqualExactlyWhenEqual : Prop :=
  ∀ a b : List Byte, a.length = b.length → (tagEqual a b = true ↔ a = b)

/-- R183, R184: VERIFY16 and VERIFY32. -/
def Obligations.VerifyChecksTheTag : Prop :=
  ChecksTag .verify16 16 (fun s j => Block.byte (finalize16 s.lanes s.adLen s.msgLen) j) ∧
  ChecksTag .verify32 32 fun s j => laneByte (finalize32 s.lanes s.adLen s.msgLen) j

/-- R187: ZEROIZE, in every state, FAULT = 1 included, leaves the reset state except for FAULT and CAUSE. -/
def Obligations.ZeroizeClearsAllButTheFault : Prop :=
  ∀ s : State, exec .zeroize s = .next { State.reset with
    status := { Status.zero with fault := s.status.fault, cause := s.status.cause }
    config := s.config, pending := s.pending, outputs := s.outputs ++ [.completion .ok] }

/-- Sealing and then opening gives the plaintext back (43_verify_zeroize.md section 4, both tag sizes). `s` seals;
`u` has the same key and, in its IBUF, the same nonce and associated data, the ciphertext and the tag that were written;
then every command of the opening returns OK and the plaintext is readable. -/
def Obligations.OpenUndoesSeal : Prop :=
  ∀ (big : Bool) (n ad adlen pt ptlen dst tagdst n' ad' ct tag dst' : Nat) (s u : State),
    let size := if big then 32 else 16
    let sealing := if big then dseal32 n ad adlen pt ptlen dst tagdst else dseal16 n ad adlen pt ptlen dst tagdst
    let opening := if big then dopen32 n' ad' adlen ct ptlen tag dst' else dopen16 n' ad' adlen ct ptlen tag dst'
    s.status.fault = false → s.status.keyValid = true → u.status.fault = false → u.status.keyValid = true →
    u.key = s.key → s.config.wf = true → u.config = s.config → Memory.wf s.obuf = true → Memory.wf u.obuf = true →
    n + 16 ≤ s.config.bufBytes → ad + adlen ≤ s.config.bufBytes → pt + ptlen ≤ s.config.bufBytes →
    dst + ptlen ≤ s.config.bufBytes → tagdst + size ≤ s.config.bufBytes → dst + ptlen ≤ tagdst ∨ tagdst + size ≤ dst →
    n' + 16 ≤ s.config.bufBytes → ad' + adlen ≤ s.config.bufBytes → ct + ptlen ≤ s.config.bufBytes →
    tag + size ≤ s.config.bufBytes → dst' + ptlen ≤ s.config.bufBytes →
    ∃ t v, runSequence sealing s = (t, true) ∧
      ((∀ k, k < 16 → Memory.read u.ibuf (n' + k) = Memory.read s.ibuf (n + k)) →
       (∀ k, k < adlen → Memory.read u.ibuf (ad' + k) = Memory.read s.ibuf (ad + k)) →
       (∀ k, k < ptlen → Memory.read u.ibuf (ct + k) = Memory.read t.obuf (dst + k)) →
       (∀ k, k < size → Memory.read u.ibuf (tag + k) = Memory.read t.obuf (tagdst + k)) →
       runSequence opening u = (v, true) ∧ v.status.obufLock = false ∧ v.status.authOk = true ∧
       ∀ k, k < ptlen → Memory.read v.obuf (dst' + k) = Memory.read s.ibuf (pt + k))

/-- Opening with any byte of the tag wrong never succeeds: the host stops at AUTH_FAIL and every byte of OBUF is 0x00
(43_verify_zeroize.md section 4: "certain for a flipped tag bit"). `ibuf` is an IBUF that opens, `u` has an IBUF that
differs from it only in the tag. -/
def Obligations.OpenRejectsAWrongTag : Prop :=
  ∀ (big : Bool) (n ad adlen ct ctlen tag dst : Nat) (u g : State) (ibuf : Memory),
    let size := if big then 32 else 16
    let opening := if big then dopen32 n ad adlen ct ctlen tag dst else dopen16 n ad adlen ct ctlen tag dst
    u.status.fault = false → runSequence opening { u with ibuf := ibuf } = (g, true) →
    (∀ k, k < 16 → Memory.read u.ibuf (n + k) = Memory.read ibuf (n + k)) →
    (∀ k, k < adlen → Memory.read u.ibuf (ad + k) = Memory.read ibuf (ad + k)) →
    (∀ k, k < ctlen → Memory.read u.ibuf (ct + k) = Memory.read ibuf (ct + k)) →
    (∃ k, k < size ∧ Memory.read u.ibuf (tag + k) ≠ Memory.read ibuf (tag + k)) →
    ∃ v, runSequence opening u = (v, false) ∧ v.status.fault = false ∧ v.status.authFail = true ∧
      ∀ a, Memory.read v.obuf a = 0

/-- A host that issues the words of a sequence one by one sees what `runSequence` gives, as long as every command
returns OK (30_encoding.md section 6; `pending` is the model's choice, log 1). -/
def Obligations.SequencesRunAsTransactions : Prop :=
  ∀ (is : List Instr) (s t : State), (∀ i ∈ is, i.wellFormed = true) → s.pending = [] →
    runSequence is s = (t, true) →
    core.run is.length { s with pending := is.map fun i => .command (encode i) } = .next t

/-! ## Faults -/

/-- R86, R210: the order of the tests, from the word: FAULT first, which ZEROIZE alone passes, being performed in every
state with the answer OK; then the illegal word, sequence, fixed size, range, counter; when all pass the command is
carried out, records no fault, and answers OK, or AUTH_FAIL if it is a VERIFY. -/
def Obligations.FaultsComeInOrder : Prop :=
  ∀ (w : BitVec 64) (s : State),
    (s.status.fault = true → decode w ≠ .ok .zeroize → commandWord w s = .next (turnedAway s)) ∧
    (decode w = .ok .zeroize → commandWord w s = exec .zeroize s ∧
      ∃ t, exec .zeroize s = .next t ∧ t.outputs = s.outputs ++ [.completion .ok] ∧ t.status.fault = s.status.fault ∧ t.status.cause = s.status.cause) ∧
    (s.status.fault = false → (∀ i, decode w ≠ .ok i) → commandWord w s = .next (faulted .illegal s)) ∧
    ∀ i, decode w = .ok i → s.status.fault = false →
      FaultsInOrder i s ∧ commandWord w s = exec i s ∧
      (mayFollow i s.status → (∀ n c, fixedSize i = some (n, c) → i.len = n) → inRange i s → counterFits i s →
        ∃ t c, exec i s = .next t ∧ t.status.fault = false ∧ t.outputs = s.outputs ++ [.completion c] ∧
          (c = .ok ∨ c = .authFail ∧ (i.row = .verify16 ∨ i.row = .verify32)))

/-- R203: once FAULT = 1 it and CAUSE stay until a Reset, whatever else the host does; a command other than ZEROIZE then
changes nothing. -/
def Obligations.FaultStaysUntilReset : Prop :=
  ∀ (s t : State) (tr : Transaction) (rest : List Transaction),
    s.status.fault = true → s.pending = tr :: rest → tr ≠ .reset → step s = .next t →
    t.status.fault = true ∧ t.status.cause = s.status.cause ∧
    ∀ w, tr = .command w → decode w ≠ .ok .zeroize →
      t = { s with pending := rest, outputs := s.outputs ++ [.completion .fault] }

/-- A command that records a fault has no other effect (60_exceptions.md section 2), and the cause is never
E_PARTIAL_LEN, which no command reaches. -/
def Obligations.AFaultRecordsOnlyItsCause : Prop :=
  ∀ (i : Instr) (s t : State), s.status.fault = false → exec i s = .next t → t.status.fault = true →
    t = faulted t.status.cause s ∧ t.status.cause ≠ .partialLen ∧ t.status.cause ≠ .none

/-- R28, the transition table: a command that is carried out was legal and leaves PHASE and DIR as the table says, ZEROIZE
also when FAULT = 1; one that was not legal is E_SEQ and changes neither. -/
def Obligations.TransitionsFollowTheTable : Prop :=
  ∀ (i : Instr) (s t : State), s.status.fault = false ∨ i = .zeroize → exec i s = .next t →
    (t.status.fault = s.status.fault → mayFollow i s.status ∧ t.status.phase = phaseAfter i s.status.phase ∧
      t.status.dir = dirAfter i s.status.dir) ∧
    (¬mayFollow i s.status → t.status.cause = .seq ∧ t.status.phase = s.status.phase ∧ t.status.dir = s.status.dir)

/-! ## Frames: what a command leaves unchanged whenever it answers a next state, faults included -/

/-- SETKEY changes KEY, KEY_VALID, FAULT, CAUSE and what the host observed; no other register, flag or byte. -/
def Obligations.SetkeyFrame : Prop :=
  ∀ (src len : Nat) (s t : State), exec (.setkey src len) s = .next t →
    t = { s with key := t.key, outputs := t.outputs, status := { s.status with
      keyValid := t.status.keyValid, fault := t.status.fault, cause := t.status.cause } }

/-- INIT leaves KEY, KEY_VALID and IBUF, and OBUF too unless it was locked. -/
def Obligations.InitFrame : Prop :=
  ∀ (src len : Nat) (s t : State), exec (.init src len) s = .next t →
    t = { s with
      lanes := t.lanes, adLen := t.adLen, msgLen := t.msgLen, obuf := t.obuf, outputs := t.outputs
      status := { t.status with keyValid := s.status.keyValid } } ∧
    (s.status.obufLock = false → ∀ a, Memory.read t.obuf a = Memory.read s.obuf a)

/-- AD changes the lanes, AD_LEN, PHASE, FAULT, CAUSE and what the host observed; no byte of either buffer. -/
def Obligations.AdFrame : Prop :=
  ∀ (src len : Nat) (s t : State), exec (.ad src len) s = .next t →
    t = { s with lanes := t.lanes, adLen := t.adLen, outputs := t.outputs, status := { s.status with
      phase := t.status.phase, fault := t.status.fault, cause := t.status.cause } }

/-- ENC and DEC change the lanes, MSG_LEN, PHASE, DIR, FAULT, CAUSE, for DEC OBUF_LOCK, and only the bytes
OBUF[DST .. DST+LEN). -/
def Obligations.EncAndDecFrame : Prop :=
  ∀ (src dst len : Nat) (s t : State),
    (exec (.enc src dst len) s = .next t →
      t = { s with lanes := t.lanes, msgLen := t.msgLen, obuf := t.obuf, outputs := t.outputs, status := { s.status with
        phase := t.status.phase, dir := t.status.dir, fault := t.status.fault, cause := t.status.cause } }) ∧
    (exec (.dec src dst len) s = .next t →
      t = { s with lanes := t.lanes, msgLen := t.msgLen, obuf := t.obuf, outputs := t.outputs, status := { s.status with
        phase := t.status.phase, dir := t.status.dir, obufLock := t.status.obufLock, fault := t.status.fault
        cause := t.status.cause } }) ∧
    (exec (.enc src dst len) s = .next t ∨ exec (.dec src dst len) s = .next t → Memory.wf s.obuf = true →
      ∀ a, a < dst ∨ dst + len ≤ a → Memory.read t.obuf a = Memory.read s.obuf a)

/-- The commands that write a tag leave KEY, IBUF and the flags KEY_VALID, OBUF_LOCK, AUTH_OK, AUTH_FAIL, and every byte of
OBUF outside [DST .. DST+LEN). -/
def Obligations.TagWritersFrame : Prop :=
  ∀ (i : Instr) (s t : State),
    i.row = .final16 ∨ i.row = .final32 ∨ i.row = .macfinal16 ∨ i.row = .macfinal32 → exec i s = .next t →
    t = { s with
      lanes := t.lanes, adLen := t.adLen, msgLen := t.msgLen, obuf := t.obuf, outputs := t.outputs
      status := { s.status with
        phase := t.status.phase, dir := t.status.dir, fault := t.status.fault, cause := t.status.cause } } ∧
    (Memory.wf s.obuf = true → ∀ a, a < i.dst ∨ i.dst + i.len ≤ a → Memory.read t.obuf a = Memory.read s.obuf a)

/-- VERIFY16 and VERIFY32 leave KEY, KEY_VALID and IBUF, and every byte of OBUF unless AUTH_FAIL is their answer. -/
def Obligations.VerifyFrame : Prop :=
  ∀ (i : Instr) (s t : State), i.row = .verify16 ∨ i.row = .verify32 → exec i s = .next t →
    t = { s with
      lanes := t.lanes, adLen := t.adLen, msgLen := t.msgLen, obuf := t.obuf, outputs := t.outputs
      status := { t.status with keyValid := s.status.keyValid } } ∧
    (t.outputs ≠ s.outputs ++ [.completion .authFail] → ∀ a, Memory.read t.obuf a = Memory.read s.obuf a)

/-! ## Whole-machine rules -/

/-- The key changes only by SETKEY, ZEROIZE or Reset, and IBUF only by IbufWrite, ZEROIZE or Reset (10_state.md section 3,
20_memory.md section 1). -/
def Obligations.OnlyTheseChangeKeyAndIbuf : Prop :=
  ∀ (s t : State) (tr : Transaction) (rest : List Transaction), s.pending = tr :: rest → step s = .next t →
    (t.key ≠ s.key ∨ t.status.keyValid ≠ s.status.keyValid →
      tr = .reset ∨ ∃ w i, tr = .command w ∧ decode w = .ok i ∧ (i.row = .setkey ∨ i.row = .zeroize)) ∧
    (t.ibuf ≠ s.ibuf →
      tr = .reset ∨ (∃ a b, tr = .ibufWrite a b) ∨ ∃ w, tr = .command w ∧ decode w = .ok .zeroize)

/-- Unverified plaintext is never readable: while OBUF_LOCK = 1 every ObufRead returns 0x00, and a step that opens the
lock either clears OBUF or has just found the tags equal (43_verify_zeroize.md section 2). -/
def Obligations.UnverifiedPlaintextIsNeverReadable : Prop :=
  ∀ s t : State, s.status.obufLock = true → step s = .next t →
    ObufHidden s ∧
    ((t.status.obufLock = true ∧ ObufHidden t) ∨ (∀ a, Memory.read t.obuf a = 0) ∨
      (t.status.authOk = true ∧ t.obuf = s.obuf))

/-- What is in a locked OBUF cannot be learned: two machines that differ in it alone answer every transaction alike, and
stay alike but for OBUF until the lock opens; then OBUF is the same in both, or the tag has been verified (20_memory.md
section 1, 43_verify_zeroize.md section 2). -/
def Obligations.LockedObufCannotBeLearned : Prop :=
  ∀ s u t v : State, s.status.obufLock = true → SameButObuf s u → step s = .next t → step u = .next v →
    t.outputs = v.outputs ∧ SameButObuf t v ∧
    (t.status.obufLock = false → t.obuf = v.obuf ∨ t.status.authOk = true)

/-- The lanes, KEY, AD_LEN, MSG_LEN and IBUF have no read path: for two machines that agree on STATUS, OBUF and the buffer
size, every transaction but a Command is answered alike (10_state.md sections 2 and 3, 60_exceptions.md section 7). -/
def Obligations.SecretsHaveNoReadPath : Prop :=
  ∀ (s u t v : State) (tr : Transaction), (∀ w, tr ≠ .command w) → s.status = u.status → s.obuf = u.obuf →
    s.config = u.config → s.outputs = u.outputs → transact tr s = .next t → transact tr u = .next v →
    t.outputs = v.outputs ∧ t.status = v.status ∧ t.obuf = v.obuf

/-- A tag the hardware expects for a decrypted message never leaves it: in an operation that has decrypted, no command
that writes a tag is carried out (10_state.md section 4). -/
def Obligations.ExpectedTagIsNeverWritten : Prop :=
  ∀ (i : Instr) (s t : State),
    i.row = .final16 ∨ i.row = .final32 ∨ i.row = .macfinal16 ∨ i.row = .macfinal32 →
    s.status.dir = .dec → exec i s = .next t → t.obuf = s.obuf ∧ t.status.fault = true

/-- A command of length 0 in a PHASE and DIR it does not change is a no-op but for its completion code
(41_duplex_engine.md section 1). -/
def Obligations.EmptyDataCommandIsANoOp : Prop :=
  ∀ (i : Instr) (s : State), i.row = .ad ∨ i.row = .enc ∨ i.row = .dec → i.len = 0 → s.status.fault = false →
    mayFollow i s.status → inRange i s → counterFits i s →
    phaseAfter i s.status.phase = s.status.phase → dirAfter i s.status.dir = s.status.dir →
    (i.row = .dec → s.status.obufLock = true) →
    exec i s = .next { s with outputs := s.outputs ++ [.completion .ok] }
end

