-- ==== Sys2Proof/Laws/Bytes.lean ====
section
/-! SUPPORT. Packing bytes into blocks and reading them back, and the algebra of XOR on lanes and 64-byte blocks. -/

namespace Sys2Proof

theorem packBytes_lt (l : List Byte) : packBytes l < 256 ^ l.length := by
  induction l with
  | nil => simp [packBytes]
  | cons b l ih =>
    have hb := b.isLt
    simp only [packBytes, List.length_cons, Nat.pow_succ]
    omega

/-- Byte `j` of the packed number is byte `j` of the string, 0 beyond its end. -/
theorem packBytes_div (l : List Byte) (j : Nat) : packBytes l / 256 ^ j % 256 = (l.getD j 0).toNat := by
  induction l generalizing j with
  | nil => simp [packBytes]
  | cons b l ih =>
    have hb := b.isLt
    cases j with
    | zero =>
      simp only [packBytes, Nat.pow_zero, Nat.div_one, List.getD_cons_zero]
      omega
    | succ j =>
      rw [List.getD_cons_succ, ← ih j, packBytes, Nat.pow_succ, Nat.mul_comm (256 ^ j), ← Nat.div_div_eq_div_mul]
      congr 2
      omega

theorem Block.byte_toNat (b : Block) (j : Nat) : (Block.byte b j).toNat = b.toNat / 256 ^ j % 256 := by
  simp only [Block.byte, BitVec.extractLsb'_toNat, Nat.shiftRight_eq_div_pow, Nat.pow_mul]

/-- Byte `j` of a packed block is byte `j` of the string, 0 beyond its end. -/
theorem Block.byte_ofBytes (l : List Byte) {j : Nat} (hj : j < 16) : Block.byte (Block.ofBytes l) j = l.getD j 0 := by
  apply BitVec.eq_of_toNat_eq
  rw [Block.byte_toNat, Block.ofBytes, BitVec.toNat_ofNat, ← packBytes_div l j]
  have h : (2 : Nat) ^ 128 = 256 ^ j * 256 ^ (16 - j) := by
    rw [← Nat.pow_add, show j + (16 - j) = 16 by omega]
    norm_num
  rw [h, Nat.mod_mul_right_div_self]
  have h2 : (256 : Nat) ∣ 256 ^ (16 - j) := by
    obtain ⟨k, hk⟩ : ∃ k, 16 - j = k + 1 := ⟨15 - j, by omega⟩
    rw [hk, Nat.pow_succ]
    exact Nat.dvd_mul_left _ _
  exact Nat.mod_mod_of_dvd _ h2

/-- A block is the bytes it holds. -/
theorem Block.ext_byte {a b : Block} (h : ∀ j, j < 16 → Block.byte a j = Block.byte b j) : a = b := by
  apply BitVec.eq_of_getLsbD_eq
  intro i hi
  have := congrArg (fun v : Byte => v.getLsbD (i % 8)) (h (i / 8) (by omega))
  simp only [Block.byte, BitVec.getLsbD_extractLsb'] at this
  have e : 8 * (i / 8) + i % 8 = i := by omega
  simp only [e] at this
  simpa [show i % 8 < 8 by omega] using this

theorem Block.length_bytes (b : Block) : (Block.bytes b).length = 16 := by simp [Block.bytes]

theorem Block.getD_bytes (b : Block) (j : Nat) : (Block.bytes b).getD j 0 = if j < 16 then Block.byte b j else 0 := by
  unfold Block.bytes
  split <;> simp_all [List.getD_eq_getElem?_getD]

theorem Block.ofBytes_bytes (b : Block) : Block.ofBytes (Block.bytes b) = b :=
  Block.ext_byte fun j hj => by rw [Block.byte_ofBytes _ hj, Block.getD_bytes, if_pos hj]

/-- Only the first sixteen bytes count, a missing one as 0. -/
theorem Block.ofBytes_congr {l l' : List Byte} (h : ∀ j, j < 16 → l.getD j 0 = l'.getD j 0) :
    Block.ofBytes l = Block.ofBytes l' :=
  Block.ext_byte fun j hj => by rw [Block.byte_ofBytes _ hj, Block.byte_ofBytes _ hj, h j hj]

theorem Block.byte_ofFn (f : Nat → Byte) {j : Nat} (hj : j < 16) : Block.byte (Block.ofFn f) j = f j := by
  rw [Block.ofFn, Block.byte_ofBytes _ hj]
  simp [List.getD_eq_getElem?_getD, hj]

theorem Block.bytes_ofBytes {l : List Byte} (h : l.length = 16) : Block.bytes (Block.ofBytes l) = l := by
  apply List.ext_getElem
  · rw [Block.length_bytes, h]
  · intro k h1 h2
    have hk : k < 16 := by omega
    have := Block.getD_bytes (Block.ofBytes l) k
    rw [if_pos hk, Block.byte_ofBytes _ hk, List.getD_eq_getElem _ _ h1, List.getD_eq_getElem _ _ h2] at this
    exact this

theorem Block.byte_xor (a b : Block) (j : Nat) : Block.byte (a ^^^ b) j = Block.byte a j ^^^ Block.byte b j := by
  apply BitVec.eq_of_getLsbD_eq
  intro i _
  simp only [Block.byte, BitVec.getLsbD_extractLsb', BitVec.getLsbD_xor]
  cases decide (i < 8) <;> simp

theorem getD_drop_zero (l : List Byte) (n j : Nat) : (l.drop n).getD j 0 = l.getD (n + j) 0 := by
  simp [List.getD_eq_getElem?_getD]

theorem Lane.length_bytes (l : Lane) : (Lane.bytes l).length = 32 := by simp [Lane.bytes, Block.length_bytes]

theorem Chunk.length_bytes (c : Chunk) : (Chunk.bytes c).length = 64 := by simp [Chunk.bytes, Lane.length_bytes]

theorem Chunk.getD_bytes (c : Chunk) (j : Nat) : (Chunk.bytes c).getD j 0 = Chunk.byte c j := by
  have e : ∀ (l l' : List Byte) (n : Nat), l.length = n →
      (l ++ l').getD j 0 = if j < n then l.getD j 0 else l'.getD (j - n) 0 := by
    intro l l' n h
    subst h
    split
    · rw [List.getD_append _ _ _ _ ‹_›]
    · rw [List.getD_append_right _ _ _ _ (by omega)]
  unfold Chunk.bytes Chunk.byte
  rw [e _ _ 32 (Lane.length_bytes _)]
  unfold Lane.bytes
  split
  · rw [e _ _ 16 (Block.length_bytes _), Block.getD_bytes, Block.getD_bytes]
    split
    · rfl
    · rw [if_pos (by omega)]
  · rw [if_neg (by omega)]
    by_cases h48 : j < 48
    · rw [List.getD_append _ _ _ _ (by rw [Block.length_bytes]; omega), Block.getD_bytes, if_pos (by omega),
        if_pos h48]
    · rw [List.getD_append_right _ _ _ _ (by rw [Block.length_bytes]; omega), Block.getD_bytes, Block.length_bytes,
        if_neg h48]
      split
      · rw [if_pos (by omega)]
        congr 1
      · rw [if_neg (by omega)]

theorem Chunk.byte_ofBytes (l : List Byte) {j : Nat} (hj : j < 64) : Chunk.byte (Chunk.ofBytes l) j = l.getD j 0 := by
  unfold Chunk.byte Chunk.ofBytes Lane.ofBytes
  split
  · rw [Block.byte_ofBytes _ (by omega)]
  · split
    · rw [Block.byte_ofBytes _ (by omega), getD_drop_zero]
      congr 1
      omega
    · split
      · rw [Block.byte_ofBytes _ (by omega), getD_drop_zero]
        congr 1
        omega
      · rw [Block.byte_ofBytes _ (by omega), List.drop_drop, getD_drop_zero]
        congr 1
        omega

/-- A 64-byte block is the bytes it holds. -/
theorem Chunk.ext_byte {a b : Chunk} (h : ∀ j, j < 64 → Chunk.byte a j = Chunk.byte b j) : a = b := by
  have h1 : a.m0.inst0 = b.m0.inst0 := Block.ext_byte fun j hj => by
    have := h j (by omega)
    simpa [Chunk.byte, hj] using this
  have h2 : a.m0.inst1 = b.m0.inst1 := Block.ext_byte fun j hj => by
    have := h (16 + j) (by omega)
    simpa [Chunk.byte, show 16 + j < 32 by omega] using this
  have h3 : a.m1.inst0 = b.m1.inst0 := Block.ext_byte fun j hj => by
    have := h (32 + j) (by omega)
    simpa [Chunk.byte, show 32 + j < 48 by omega, show ¬ 32 + j < 16 by omega, show 32 + j - 32 = j by omega]
      using this
  have h4 : a.m1.inst1 = b.m1.inst1 := Block.ext_byte fun j hj => by
    have := h (48 + j) (by omega)
    simpa [Chunk.byte, show 48 + j < 64 by omega, show ¬ 48 + j < 16 by omega, show ¬ 48 + j < 32 by omega,
      show 48 + j - 48 = j by omega] using this
  obtain ⟨⟨a0, a1⟩, ⟨a2, a3⟩⟩ := a
  obtain ⟨⟨b0, b1⟩, ⟨b2, b3⟩⟩ := b
  simp_all

theorem Chunk.ofBytes_congr {l l' : List Byte} (h : ∀ j, j < 64 → l.getD j 0 = l'.getD j 0) :
    Chunk.ofBytes l = Chunk.ofBytes l' :=
  Chunk.ext_byte fun j hj => by rw [Chunk.byte_ofBytes _ hj, Chunk.byte_ofBytes _ hj, h j hj]

theorem Chunk.ofBytes_bytes (c : Chunk) : Chunk.ofBytes (Chunk.bytes c) = c :=
  Chunk.ext_byte fun j hj => by rw [Chunk.byte_ofBytes _ hj, Chunk.getD_bytes]

theorem Chunk.bytes_ofBytes {l : List Byte} (h : l.length = 64) : Chunk.bytes (Chunk.ofBytes l) = l := by
  apply List.ext_getElem
  · rw [Chunk.length_bytes, h]
  · intro k h1 h2
    have := Chunk.getD_bytes (Chunk.ofBytes l) k
    rw [Chunk.byte_ofBytes _ (by omega), List.getD_eq_getElem _ _ h1, List.getD_eq_getElem _ _ h2] at this
    exact this

theorem getD_append_zeros (l : List Byte) (n j : Nat) : (l ++ zeros n).getD j 0 = l.getD j 0 := by
  by_cases h : j < l.length
  · rw [List.getD_append _ _ _ _ h]
  · rw [List.getD_append_right _ _ _ _ (by omega), List.getD_eq_default l _ (by omega), zeros]
    simp [List.getD_eq_getElem?_getD, List.getElem?_replicate]
    split <;> rfl

/-- Zero padding is what missing bytes read as. -/
theorem Chunk.ofBytes_append_zeros (l : List Byte) (n : Nat) : Chunk.ofBytes (l ++ zeros n) = Chunk.ofBytes l :=
  Chunk.ofBytes_congr fun j _ => getD_append_zeros l n j

theorem Chunk.byte_xor (a b : Chunk) (j : Nat) : Chunk.byte (Chunk.xor a b) j = Chunk.byte a j ^^^ Chunk.byte b j := by
  unfold Chunk.byte Chunk.xor Lane.xor
  split
  · exact Block.byte_xor _ _ _
  · split
    · exact Block.byte_xor _ _ _
    · split
      · exact Block.byte_xor _ _ _
      · split
        · exact Block.byte_xor _ _ _
        · rfl

theorem Lane.xor_cancel (a b : Lane) : Lane.xor (Lane.xor a b) b = a := by
  obtain ⟨a0, a1⟩ := a
  simp [Lane.xor]

/-- XOR with the same block twice gives the block back. -/
theorem Chunk.xor_cancel (a b : Chunk) : Chunk.xor (Chunk.xor a b) b = a := by
  obtain ⟨a0, a1⟩ := a
  simp [Chunk.xor, Lane.xor_cancel]

theorem length_le64 (x : Nat) : (le64 x).length = 8 := by simp [le64]

/-- Byte `j` of a string given by a function. -/
theorem getD_map_range (n : Nat) (f : Nat → Byte) (j : Nat) :
    ((List.range n).map f).getD j 0 = if j < n then f j else 0 := by
  split <;> simp_all [List.getD_eq_getElem?_getD]

/-- Two strings of one length with the same bytes are the same. -/
theorem eq_of_getD {l l' : List Byte} (hl : l.length = l'.length) (h : ∀ j, j < l.length → l.getD j 0 = l'.getD j 0) :
    l = l' := by
  apply List.ext_getElem hl
  intro k h1 h2
  have := h k h1
  rwa [List.getD_eq_getElem _ _ h1, List.getD_eq_getElem _ _ h2] at this

/-- The OR over a string is zero exactly when every byte is. -/
theorem foldl_or_eq_zero (l : List Byte) (d : Byte) :
    l.foldl (fun d x => d ||| x) d = 0 ↔ d = 0 ∧ ∀ x ∈ l, x = 0 := by
  induction l generalizing d with
  | nil => simp
  | cons x l ih =>
    rw [List.foldl_cons, ih]
    simp [and_assoc]

/-- Byte `j` of a lane: instance 0 first. -/
theorem Lane.getD_bytes (l : Lane) (j : Nat) :
    (Lane.bytes l).getD j 0 = if j < 16 then Block.byte l.inst0 j else if j < 32 then Block.byte l.inst1 (j - 16) else 0 := by
  unfold Lane.bytes
  split
  · rw [List.getD_append _ _ _ _ (by simpa [Block.length_bytes]), Block.getD_bytes, if_pos ‹_›]
  · rw [List.getD_append_right _ _ _ _ (by simp [Block.length_bytes]; omega), Block.getD_bytes, Block.length_bytes]
    split
    · rw [if_pos (by omega)]
    · rw [if_neg (by omega)]

end Sys2Proof
end

