-- ==== Sys2Proof/Laws/Decode.lean ====
section
/-! SUPPORT. The fields of a packed word, and a word rebuilt from its fields. -/

namespace Sys2Proof

theorem opcodeField_packWord (op : BitVec 8) (src dst len : BitVec 16) : opcodeField (packWord op src dst len) = op := by
  apply BitVec.eq_of_getLsbD_eq
  intro i hi
  simp only [opcodeField, packWord, BitVec.getLsbD_extractLsb', BitVec.getLsbD_append]
  simp [hi]

theorem rsvField_packWord (op : BitVec 8) (src dst len : BitVec 16) : rsvField (packWord op src dst len) = 0 := by
  apply BitVec.eq_of_getLsbD_eq
  intro i hi
  simp only [rsvField, packWord, BitVec.getLsbD_extractLsb', BitVec.getLsbD_append]
  simp [hi]

theorem srcField_packWord (op : BitVec 8) (src dst len : BitVec 16) : srcField (packWord op src dst len) = src := by
  apply BitVec.eq_of_getLsbD_eq
  intro i hi
  simp only [srcField, packWord, BitVec.getLsbD_extractLsb', BitVec.getLsbD_append]
  rw [if_neg (by omega), if_neg (by omega), if_pos (by omega)]
  simp [hi, show 16 + i - 8 - 8 = i by omega]

theorem dstField_packWord (op : BitVec 8) (src dst len : BitVec 16) : dstField (packWord op src dst len) = dst := by
  apply BitVec.eq_of_getLsbD_eq
  intro i hi
  simp only [dstField, packWord, BitVec.getLsbD_extractLsb', BitVec.getLsbD_append]
  rw [if_neg (by omega), if_neg (by omega), if_neg (by omega), if_pos (by omega)]
  simp [hi, show 32 + i - 8 - 8 - 16 = i by omega]

theorem lenField_packWord (op : BitVec 8) (src dst len : BitVec 16) : lenField (packWord op src dst len) = len := by
  apply BitVec.eq_of_getLsbD_eq
  intro i hi
  simp only [lenField, packWord, BitVec.getLsbD_extractLsb', BitVec.getLsbD_append]
  rw [if_neg (by omega), if_neg (by omega), if_neg (by omega), if_neg (by omega)]
  simp [hi, show 48 + i - 8 - 8 - 16 - 16 = i by omega]

/-- A word whose reserved field is 0 is the word its fields pack. -/
theorem packWord_fields {w : BitVec 64} (h : rsvField w = 0) :
    packWord (opcodeField w) (srcField w) (dstField w) (lenField w) = w := by
  have h' : ∀ j, j < 8 → w.getLsbD (8 + j) = false := by
    intro j hj
    have := congrArg (fun v : BitVec 8 => v.getLsbD j) h
    simpa [rsvField, BitVec.getLsbD_extractLsb', hj] using this
  apply BitVec.eq_of_getLsbD_eq
  intro i hi
  simp only [packWord, opcodeField, srcField, dstField, lenField, BitVec.getLsbD_extractLsb', BitVec.getLsbD_append]
  split
  · simp [*]
  · split
    · have := h' (i - 8) (by omega)
      rw [show 8 + (i - 8) = i by omega] at this
      simp [this]
    · split
      · simp [show i - 8 - 8 < 16 by omega, show 16 + (i - 8 - 8) = i by omega]
      · split
        · simp [show i - 8 - 8 - 16 < 16 by omega, show 32 + (i - 8 - 8 - 16) = i by omega]
        · simp [show i - 8 - 8 - 16 - 16 < 16 by omega, show 48 + (i - 8 - 8 - 16 - 16) = i by omega]

theorem rowOfOpcode_opcode (row : Row) : rowOfOpcode row.opcode = some row := by cases row <;> rfl

theorem rowOfOpcode_all : ∀ op : BitVec 8, (rowOfOpcode op).all (fun row => decide (op = row.opcode)) = true := by
  decide +kernel

theorem rowOfOpcode_eq_some {op : BitVec 8} {row : Row} (h : rowOfOpcode op = some row) : op = row.opcode := by
  have := rowOfOpcode_all op
  simpa [h] using this

/-- Everything a successful decoding says: the row's opcode, a zero reserved field, and the row's operands. -/
theorem decode_eq_ok {w : BitVec 64} {i : Instr} (h : decode w = .ok i) :
    ∃ row, opcodeField w = row.opcode ∧ rsvField w = 0 ∧ decodeRow w row = .ok i := by
  unfold decode at h
  split at h
  · simp at h
  · rename_i row hrow
    split at h
    · exact ⟨row, rowOfOpcode_eq_some hrow, ‹_›, h⟩
    · simp at h

/-- The word a row packs is decoded by that row alone. -/
theorem decode_packWord (row : Row) (src dst len : BitVec 16) :
    decode (packWord row.opcode src dst len) = decodeRow (packWord row.opcode src dst len) row := by
  unfold decode
  rw [opcodeField_packWord, rowOfOpcode_opcode]
  simp [rsvField_packWord]

theorem decodeSrcLen_eq_ok {w : BitVec 64} {mk : Nat → Nat → Instr} {i : Instr} (h : decodeSrcLen w mk = .ok i) :
    dstField w = 0 ∧ i = mk (srcField w).toNat (lenField w).toNat := by
  unfold decodeSrcLen at h
  split at h
  · injection h with h
    exact ⟨‹_›, h.symm⟩
  · cases h

theorem decodeDstLen_eq_ok {w : BitVec 64} {mk : Nat → Nat → Instr} {i : Instr} (h : decodeDstLen w mk = .ok i) :
    srcField w = 0 ∧ i = mk (dstField w).toNat (lenField w).toNat := by
  unfold decodeDstLen at h
  split at h
  · injection h with h
    exact ⟨‹_›, h.symm⟩
  · cases h

/-- The operands a row decodes are the word's fields. -/
theorem decodeRow_eq_ok {w : BitVec 64} {row : Row} {i : Instr} (h : decodeRow w row = .ok i) :
    i.row = row ∧ i.src = (srcField w).toNat ∧ i.dst = (dstField w).toNat ∧ i.len = (lenField w).toNat := by
  cases row
  case enc => injection h with h; subst h; exact ⟨rfl, rfl, rfl, rfl⟩
  case dec => injection h with h; subst h; exact ⟨rfl, rfl, rfl, rfl⟩
  case zeroize =>
    unfold decodeRow decodeNoField at h
    dsimp only at h
    split at h
    · rename_i e
      injection h with h
      subst h
      simp [Instr.row, Instr.src, Instr.dst, Instr.len, e]
    · cases h
  case final16 => obtain ⟨e, rfl⟩ := decodeDstLen_eq_ok h; simp [Instr.row, Instr.src, Instr.dst, Instr.len, e]
  case final32 => obtain ⟨e, rfl⟩ := decodeDstLen_eq_ok h; simp [Instr.row, Instr.src, Instr.dst, Instr.len, e]
  case macfinal16 => obtain ⟨e, rfl⟩ := decodeDstLen_eq_ok h; simp [Instr.row, Instr.src, Instr.dst, Instr.len, e]
  case macfinal32 => obtain ⟨e, rfl⟩ := decodeDstLen_eq_ok h; simp [Instr.row, Instr.src, Instr.dst, Instr.len, e]
  all_goals (obtain ⟨e, rfl⟩ := decodeSrcLen_eq_ok h; simp [Instr.row, Instr.src, Instr.dst, Instr.len, e])

end Sys2Proof
end

