-- ==== Sys2Proof/Laws/Memory.lean ====
section
/-! SUPPORT. The buffers: a read after a write, every operation keeps the canonical form and the bounds, and what
`readBytes` and `writeBytes` give byte by byte. -/

namespace Sys2Proof.Machine

theorem Memory.read_nil (a : Nat) : Memory.read [] a = 0 := rfl

theorem Memory.wfFrom_mono {lo lo' : Nat} (h : lo ≤ lo') {m : Memory} (hm : Memory.wfFrom lo' m = true) :
    Memory.wfFrom lo m = true := by
  cases m with
  | nil => rfl
  | cons c m =>
    obtain ⟨a, b⟩ := c
    simp only [Memory.wfFrom, Bool.and_eq_true, decide_eq_true_eq] at hm ⊢
    exact ⟨⟨by omega, hm.1.2⟩, hm.2⟩

/-- Below the lowest listed address every byte is unlisted. -/
theorem Memory.read_below {lo a : Nat} {m : Memory} (hm : Memory.wfFrom lo m = true) (h : a < lo) :
    Memory.read m a = 0 := by
  induction m generalizing lo with
  | nil => rfl
  | cons c m ih =>
    obtain ⟨a', b'⟩ := c
    simp only [Memory.wfFrom, Bool.and_eq_true, decide_eq_true_eq] at hm
    rw [Memory.read, if_neg (by omega)]
    exact ih hm.2 (by omega)

theorem Memory.wfFrom_write {lo : Nat} {m : Memory} (hm : Memory.wfFrom lo m = true) {a : Nat} (h : lo ≤ a) (b : Byte) :
    Memory.wfFrom lo (Memory.write m a b) = true := by
  induction m generalizing lo with
  | nil =>
    unfold Memory.write
    split
    · rfl
    · simp [Memory.wfFrom, *]
  | cons c m ih =>
    obtain ⟨a', b'⟩ := c
    have hm' := hm
    simp only [Memory.wfFrom, Bool.and_eq_true, decide_eq_true_eq] at hm
    unfold Memory.write
    split
    · split
      · exact hm'
      · simp only [Memory.wfFrom, Bool.and_eq_true, decide_eq_true_eq]
        exact ⟨⟨h, ‹_›⟩, ⟨by omega, hm.1.2⟩, hm.2⟩
    · split
      · split
        · exact Memory.wfFrom_mono (by omega) hm.2
        · simp only [Memory.wfFrom, Bool.and_eq_true, decide_eq_true_eq]
          subst_vars
          exact ⟨⟨h, ‹_›⟩, hm.2⟩
      · simp only [Memory.wfFrom, Bool.and_eq_true, decide_eq_true_eq]
        exact ⟨⟨hm.1.1, hm.1.2⟩, ih hm.2 (by omega)⟩

/-- A write keeps the canonical form. -/
theorem Memory.wf_write {m : Memory} (hm : Memory.wf m = true) (a : Nat) (b : Byte) :
    Memory.wf (Memory.write m a b) = true :=
  Memory.wfFrom_write hm (Nat.zero_le _) b

theorem Memory.wf_writeBytes {m : Memory} (hm : Memory.wf m = true) (a : Nat) (l : List Byte) :
    Memory.wf (Memory.writeBytes m a l) = true := by
  induction l generalizing m a with
  | nil => exact hm
  | cons b l ih => exact ih (Memory.wf_write hm a b) (a + 1)

theorem Memory.wf_clear : Memory.wf Memory.clear = true := rfl

/-- A read after a write: the byte written, and every other byte as before. -/
theorem Memory.read_writeFrom {lo : Nat} {m : Memory} (hm : Memory.wfFrom lo m = true) (a : Nat) (b : Byte) (x : Nat) :
    Memory.read (Memory.write m a b) x = if x = a then b else Memory.read m x := by
  induction m generalizing lo with
  | nil =>
    unfold Memory.write
    split <;> split <;> simp_all [Memory.read, Memory.unlisted]
  | cons c m ih =>
    obtain ⟨a', b'⟩ := c
    simp only [Memory.wfFrom, Bool.and_eq_true, decide_eq_true_eq] at hm
    have hlow : ∀ y, y ≤ a' → Memory.read m y = 0 := fun y hy => Memory.read_below hm.2 (by omega)
    unfold Memory.write
    by_cases h1 : a < a'
    · rw [if_pos h1]
      by_cases hb : b = Memory.unlisted
      · rw [if_pos hb]
        by_cases hx : x = a
        · rw [if_pos hx, Memory.read, if_neg (by omega), hlow x (by omega), hb]
          rfl
        · rw [if_neg hx]
      · rw [if_neg hb, Memory.read]
    · rw [if_neg h1]
      by_cases h2 : a = a'
      · rw [if_pos h2]
        by_cases hb : b = Memory.unlisted
        · rw [if_pos hb]
          by_cases hx : x = a
          · rw [if_pos hx, hlow x (by omega), hb]
            rfl
          · rw [if_neg hx, Memory.read, if_neg (by omega)]
        · rw [if_neg hb, Memory.read, Memory.read]
          by_cases hx : x = a
          · rw [if_pos hx, if_pos hx]
          · rw [if_neg hx, if_neg hx, if_neg (by omega)]
      · rw [if_neg h2, Memory.read, ih hm.2, Memory.read]
        by_cases hx : x = a'
        · rw [if_pos hx, if_pos hx, if_neg (by omega)]
        · rw [if_neg hx, if_neg hx]

theorem Memory.read_write {m : Memory} (hm : Memory.wf m = true) (a : Nat) (b : Byte) (x : Nat) :
    Memory.read (Memory.write m a b) x = if x = a then b else Memory.read m x :=
  Memory.read_writeFrom hm a b x

/-- What `writeBytes` leaves: byte `k` of the string at `a + k`, every other byte as before. -/
theorem Memory.read_writeBytes {m : Memory} (hm : Memory.wf m = true) (a : Nat) (l : List Byte) (x : Nat) :
    Memory.read (Memory.writeBytes m a l) x =
      if a ≤ x ∧ x < a + l.length then l.getD (x - a) 0 else Memory.read m x := by
  induction l generalizing m a with
  | nil =>
    rw [Memory.writeBytes, if_neg]
    simp only [List.length_nil]
    omega
  | cons b l ih =>
    rw [Memory.writeBytes, ih (Memory.wf_write hm a b), Memory.read_write hm]
    simp only [List.length_cons]
    by_cases h1 : x = a
    · subst h1
      rw [if_neg (by omega), if_pos rfl, if_pos (by omega)]
      simp
    · by_cases h2 : a + 1 ≤ x ∧ x < a + 1 + l.length
      · rw [if_pos h2, if_pos (by omega)]
        obtain ⟨k, rfl⟩ : ∃ k, x = a + 1 + k := ⟨x - (a + 1), by omega⟩
        have e1 : a + 1 + k - (a + 1) = k := by omega
        have e2 : a + 1 + k - a = k + 1 := by omega
        rw [e1, e2, List.getD_cons_succ]
      · rw [if_neg h2, if_neg h1, if_neg (by omega)]

theorem Memory.writeBytes_append (m : Memory) (a : Nat) (l l' : List Byte) :
    Memory.writeBytes m a (l ++ l') = Memory.writeBytes (Memory.writeBytes m a l) (a + l.length) l' := by
  induction l generalizing m a with
  | nil => rfl
  | cons b l ih =>
    rw [List.cons_append, Memory.writeBytes, ih, Memory.writeBytes, List.length_cons]
    congr 1
    omega

theorem Memory.length_readBytes (m : Memory) (a n : Nat) : (Memory.readBytes m a n).length = n := by
  simp [Memory.readBytes]

theorem Memory.getD_readBytes (m : Memory) (a n k : Nat) :
    (Memory.readBytes m a n).getD k 0 = if k < n then Memory.read m (a + k) else 0 := by
  unfold Memory.readBytes
  split <;> simp_all [List.getD_eq_getElem?_getD]

theorem Memory.readBytes_add (m : Memory) (a n k : Nat) :
    Memory.readBytes m a (n + k) = Memory.readBytes m a n ++ Memory.readBytes m (a + n) k := by
  unfold Memory.readBytes
  rw [List.range_add, List.map_append, List.map_map]
  congr 1
  apply List.map_congr_left
  intro j _
  simp [Nat.add_assoc]

/-- Strings read at two places are equal when the bytes are. -/
theorem Memory.readBytes_congr {m m' : Memory} {a a' n : Nat}
    (h : ∀ k, k < n → Memory.read m (a + k) = Memory.read m' (a' + k)) :
    Memory.readBytes m a n = Memory.readBytes m' a' n := by
  unfold Memory.readBytes
  apply List.map_congr_left
  intro k hk
  exact h k (List.mem_range.mp hk)

/-- Reading back what was written. -/
theorem Memory.readBytes_writeBytes {m : Memory} (hm : Memory.wf m = true) (a : Nat) (l : List Byte) :
    Memory.readBytes (Memory.writeBytes m a l) a l.length = l := by
  apply List.ext_getElem
  · simp [Memory.length_readBytes]
  · intro k h1 h2
    simp only [Memory.readBytes, List.getElem_map, List.getElem_range]
    rw [Memory.read_writeBytes hm, if_pos (by omega), Nat.add_sub_cancel_left, List.getD_eq_getElem _ _ h2]

theorem Memory.within_write {n : Nat} {m : Memory} (hm : Memory.within n m = true) {a : Nat} (h : a < n) (b : Byte) :
    Memory.within n (Memory.write m a b) = true := by
  induction m with
  | nil =>
    unfold Memory.write
    split <;> simp [Memory.within, h]
  | cons c m ih =>
    obtain ⟨a', b'⟩ := c
    simp only [Memory.within, List.all_cons, Bool.and_eq_true, decide_eq_true_eq] at hm ih ⊢
    have ih := ih hm.2
    unfold Memory.write
    split
    · split
      · exact List.all_cons.trans (by simp only [hm.1, hm.2, decide_true, Bool.and_self])
      · simp only [List.all_cons, h, hm.1, hm.2, decide_true, Bool.and_self]
    · split
      · split
        · exact hm.2
        · simp only [List.all_cons, h, hm.2, decide_true, Bool.and_self]
      · simp only [List.all_cons, hm.1, ih, decide_true, Bool.and_self]

theorem Memory.within_writeBytes {n : Nat} {m : Memory} (hm : Memory.within n m = true) {a : Nat} {l : List Byte}
    (h : a + l.length ≤ n) : Memory.within n (Memory.writeBytes m a l) = true := by
  induction l generalizing m a with
  | nil => exact hm
  | cons b l ih =>
    simp only [List.length_cons] at h
    exact ih (Memory.within_write hm (by omega) b) (by omega)

theorem Memory.within_clear (n : Nat) : Memory.within n Memory.clear = true := rfl

end Sys2Proof.Machine
end

