-- ==== Sys2Proof/Laws/Duplex.lean ====
section
/-! SUPPORT. The loops over 64-byte blocks: what they leave unchanged, how they compose, and the partial block in
both directions. -/

namespace Sys2Proof.Machine

/-- DecBlock undoes EncBlock and absorbs the same plaintext (R146). -/
theorem decBlock_keystream (s : Lanes) (p : Chunk) :
    decBlock s (Chunk.xor p (keystream s)) = (absorb s p, p) := by
  simp [decBlock, Chunk.xor_cancel]

theorem length_take_bytes (c : Chunk) {r : Nat} (h : r ≤ 64) : (c.bytes.take r).length = r := by
  rw [List.length_take, Chunk.length_bytes]
  omega

theorem getD_take (l : List Byte) (r j : Nat) : (l.take r).getD j 0 = if j < r then l.getD j 0 else 0 := by
  simp only [List.getD_eq_getElem?_getD, List.getElem?_take]
  split <;> rfl

/-- `absorbBlocks` writes the lanes alone. -/
theorem absorbBlocks_frame (q src : Nat) (s : State) :
    absorbBlocks q src s = { s with lanes := (absorbBlocks q src s).lanes } := by
  induction q generalizing src s with
  | zero => rfl
  | succ q ih =>
    rw [absorbBlocks]
    generalize hu : ({ s with lanes := _ } : State) = u
    have h := ih (src + 64) u
    rw [h]
    subst hu
    rfl

/-- The absorbed blocks, in order. -/
theorem absorbBlocks_lanes (q src : Nat) (s : State) :
    (absorbBlocks q src s).lanes =
      ((List.range q).map fun i => Chunk.ofBytes (Memory.readBytes s.ibuf (src + 64 * i) 64)).foldl absorb s.lanes := by
  induction q generalizing src s with
  | zero => rfl
  | succ q ih =>
    have h : (List.range (q + 1)).map (fun i => Chunk.ofBytes (Memory.readBytes s.ibuf (src + 64 * i) 64)) =
        Chunk.ofBytes (Memory.readBytes s.ibuf src 64) ::
          (List.range q).map (fun i => Chunk.ofBytes (Memory.readBytes s.ibuf (src + 64 + 64 * i) 64)) := by
      rw [List.range_succ_eq_map, List.map_cons, List.map_map]
      refine congrArg (List.cons _) (List.map_congr_left fun i _ => ?_)
      simp only [Function.comp_apply, Nat.succ_eq_add_one, Nat.mul_add, Nat.mul_one]
      rw [Nat.add_assoc, Nat.add_comm 64]
    rw [absorbBlocks, ih, h, List.foldl_cons]

theorem absorbBlocks_add (q p src : Nat) (s : State) :
    absorbBlocks (q + p) src s = absorbBlocks p (src + 64 * q) (absorbBlocks q src s) := by
  induction q generalizing src s with
  | zero => simp [absorbBlocks]
  | succ q ih =>
    rw [show q + 1 + p = (q + p) + 1 by omega, absorbBlocks, ih, absorbBlocks]
    congr 1
    omega

/-- `cryptBlocks` writes the lanes and OBUF alone. -/
theorem cryptBlocks_frame (f : Lanes → Chunk → Lanes × Chunk) (q src dst : Nat) (s : State) :
    cryptBlocks f q src dst s =
      { s with lanes := (cryptBlocks f q src dst s).lanes, obuf := (cryptBlocks f q src dst s).obuf } := by
  induction q generalizing src dst s with
  | zero => rfl
  | succ q ih =>
    rw [cryptBlocks]
    generalize hu : ({ s with lanes := _, obuf := _ } : State) = u
    have h := ih (src + 64) (dst + 64) u
    rw [h]
    subst hu
    rfl

theorem cryptBlocks_add (f : Lanes → Chunk → Lanes × Chunk) (q p src dst : Nat) (s : State) :
    cryptBlocks f (q + p) src dst s = cryptBlocks f p (src + 64 * q) (dst + 64 * q) (cryptBlocks f q src dst s) := by
  induction q generalizing src dst s with
  | zero => simp [cryptBlocks]
  | succ q ih =>
    rw [show q + 1 + p = (q + p) + 1 by omega, cryptBlocks, ih, cryptBlocks]
    congr 1 <;> omega

/-- `cryptBlocks` keeps OBUF in canonical form and writes only `dst .. dst + 64q`. -/
theorem cryptBlocks_obuf (f : Lanes → Chunk → Lanes × Chunk) (q src dst : Nat) (s : State)
    (hw : Memory.wf s.obuf = true) :
    Memory.wf (cryptBlocks f q src dst s).obuf = true ∧
      ∀ x, ¬(dst ≤ x ∧ x < dst + 64 * q) →
        Memory.read (cryptBlocks f q src dst s).obuf x = Memory.read s.obuf x := by
  induction q generalizing src dst s with
  | zero => exact ⟨hw, fun _ _ => rfl⟩
  | succ q ih =>
    rw [cryptBlocks]
    generalize f s.lanes (Chunk.ofBytes (Memory.readBytes s.ibuf src 64)) = r
    obtain ⟨h1, h2⟩ := ih (src + 64) (dst + 64)
      { s with lanes := r.1, obuf := Memory.writeBytes s.obuf dst r.2.bytes } (Memory.wf_writeBytes hw dst r.2.bytes)
    refine ⟨h1, fun x hx => ?_⟩
    have hl := Chunk.length_bytes r.2
    rw [h2 x (by omega), Memory.read_writeBytes hw, if_neg (by omega)]

theorem cryptBlocks_within (f : Lanes → Chunk → Lanes × Chunk) (q src dst n : Nat) (s : State)
    (hw : Memory.within n s.obuf = true) (h : dst + 64 * q ≤ n) :
    Memory.within n (cryptBlocks f q src dst s).obuf = true := by
  induction q generalizing src dst s with
  | zero => exact hw
  | succ q ih =>
    rw [cryptBlocks]
    generalize f s.lanes (Chunk.ofBytes (Memory.readBytes s.ibuf src 64)) = r
    have hl := Chunk.length_bytes r.2
    exact ih (src + 64) (dst + 64) { s with lanes := r.1, obuf := Memory.writeBytes s.obuf dst r.2.bytes }
      (Memory.within_writeBytes hw (by omega)) (by omega)

/-- `absorbLast` writes the lanes alone. -/
theorem absorbLast_frame (src len : Nat) (s : State) :
    absorbLast src len s = { s with lanes := (absorbLast src len s).lanes } := by
  unfold absorbLast
  dsimp only
  split <;> rfl

/-- `encryptLast` writes the lanes and OBUF alone. -/
theorem encryptLast_frame (src dst len : Nat) (s : State) :
    encryptLast src dst len s =
      { s with lanes := (encryptLast src dst len s).lanes, obuf := (encryptLast src dst len s).obuf } := by
  unfold encryptLast
  dsimp only
  split <;> rfl

/-- The partial block of a DEC never faults: its length is `LEN mod 64` and not 0 (R209). -/
theorem decryptLast_ok (src dst len : Nat) (s : State) :
    ∃ u, decryptLast src dst len s = .ok u ∧ u = { s with lanes := u.lanes, obuf := u.obuf } := by
  unfold decryptLast
  dsimp only
  split
  · rename_i h
    have hr : 0 < partialLen len ∧ partialLen len < 64 := ⟨h, Nat.mod_lt _ (by omega)⟩
    rw [decPartial, if_pos hr]
    exact ⟨_, rfl, rfl⟩
  · exact ⟨s, rfl, rfl⟩

theorem cryptBlocks_ibuf (f : Lanes → Chunk → Lanes × Chunk) (q src dst : Nat) (s : State) :
    (cryptBlocks f q src dst s).ibuf = s.ibuf := by
  rw [cryptBlocks_frame]

/-- One more block at the end. -/
theorem cryptBlocks_succ (f : Lanes → Chunk → Lanes × Chunk) (q src dst : Nat) (s : State) :
    let r := f (cryptBlocks f q src dst s).lanes (Chunk.ofBytes (Memory.readBytes s.ibuf (src + 64 * q) 64))
    (cryptBlocks f (q + 1) src dst s).lanes = r.1 ∧
    (cryptBlocks f (q + 1) src dst s).obuf =
      Memory.writeBytes (cryptBlocks f q src dst s).obuf (dst + 64 * q) r.2.bytes := by
  rw [cryptBlocks_add f q 1]
  simp only [cryptBlocks, cryptBlocks_ibuf]
  exact ⟨trivial, trivial⟩

/-- What the blocks leave in OBUF when each output byte is the input byte XORed with the keystream of the lanes before
its block: true of both directions. -/
theorem read_cryptBlocks (f : Lanes → Chunk → Lanes × Chunk) (hf : ∀ l c, (f l c).2 = Chunk.xor c (keystream l))
    (q src dst : Nat) (s : State) (hw : Memory.wf s.obuf = true) (a : Nat) :
    Memory.read (cryptBlocks f q src dst s).obuf a =
      if dst ≤ a ∧ a < dst + 64 * q then
        Memory.read s.ibuf (src + (a - dst)) ^^^
          Chunk.byte (keystream (cryptBlocks f ((a - dst) / 64) src dst s).lanes) ((a - dst) % 64)
      else Memory.read s.obuf a := by
  induction q with
  | zero =>
    rw [if_neg (by omega)]
    rfl
  | succ q ih =>
    rw [(cryptBlocks_succ f q src dst s).2, Memory.read_writeBytes (cryptBlocks_obuf f q src dst s hw).1,
      Chunk.length_bytes]
    by_cases h : dst + 64 * q ≤ a ∧ a < dst + 64 * q + 64
    · rw [if_pos h, if_pos (by omega), Chunk.getD_bytes, hf, Chunk.byte_xor, Chunk.byte_ofBytes _ (by omega),
        Memory.getD_readBytes, if_pos (by omega), show (a - dst) / 64 = q by omega,
        show (a - dst) % 64 = a - (dst + 64 * q) by omega,
        show src + 64 * q + (a - (dst + 64 * q)) = src + (a - dst) by omega]
    · rw [if_neg h, ih]
      by_cases h' : dst ≤ a ∧ a < dst + 64 * q
      · rw [if_pos h', if_pos (by omega)]
      · rw [if_neg h', if_neg (by omega)]

/-- The lanes and OBUF after the blocks depend on the lanes, OBUF and IBUF alone. -/
theorem cryptBlocks_congr (f : Lanes → Chunk → Lanes × Chunk) (q src dst : Nat) {s u : State}
    (h1 : s.lanes = u.lanes) (h2 : s.obuf = u.obuf) (h3 : s.ibuf = u.ibuf) :
    (cryptBlocks f q src dst s).lanes = (cryptBlocks f q src dst u).lanes ∧
    (cryptBlocks f q src dst s).obuf = (cryptBlocks f q src dst u).obuf := by
  induction q generalizing src dst s u with
  | zero => exact ⟨h1, h2⟩
  | succ q ih =>
    rw [cryptBlocks, cryptBlocks, h1, h2, h3]
    exact ih _ _ rfl rfl rfl

/-- The lanes after the blocks depend on the lanes and IBUF alone, never on OBUF. -/
theorem cryptBlocks_lanes_congr (f : Lanes → Chunk → Lanes × Chunk) (q src dst : Nat) {s u : State}
    (h1 : s.lanes = u.lanes) (h3 : s.ibuf = u.ibuf) :
    (cryptBlocks f q src dst s).lanes = (cryptBlocks f q src dst u).lanes := by
  induction q generalizing src dst s u with
  | zero => exact h1
  | succ q ih =>
    rw [cryptBlocks, cryptBlocks, h1, h3]
    exact ih _ _ rfl rfl

/-- The last block of an ENC. -/
theorem encryptLast_eq (src dst len : Nat) (s : State) :
    encryptLast src dst len s =
      if len % 64 > 0 then
        let w := Chunk.ofBytes (Memory.readBytes s.ibuf (src + 64 * (len / 64)) (len % 64))
        { s with
          lanes := absorb s.lanes w
          obuf := Memory.writeBytes s.obuf (dst + 64 * (len / 64))
            ((Chunk.xor w (keystream s.lanes)).bytes.take (len % 64)) }
      else s := by
  unfold encryptLast encPartial fullBlocks partialLen
  simp only [Chunk.ofBytes_append_zeros]

/-- The last block of a DEC. -/
theorem decryptLast_eq (src dst len : Nat) (s : State) :
    decryptLast src dst len s =
      if len % 64 > 0 then
        let w := Chunk.ofBytes (Memory.readBytes s.ibuf (src + 64 * (len / 64)) (len % 64))
        let p := (Chunk.xor w (keystream s.lanes)).bytes.take (len % 64)
        .ok { s with
          lanes := absorb s.lanes (Chunk.ofBytes p)
          obuf := Memory.writeBytes s.obuf (dst + 64 * (len / 64)) p }
      else .ok s := by
  unfold decryptLast decPartial fullBlocks partialLen
  simp only [Chunk.ofBytes_append_zeros]
  split
  · rename_i h
    rw [if_pos ⟨h, Nat.mod_lt _ (by omega)⟩]
  · rfl

/-- A command of `a + b` bytes, `a` a multiple of 64, has the full blocks of the two parts. -/
theorem cryptBlocks_split (f : Lanes → Chunk → Lanes × Chunk) (src dst : Nat) {a : Nat} (ha : a % 64 = 0) (b : Nat)
    (s : State) :
    cryptBlocks f (fullBlocks (a + b)) src dst s =
      cryptBlocks f (fullBlocks b) (src + a) (dst + a) (cryptBlocks f (fullBlocks a) src dst s) := by
  unfold fullBlocks
  rw [show (a + b) / 64 = a / 64 + b / 64 by omega, cryptBlocks_add, show 64 * (a / 64) = a by omega]

theorem absorbBlocks_split (src : Nat) {a : Nat} (ha : a % 64 = 0) (b : Nat) (s : State) :
    absorbBlocks (fullBlocks (a + b)) src s =
      absorbBlocks (fullBlocks b) (src + a) (absorbBlocks (fullBlocks a) src s) := by
  unfold fullBlocks
  rw [show (a + b) / 64 = a / 64 + b / 64 by omega, absorbBlocks_add, show 64 * (a / 64) = a by omega]

end Sys2Proof.Machine
end

