-- ==== Sys2Proof/Laws/State.lean ====
section
/-! SUPPORT. What each named update of the state does to each field, so that no proof unfolds one. -/

namespace Sys2Proof.Machine

/-! `State.respond` adds one output. -/

@[simp] theorem State.respond_lanes (s : State) (o : Output) : (s.respond o).lanes = s.lanes := rfl
@[simp] theorem State.respond_key (s : State) (o : Output) : (s.respond o).key = s.key := rfl
@[simp] theorem State.respond_adLen (s : State) (o : Output) : (s.respond o).adLen = s.adLen := rfl
@[simp] theorem State.respond_msgLen (s : State) (o : Output) : (s.respond o).msgLen = s.msgLen := rfl
@[simp] theorem State.respond_status (s : State) (o : Output) : (s.respond o).status = s.status := rfl
@[simp] theorem State.respond_ibuf (s : State) (o : Output) : (s.respond o).ibuf = s.ibuf := rfl
@[simp] theorem State.respond_obuf (s : State) (o : Output) : (s.respond o).obuf = s.obuf := rfl
@[simp] theorem State.respond_config (s : State) (o : Output) : (s.respond o).config = s.config := rfl
@[simp] theorem State.respond_pending (s : State) (o : Output) : (s.respond o).pending = s.pending := rfl
@[simp] theorem State.respond_outputs (s : State) (o : Output) : (s.respond o).outputs = s.outputs ++ [o] := rfl

/-! `refuse` answers FAULT and changes nothing else. -/

@[simp] theorem refuse_lanes (s : State) : (refuse s).lanes = s.lanes := rfl
@[simp] theorem refuse_key (s : State) : (refuse s).key = s.key := rfl
@[simp] theorem refuse_adLen (s : State) : (refuse s).adLen = s.adLen := rfl
@[simp] theorem refuse_msgLen (s : State) : (refuse s).msgLen = s.msgLen := rfl
@[simp] theorem refuse_status (s : State) : (refuse s).status = s.status := rfl
@[simp] theorem refuse_ibuf (s : State) : (refuse s).ibuf = s.ibuf := rfl
@[simp] theorem refuse_obuf (s : State) : (refuse s).obuf = s.obuf := rfl
@[simp] theorem refuse_config (s : State) : (refuse s).config = s.config := rfl
@[simp] theorem refuse_pending (s : State) : (refuse s).pending = s.pending := rfl
@[simp] theorem refuse_outputs (s : State) : (refuse s).outputs = s.outputs ++ [.completion .fault] := rfl

/-! `raiseFault` records FAULT and CAUSE and answers FAULT. -/

@[simp] theorem raiseFault_lanes (c : Cause) (s : State) : (raiseFault c s).lanes = s.lanes := rfl
@[simp] theorem raiseFault_key (c : Cause) (s : State) : (raiseFault c s).key = s.key := rfl
@[simp] theorem raiseFault_adLen (c : Cause) (s : State) : (raiseFault c s).adLen = s.adLen := rfl
@[simp] theorem raiseFault_msgLen (c : Cause) (s : State) : (raiseFault c s).msgLen = s.msgLen := rfl
@[simp] theorem raiseFault_status (c : Cause) (s : State) : (raiseFault c s).status = { s.status with fault := true, cause := c } := rfl
@[simp] theorem raiseFault_ibuf (c : Cause) (s : State) : (raiseFault c s).ibuf = s.ibuf := rfl
@[simp] theorem raiseFault_obuf (c : Cause) (s : State) : (raiseFault c s).obuf = s.obuf := rfl
@[simp] theorem raiseFault_config (c : Cause) (s : State) : (raiseFault c s).config = s.config := rfl
@[simp] theorem raiseFault_pending (c : Cause) (s : State) : (raiseFault c s).pending = s.pending := rfl
@[simp] theorem raiseFault_outputs (c : Cause) (s : State) : (raiseFault c s).outputs = s.outputs ++ [.completion .fault] := rfl

/-! `endOperation` clears the lanes and the counters and sets PHASE and DIR. -/

@[simp] theorem endOperation_lanes (s : State) : (endOperation s).lanes = Lanes.zero := rfl
@[simp] theorem endOperation_key (s : State) : (endOperation s).key = s.key := rfl
@[simp] theorem endOperation_adLen (s : State) : (endOperation s).adLen = 0 := rfl
@[simp] theorem endOperation_msgLen (s : State) : (endOperation s).msgLen = 0 := rfl
@[simp] theorem endOperation_status (s : State) : (endOperation s).status = { s.status with phase := .done, dir := .none } := rfl
@[simp] theorem endOperation_ibuf (s : State) : (endOperation s).ibuf = s.ibuf := rfl
@[simp] theorem endOperation_obuf (s : State) : (endOperation s).obuf = s.obuf := rfl
@[simp] theorem endOperation_config (s : State) : (endOperation s).config = s.config := rfl
@[simp] theorem endOperation_pending (s : State) : (endOperation s).pending = s.pending := rfl
@[simp] theorem endOperation_outputs (s : State) : (endOperation s).outputs = s.outputs := rfl

/-! `writeTag` writes OBUF and ends the operation. -/

@[simp] theorem writeTag_lanes (tag : List Byte) (dst : Nat) (s : State) : (writeTag tag dst s).lanes = Lanes.zero := rfl
@[simp] theorem writeTag_key (tag : List Byte) (dst : Nat) (s : State) : (writeTag tag dst s).key = s.key := rfl
@[simp] theorem writeTag_adLen (tag : List Byte) (dst : Nat) (s : State) : (writeTag tag dst s).adLen = 0 := rfl
@[simp] theorem writeTag_msgLen (tag : List Byte) (dst : Nat) (s : State) : (writeTag tag dst s).msgLen = 0 := rfl
@[simp] theorem writeTag_status (tag : List Byte) (dst : Nat) (s : State) : (writeTag tag dst s).status = { s.status with phase := .done, dir := .none } := rfl
@[simp] theorem writeTag_ibuf (tag : List Byte) (dst : Nat) (s : State) : (writeTag tag dst s).ibuf = s.ibuf := rfl
@[simp] theorem writeTag_obuf (tag : List Byte) (dst : Nat) (s : State) : (writeTag tag dst s).obuf = Memory.writeBytes s.obuf dst tag := rfl
@[simp] theorem writeTag_config (tag : List Byte) (dst : Nat) (s : State) : (writeTag tag dst s).config = s.config := rfl
@[simp] theorem writeTag_pending (tag : List Byte) (dst : Nat) (s : State) : (writeTag tag dst s).pending = s.pending := rfl
@[simp] theorem writeTag_outputs (tag : List Byte) (dst : Nat) (s : State) : (writeTag tag dst s).outputs = s.outputs := rfl

/-! `zeroizeAll` clears everything but FAULT and CAUSE. -/

@[simp] theorem zeroizeAll_lanes (s : State) : (zeroizeAll s).lanes = Lanes.zero := rfl
@[simp] theorem zeroizeAll_key (s : State) : (zeroizeAll s).key = 0 := rfl
@[simp] theorem zeroizeAll_adLen (s : State) : (zeroizeAll s).adLen = 0 := rfl
@[simp] theorem zeroizeAll_msgLen (s : State) : (zeroizeAll s).msgLen = 0 := rfl
@[simp] theorem zeroizeAll_status (s : State) : (zeroizeAll s).status = { Status.zero with fault := s.status.fault, cause := s.status.cause } := rfl
@[simp] theorem zeroizeAll_ibuf (s : State) : (zeroizeAll s).ibuf = [] := rfl
@[simp] theorem zeroizeAll_obuf (s : State) : (zeroizeAll s).obuf = [] := rfl
@[simp] theorem zeroizeAll_config (s : State) : (zeroizeAll s).config = s.config := rfl
@[simp] theorem zeroizeAll_pending (s : State) : (zeroizeAll s).pending = s.pending := rfl
@[simp] theorem zeroizeAll_outputs (s : State) : (zeroizeAll s).outputs = s.outputs := rfl

/-! `resetTransaction` leaves the parameter and the host's side. -/

@[simp] theorem resetTransaction_lanes (s : State) : (resetTransaction s).lanes = Lanes.zero := rfl
@[simp] theorem resetTransaction_key (s : State) : (resetTransaction s).key = 0 := rfl
@[simp] theorem resetTransaction_adLen (s : State) : (resetTransaction s).adLen = 0 := rfl
@[simp] theorem resetTransaction_msgLen (s : State) : (resetTransaction s).msgLen = 0 := rfl
@[simp] theorem resetTransaction_status (s : State) : (resetTransaction s).status = Status.zero := rfl
@[simp] theorem resetTransaction_ibuf (s : State) : (resetTransaction s).ibuf = [] := rfl
@[simp] theorem resetTransaction_obuf (s : State) : (resetTransaction s).obuf = [] := rfl
@[simp] theorem resetTransaction_config (s : State) : (resetTransaction s).config = s.config := rfl
@[simp] theorem resetTransaction_pending (s : State) : (resetTransaction s).pending = s.pending := rfl
@[simp] theorem resetTransaction_outputs (s : State) : (resetTransaction s).outputs = s.outputs := rfl

/-! `ibufWrite` touches IBUF alone. -/

@[simp] theorem ibufWrite_lanes (a : BitVec 16) (b : Byte) (s : State) : (ibufWrite a b s).lanes = s.lanes := by
  unfold ibufWrite; split <;> rfl
@[simp] theorem ibufWrite_key (a : BitVec 16) (b : Byte) (s : State) : (ibufWrite a b s).key = s.key := by
  unfold ibufWrite; split <;> rfl
@[simp] theorem ibufWrite_adLen (a : BitVec 16) (b : Byte) (s : State) : (ibufWrite a b s).adLen = s.adLen := by
  unfold ibufWrite; split <;> rfl
@[simp] theorem ibufWrite_msgLen (a : BitVec 16) (b : Byte) (s : State) : (ibufWrite a b s).msgLen = s.msgLen := by
  unfold ibufWrite; split <;> rfl
@[simp] theorem ibufWrite_status (a : BitVec 16) (b : Byte) (s : State) : (ibufWrite a b s).status = s.status := by
  unfold ibufWrite; split <;> rfl
@[simp] theorem ibufWrite_obuf (a : BitVec 16) (b : Byte) (s : State) : (ibufWrite a b s).obuf = s.obuf := by
  unfold ibufWrite; split <;> rfl
@[simp] theorem ibufWrite_config (a : BitVec 16) (b : Byte) (s : State) : (ibufWrite a b s).config = s.config := by
  unfold ibufWrite; split <;> rfl
@[simp] theorem ibufWrite_pending (a : BitVec 16) (b : Byte) (s : State) : (ibufWrite a b s).pending = s.pending := by
  unfold ibufWrite; split <;> rfl
@[simp] theorem ibufWrite_outputs (a : BitVec 16) (b : Byte) (s : State) : (ibufWrite a b s).outputs = s.outputs := by
  unfold ibufWrite; split <;> rfl

/-! `wipeIfLocked` touches OBUF and its lock alone, and leaves the lock open. -/

@[simp] theorem wipeIfLocked_lanes (s : State) : (wipeIfLocked s).lanes = s.lanes := by
  unfold wipeIfLocked; split <;> rfl
@[simp] theorem wipeIfLocked_key (s : State) : (wipeIfLocked s).key = s.key := by
  unfold wipeIfLocked; split <;> rfl
@[simp] theorem wipeIfLocked_adLen (s : State) : (wipeIfLocked s).adLen = s.adLen := by
  unfold wipeIfLocked; split <;> rfl
@[simp] theorem wipeIfLocked_msgLen (s : State) : (wipeIfLocked s).msgLen = s.msgLen := by
  unfold wipeIfLocked; split <;> rfl
@[simp] theorem wipeIfLocked_ibuf (s : State) : (wipeIfLocked s).ibuf = s.ibuf := by
  unfold wipeIfLocked; split <;> rfl
@[simp] theorem wipeIfLocked_config (s : State) : (wipeIfLocked s).config = s.config := by
  unfold wipeIfLocked; split <;> rfl
@[simp] theorem wipeIfLocked_pending (s : State) : (wipeIfLocked s).pending = s.pending := by
  unfold wipeIfLocked; split <;> rfl
@[simp] theorem wipeIfLocked_outputs (s : State) : (wipeIfLocked s).outputs = s.outputs := by
  unfold wipeIfLocked; split <;> rfl
@[simp] theorem wipeIfLocked_status (s : State) :
    (wipeIfLocked s).status = { s.status with obufLock := false } := by
  unfold wipeIfLocked
  split
  · rfl
  · rename_i h
    simp at h
    rw [← h]
@[simp] theorem wipeIfLocked_obuf (s : State) :
    (wipeIfLocked s).obuf = if s.status.obufLock then [] else s.obuf := by
  unfold wipeIfLocked; split <;> simp_all [Memory.clear]

end Sys2Proof.Machine
end

