-- ==== Sys2Proof/Laws/Ops.lean ====
section
/-! SUPPORT. The dispatch of a command: which tests it passes, what it can answer, and when it is carried out. -/

namespace Sys2Proof.Machine

/-- No test fails exactly when every test passes. -/
theorem firstFault_eq_none (l : List (Bool × Cause)) : firstFault l = none ↔ ∀ p ∈ l, p.1 = true := by
  induction l with
  | nil => simp [firstFault]
  | cons p l ih =>
    obtain ⟨b, c⟩ := p
    cases b <;> simp [firstFault, ih]

/-- The cause recorded is that of one of the tests. -/
theorem firstFault_mem {l : List (Bool × Cause)} {c : Cause} (h : firstFault l = some c) : (false, c) ∈ l := by
  induction l with
  | nil => simp [firstFault] at h
  | cons p l ih =>
    obtain ⟨b, d⟩ := p
    cases b
    · simp only [firstFault, Option.some.injEq] at h
      simp [h]
    · exact List.mem_cons_of_mem _ (ih h)

/-- Everything a command can answer. -/
theorem command_cases {row : Row} {src dst len : Nat} {s t : State} {e : Except Cause (State × Completion)}
    (h : command row src dst len s e = .next t) :
    (s.status.fault = true ∧ row ≠ .zeroize ∧ t = refuse s) ∨
    (¬(s.status.fault = true ∧ row ≠ .zeroize) ∧
      ∃ c, t = raiseFault c s ∧
        (firstFault (checks row src dst len s) = some c ∨
          (firstFault (checks row src dst len s) = none ∧ e = .error c))) ∨
    (¬(s.status.fault = true ∧ row ≠ .zeroize) ∧ firstFault (checks row src dst len s) = none ∧
      ∃ u code, e = .ok (u, code) ∧ t = u.respond (.completion code)) := by
  unfold command at h
  split at h
  · rename_i hf
    injection h with h
    exact .inl ⟨hf.1, hf.2, h.symm⟩
  · rename_i hf
    split at h
    · rename_i c hc
      injection h with h
      exact .inr (.inl ⟨hf, c, h.symm, .inl hc⟩)
    · rename_i hc
      split at h
      · rename_i c
        injection h with h
        exact .inr (.inl ⟨hf, c, h.symm, .inr ⟨hc, rfl⟩⟩)
      · rename_i u code
        injection h with h
        exact .inr (.inr ⟨hf, hc, u, code, rfl, h.symm⟩)

/-- A command always answers a next state. -/
theorem command_next (row : Row) (src dst len : Nat) (s : State) (e : Except Cause (State × Completion)) :
    ∃ t, command row src dst len s e = .next t := by
  unfold command
  split
  · exact ⟨_, rfl⟩
  · split
    · exact ⟨_, rfl⟩
    · split <;> exact ⟨_, rfl⟩

/-- While FAULT = 1 a command other than ZEROIZE is refused. -/
theorem command_refused {row : Row} {src dst len : Nat} {s : State} {e : Except Cause (State × Completion)}
    (hf : s.status.fault = true) (hrow : row ≠ .zeroize) :
    command row src dst len s e = .next (refuse s) := by
  simp [command, hf, hrow]

/-- The first test that fails is the fault recorded. -/
theorem command_faults {row : Row} {src dst len : Nat} {s : State} {e : Except Cause (State × Completion)} {c : Cause}
    (hf : s.status.fault = false) (hc : firstFault (checks row src dst len s) = some c) :
    command row src dst len s e = .next (raiseFault c s) := by
  simp [command, hf, hc]

/-- A command whose tests all pass is carried out. -/
theorem command_done {row : Row} {src dst len : Nat} {s u : State} {code : Completion}
    (hf : s.status.fault = false) (hc : firstFault (checks row src dst len s) = none) :
    command row src dst len s (.ok (u, code)) = .next (u.respond (.completion code)) := by
  simp [command, hf, hc]

/-- Tests that pass may be left out. -/
theorem firstFault_append {l l' : List (Bool × Cause)} (h : firstFault l = none) :
    firstFault (l ++ l') = firstFault l' := by
  induction l with
  | nil => rfl
  | cons p l ih =>
    obtain ⟨b, c⟩ := p
    cases b
    · simp [firstFault] at h
    · exact ih h

/-- A row without a fixed size passes the size check. -/
theorem lengthChecks_pass {row : Row} {len : Nat} (h : ∀ n c, requiredLen row = some (n, c) → len = n) :
    firstFault (lengthChecks row len) = none := by
  unfold lengthChecks
  cases hr : requiredLen row with
  | none => rfl
  | some p =>
    obtain ⟨n, c⟩ := p
    simp [firstFault, h n c hr]

/-- Every test of a command passes exactly when the command is legal, has its fixed size, is in range and fits its
counter. -/
theorem checks_pass_iff (row : Row) (src dst len : Nat) (s : State) :
    firstFault (checks row src dst len s) = none ↔
      legalNow row s.status = true ∧ (∀ n c, requiredLen row = some (n, c) → len = n) ∧
      (usesSrc row = true → src + len ≤ s.config.bufBytes) ∧ (usesDst row = true → dst + len ≤ s.config.bufBytes) ∧
      counterOk row len s = true := by
  have hl : (∀ p ∈ lengthChecks row len, p.1 = true) ↔ ∀ n c, requiredLen row = some (n, c) → len = n := by
    unfold lengthChecks
    cases hr : requiredLen row with
    | none => simp
    | some p =>
      obtain ⟨n, c⟩ := p
      simp only [List.mem_singleton, forall_eq, decide_eq_true_eq, Option.some.injEq, Prod.mk.injEq]
      exact ⟨fun h a b e => by rw [h, e.1], fun h => h n c ⟨rfl, rfl⟩⟩
  have hb : ∀ (u : Bool) (a : Nat), (!u || inBuffer s a len) = true ↔ (u = true → a + len ≤ s.config.bufBytes) := by
    intro u a
    cases u
    · simp
    · simp only [Bool.not_true, Bool.false_or, true_implies]
      exact decide_eq_true_iff
  rw [firstFault_eq_none, ← hl, ← hb, ← hb]
  unfold checks
  simp only [List.mem_cons, List.mem_append, List.not_mem_nil, or_false]
  constructor
  · intro h
    exact ⟨h _ (.inl rfl), fun p hp => h p (.inr (.inl hp)), h _ (.inr (.inr (.inl rfl))),
      h _ (.inr (.inr (.inr (.inl rfl)))), h _ (.inr (.inr (.inr (.inr rfl))))⟩
  · rintro ⟨h1, h2, h3, h4, h5⟩ p (rfl | hp | rfl | rfl | rfl)
    · exact h1
    · exact h2 p hp
    · exact h3
    · exact h4
    · exact h5

end Sys2Proof.Machine
end

