-- ==== Sys2Proof/Laws/Exec.lean ====
section
/-! SUPPORT. Everything a command can do, said once: `exec` is the dispatch of R86 around the command's effect, the effect
never faults, and it leaves the fault record and the host's side alone. -/

namespace Sys2Proof.Machine

/-- The bytes of OBUF and the lanes after a DEC of `len` bytes; the partial block never faults (R209). -/
def decrypted (src dst len : Nat) (s : State) : State :=
  match decryptLast src dst len (cryptBlocks decBlock (fullBlocks len) src dst s) with
  | .error _ => s
  | .ok u => u

theorem decryptLast_eq_decrypted (src dst len : Nat) (s : State) :
    decryptLast src dst len (cryptBlocks decBlock (fullBlocks len) src dst s) = .ok (decrypted src dst len s) := by
  obtain ⟨u, hu, -⟩ := decryptLast_ok src dst len (cryptBlocks decBlock (fullBlocks len) src dst s)
  rw [decrypted, hu]

/-- The next state and completion code of a command whose tests pass. -/
def effectOf (i : Instr) (s : State) : State × Completion :=
  match i with
  | .setkey src _ =>
    ({ s with key := Block.ofBytes (Memory.readBytes s.ibuf src 16), status := { s.status with keyValid := true } }, .ok)
  | .init src _ =>
    ({ wipeIfLocked s with
        lanes := initLanes s.key (Block.ofBytes (Memory.readBytes s.ibuf src 16))
        adLen := 0
        msgLen := 0
        status := { s.status with phase := .ad, dir := .none, obufLock := false, authOk := false, authFail := false } },
      .ok)
  | .ad src len =>
    ({ s with
        lanes := (absorbLast src len (absorbBlocks (fullBlocks len) src s)).lanes
        adLen := s.adLen + len
        status := { s.status with phase := adPhase s.status.phase len } }, .ok)
  | .enc src dst len =>
    ({ s with
        lanes := (encryptLast src dst len (cryptBlocks encBlock (fullBlocks len) src dst s)).lanes
        obuf := (encryptLast src dst len (cryptBlocks encBlock (fullBlocks len) src dst s)).obuf
        msgLen := s.msgLen + len
        status := { s.status with phase := messagePhase len, dir := .enc } }, .ok)
  | .dec src dst len =>
    ({ s with
        lanes := (decrypted src dst len s).lanes
        obuf := (decrypted src dst len s).obuf
        msgLen := s.msgLen + len
        status := { s.status with phase := messagePhase len, dir := .dec, obufLock := true } }, .ok)
  | .final16 dst _ => (writeTag (finalize16 s.lanes s.adLen s.msgLen).bytes dst s, .ok)
  | .final32 dst _ => (writeTag (finalize32 s.lanes s.adLen s.msgLen).bytes dst s, .ok)
  | .verify16 src _ =>
    verifyTag (finalize16 s.lanes s.adLen s.msgLen).bytes (Memory.readBytes s.ibuf src 16) s
  | .verify32 src _ =>
    verifyTag (finalize32 s.lanes s.adLen s.msgLen).bytes (Memory.readBytes s.ibuf src 32) s
  | .macfinal16 dst _ => (writeTag (macFinalize16 s.lanes s.adLen).bytes dst s, .ok)
  | .macfinal32 dst _ => (writeTag (macFinalize32 s.lanes s.adLen).bytes dst s, .ok)
  | .zeroize => (zeroizeAll s, .ok)

/-- After the blocks of an AD only the lanes differ. -/
theorem absorbed_frame (src len : Nat) (s : State) :
    absorbLast src len (absorbBlocks (fullBlocks len) src s) =
      { s with lanes := (absorbLast src len (absorbBlocks (fullBlocks len) src s)).lanes } := by
  rw [absorbLast_frame, absorbBlocks_frame]

/-- After the blocks of an ENC only the lanes and OBUF differ. -/
theorem encrypted_frame (src dst len : Nat) (s : State) :
    encryptLast src dst len (cryptBlocks encBlock (fullBlocks len) src dst s) =
      { s with
        lanes := (encryptLast src dst len (cryptBlocks encBlock (fullBlocks len) src dst s)).lanes
        obuf := (encryptLast src dst len (cryptBlocks encBlock (fullBlocks len) src dst s)).obuf } := by
  rw [encryptLast_frame, cryptBlocks_frame]

/-- After the blocks of a DEC only the lanes and OBUF differ. -/
theorem decrypted_frame (src dst len : Nat) (s : State) :
    decrypted src dst len s =
      { s with lanes := (decrypted src dst len s).lanes, obuf := (decrypted src dst len s).obuf } := by
  obtain ⟨u, hu, hf⟩ := decryptLast_ok src dst len (cryptBlocks decBlock (fullBlocks len) src dst s)
  have h : decrypted src dst len s = u := by rw [decrypted, hu]
  rw [h, hf, cryptBlocks_frame]

/-- `exec` is the dispatch of R86 around the command's effect. -/
theorem exec_eq_command (i : Instr) (s : State) :
    exec i s = command i.row i.src i.dst i.len s (.ok (effectOf i s)) := by
  cases i with
  | setkey src len => rfl
  | init src len =>
    change execInit src len s = command .init src 0 len s (.ok (effectOf (.init src len) s))
    unfold execInit
    refine congrArg (command .init src 0 len s) ?_
    simp only [effectOf, wipeIfLocked_key, wipeIfLocked_ibuf, wipeIfLocked_status]
  | ad src len =>
    change execAd src len s = command .ad src 0 len s (.ok (effectOf (.ad src len) s))
    unfold execAd
    refine congrArg (command .ad src 0 len s) ?_
    dsimp only [effectOf]
    rw [absorbed_frame]
  | enc src dst len =>
    change execEnc src dst len s = command .enc src dst len s (.ok (effectOf (.enc src dst len) s))
    unfold execEnc
    refine congrArg (command .enc src dst len s) ?_
    dsimp only [effectOf]
    rw [encrypted_frame]
  | dec src dst len =>
    change execDec src dst len s = command .dec src dst len s (.ok (effectOf (.dec src dst len) s))
    unfold execDec
    refine congrArg (command .dec src dst len s) ?_
    rw [decryptLast_eq_decrypted]
    dsimp only [effectOf]
    rw [decrypted_frame]
  | final16 dst len => rfl
  | final32 dst len => rfl
  | verify16 src len => rfl
  | verify32 src len => rfl
  | macfinal16 dst len => rfl
  | macfinal32 dst len => rfl
  | zeroize => rfl

/-- Everything a command can answer: it is refused while FAULT = 1, it records the fault of a test, or it is carried
out. -/
theorem exec_cases {i : Instr} {s t : State} (h : exec i s = .next t) :
    (s.status.fault = true ∧ i.row ≠ .zeroize ∧ t = refuse s) ∨
    (¬(s.status.fault = true ∧ i.row ≠ .zeroize) ∧
      ∃ c, firstFault (checks i.row i.src i.dst i.len s) = some c ∧ t = raiseFault c s) ∨
    (¬(s.status.fault = true ∧ i.row ≠ .zeroize) ∧ firstFault (checks i.row i.src i.dst i.len s) = none ∧
      t = (effectOf i s).1.respond (.completion (effectOf i s).2)) := by
  rw [exec_eq_command] at h
  rcases command_cases h with h | ⟨h1, c, h2, h3⟩ | ⟨h1, h2, u, code, h3, h4⟩
  · exact .inl h
  · rcases h3 with h3 | ⟨-, h3⟩
    · exact .inr (.inl ⟨h1, c, h3, h2⟩)
    · cases h3
  · injection h3 with h3
    exact .inr (.inr ⟨h1, h2, by rw [h4, h3]⟩)

/-- A command always answers a next state. -/
theorem exec_next (i : Instr) (s : State) : ∃ t, exec i s = .next t := by
  rw [exec_eq_command]
  exact command_next _ _ _ _ _ _

/-- A command whose tests all pass is carried out. -/
theorem exec_done {i : Instr} {s : State} (hf : s.status.fault = false)
    (hc : firstFault (checks i.row i.src i.dst i.len s) = none) :
    exec i s = .next ((effectOf i s).1.respond (.completion (effectOf i s).2)) := by
  rw [exec_eq_command]
  exact command_done hf hc

/-- The first test of a command that fails is the fault it records. -/
theorem exec_faults {i : Instr} {s : State} {c : Cause} (hf : s.status.fault = false)
    (hc : firstFault (checks i.row i.src i.dst i.len s) = some c) : exec i s = .next (raiseFault c s) := by
  rw [exec_eq_command]
  exact command_faults hf hc

/-- No effect touches the parameter, the pending transactions, what the host has observed, FAULT or CAUSE. -/
theorem effectOf_frame (i : Instr) (s : State) :
    (effectOf i s).1.config = s.config ∧ (effectOf i s).1.pending = s.pending ∧
    (effectOf i s).1.outputs = s.outputs ∧ (effectOf i s).1.status.fault = s.status.fault ∧
    (effectOf i s).1.status.cause = s.status.cause := by
  cases i <;> try exact ⟨rfl, rfl, rfl, rfl, rfl⟩
  case init => simp [effectOf]
  all_goals (unfold effectOf verifyTag; dsimp only; split <;> exact ⟨rfl, rfl, rfl, rfl, rfl⟩)

/-- OBUF stays in canonical form through an ENC. -/
theorem wf_encrypted (src dst len : Nat) (s : State) (h : Memory.wf s.obuf = true) :
    Memory.wf (encryptLast src dst len (cryptBlocks encBlock (fullBlocks len) src dst s)).obuf = true := by
  rw [encryptLast_eq]
  split
  · exact Memory.wf_writeBytes (cryptBlocks_obuf _ _ _ _ _ h).1 _ _
  · exact (cryptBlocks_obuf _ _ _ _ _ h).1

/-- OBUF stays in canonical form through a DEC. -/
theorem wf_decrypted (src dst len : Nat) (s : State) (h : Memory.wf s.obuf = true) :
    Memory.wf (decrypted src dst len s).obuf = true := by
  unfold decrypted
  rw [decryptLast_eq]
  split
  · exact h
  · rename_i u hu
    split at hu
    · injection hu with hu
      subst hu
      exact Memory.wf_writeBytes (cryptBlocks_obuf _ _ _ _ _ h).1 _ _
    · injection hu with hu
      subst hu
      exact (cryptBlocks_obuf _ _ _ _ _ h).1

/-- Every effect keeps OBUF in canonical form. -/
theorem wf_effectOf (i : Instr) (s : State) (h : Memory.wf s.obuf = true) : Memory.wf (effectOf i s).1.obuf = true := by
  cases i with
  | setkey src len => exact h
  | init src len =>
    simp only [effectOf, wipeIfLocked_obuf]
    split
    · rfl
    · exact h
  | ad src len => exact h
  | enc src dst len => exact wf_encrypted src dst len s h
  | dec src dst len => exact wf_decrypted src dst len s h
  | final16 dst len => exact Memory.wf_writeBytes h _ _
  | final32 dst len => exact Memory.wf_writeBytes h _ _
  | verify16 src len => unfold effectOf verifyTag; dsimp only; split; exact h; rfl
  | verify32 src len => unfold effectOf verifyTag; dsimp only; split; exact h; rfl
  | macfinal16 dst len => exact Memory.wf_writeBytes h _ _
  | macfinal32 dst len => exact Memory.wf_writeBytes h _ _
  | zeroize => rfl

/-- Carried out from FAULT = 0 with FAULT still 0: every test passed and the state is that of the effect. -/
theorem exec_carried {i : Instr} {s t : State} (hf : s.status.fault = false) (h : exec i s = .next t)
    (ht : t.status.fault = false) :
    firstFault (checks i.row i.src i.dst i.len s) = none ∧
      t = (effectOf i s).1.respond (.completion (effectOf i s).2) := by
  rcases exec_cases h with ⟨h, -⟩ | ⟨-, c, -, rfl⟩ | ⟨-, h1, h2⟩
  · rw [hf] at h
    cases h
  · cases ht
  · exact ⟨h1, h2⟩

/-- The lanes after an AD depend on the lanes and IBUF alone. -/
theorem absorbed_lanes_congr (src len : Nat) {s u : State} (h1 : s.lanes = u.lanes) (h3 : s.ibuf = u.ibuf) :
    (absorbLast src len (absorbBlocks (fullBlocks len) src s)).lanes =
      (absorbLast src len (absorbBlocks (fullBlocks len) src u)).lanes := by
  have h : (absorbBlocks (fullBlocks len) src s).lanes = (absorbBlocks (fullBlocks len) src u).lanes := by
    rw [absorbBlocks_lanes, absorbBlocks_lanes, h1, h3]
  have hs : (absorbBlocks (fullBlocks len) src s).ibuf = s.ibuf := by rw [absorbBlocks_frame]
  have hu : (absorbBlocks (fullBlocks len) src u).ibuf = u.ibuf := by rw [absorbBlocks_frame]
  unfold absorbLast
  dsimp only
  split
  · dsimp only
    rw [h, hs, hu, h3]
  · exact h

/-- The lanes after an ENC depend on the lanes and IBUF alone. -/
theorem encrypted_lanes_congr (src dst len : Nat) {s u : State} (h1 : s.lanes = u.lanes) (h3 : s.ibuf = u.ibuf) :
    (encryptLast src dst len (cryptBlocks encBlock (fullBlocks len) src dst s)).lanes =
      (encryptLast src dst len (cryptBlocks encBlock (fullBlocks len) src dst u)).lanes := by
  have h := cryptBlocks_lanes_congr encBlock (fullBlocks len) src dst h1 h3
  rw [encryptLast_eq, encryptLast_eq]
  split
  · simp only [cryptBlocks_ibuf, h, h3]
  · exact h

/-- OBUF after an ENC depends on the lanes, OBUF and IBUF alone. -/
theorem encrypted_obuf_congr (src dst len : Nat) {s u : State} (h1 : s.lanes = u.lanes) (h2 : s.obuf = u.obuf)
    (h3 : s.ibuf = u.ibuf) :
    (encryptLast src dst len (cryptBlocks encBlock (fullBlocks len) src dst s)).obuf =
      (encryptLast src dst len (cryptBlocks encBlock (fullBlocks len) src dst u)).obuf := by
  obtain ⟨h, h'⟩ := cryptBlocks_congr encBlock (fullBlocks len) src dst h1 h2 h3
  rw [encryptLast_eq, encryptLast_eq]
  split
  · simp only [cryptBlocks_ibuf, h, h', h3]
  · exact h'

/-- A DEC with its last block written out. -/
theorem decrypted_eq (src dst len : Nat) (s : State) :
    decrypted src dst len s =
      let u := cryptBlocks decBlock (fullBlocks len) src dst s
      if len % 64 > 0 then
        let w := Chunk.ofBytes (Memory.readBytes s.ibuf (src + 64 * (len / 64)) (len % 64))
        let p := (Chunk.xor w (keystream u.lanes)).bytes.take (len % 64)
        { u with
          lanes := absorb u.lanes (Chunk.ofBytes p)
          obuf := Memory.writeBytes u.obuf (dst + 64 * (len / 64)) p }
      else u := by
  unfold decrypted
  rw [decryptLast_eq, cryptBlocks_ibuf]
  split
  · rename_i h
    split at h <;> cases h
  · rename_i u hu
    split at hu
    · injection hu with hu
      subst hu
      rename_i hr
      dsimp only
      rw [if_pos hr, cryptBlocks_ibuf]
    · injection hu with hu
      subst hu
      rename_i hr
      dsimp only
      rw [if_neg hr]

/-- The lanes after a DEC depend on the lanes and IBUF alone. -/
theorem decrypted_lanes_congr (src dst len : Nat) {s u : State} (h1 : s.lanes = u.lanes) (h3 : s.ibuf = u.ibuf) :
    (decrypted src dst len s).lanes = (decrypted src dst len u).lanes := by
  have h := cryptBlocks_lanes_congr decBlock (fullBlocks len) src dst h1 h3
  rw [decrypted_eq, decrypted_eq]
  dsimp only
  split
  · simp only [h, h3]
  · exact h

/-- OBUF after a DEC depends on the lanes, OBUF and IBUF alone. -/
theorem decrypted_obuf_congr (src dst len : Nat) {s u : State} (h1 : s.lanes = u.lanes) (h2 : s.obuf = u.obuf)
    (h3 : s.ibuf = u.ibuf) : (decrypted src dst len s).obuf = (decrypted src dst len u).obuf := by
  obtain ⟨h, h'⟩ := cryptBlocks_congr decBlock (fullBlocks len) src dst h1 h2 h3
  rw [decrypted_eq, decrypted_eq]
  dsimp only
  split
  · simp only [h, h', h3]
  · exact h'

/-- No effect depends on the pending transactions. -/
theorem effectOf_pending (i : Instr) (s : State) (p : List Transaction) :
    effectOf i { s with pending := p } = ({ (effectOf i s).1 with pending := p }, (effectOf i s).2) := by
  cases i with
  | ad src len =>
    unfold effectOf
    dsimp only
    rw [absorbed_lanes_congr src len (s := { s with pending := p }) (u := s) rfl rfl]
  | enc src dst len =>
    unfold effectOf
    dsimp only
    rw [encrypted_lanes_congr src dst len (s := { s with pending := p }) (u := s) rfl rfl,
      encrypted_obuf_congr src dst len (s := { s with pending := p }) (u := s) rfl rfl rfl]
  | dec src dst len =>
    unfold effectOf
    dsimp only
    rw [decrypted_lanes_congr src dst len (s := { s with pending := p }) (u := s) rfl rfl,
      decrypted_obuf_congr src dst len (s := { s with pending := p }) (u := s) rfl rfl rfl]
  | init src len =>
    unfold effectOf wipeIfLocked
    dsimp only
    split <;> rfl
  | verify16 src len => unfold effectOf verifyTag; dsimp only; split <;> rfl
  | verify32 src len => unfold effectOf verifyTag; dsimp only; split <;> rfl
  | setkey src len => rfl
  | final16 dst len => rfl
  | final32 dst len => rfl
  | macfinal16 dst len => rfl
  | macfinal32 dst len => rfl
  | zeroize => rfl

/-- No command depends on the pending transactions, and none touches them. -/
theorem exec_pending {i : Instr} {s t : State} (h : exec i s = .next t) (p : List Transaction) :
    exec i { s with pending := p } = .next { t with pending := p } := by
  rcases exec_cases h with ⟨h1, h2, rfl⟩ | ⟨h1, c, h2, rfl⟩ | ⟨h1, h2, rfl⟩
  · rw [exec_eq_command]
    exact command_refused h1 h2
  · rw [exec_eq_command]
    unfold command
    have hc : firstFault (checks i.row i.src i.dst i.len { s with pending := p }) = some c := h2
    rw [if_neg h1, hc]
    rfl
  · rw [exec_eq_command, effectOf_pending]
    unfold command
    have hc : firstFault (checks i.row i.src i.dst i.len { s with pending := p }) = none := h2
    rw [if_neg h1, hc]
    rfl

end Sys2Proof.Machine
end

