-- ==== Sys2Proof/Laws/PerInstr.lean ====
section
/-! SUPPORT. Statements made once per command, about the command as syntax: the word of a command matches its own row of
the table (R84). -/

namespace Sys2Proof.Laws.EncodesItsRow

/-- The word of a command, masked as its row says, is the row's match value (R84). -/
def Statement (i : Instr) : Prop := encode i &&& i.row.maskWord = i.row.matchWord

theorem and_ff : ∀ op : BitVec 8, op &&& 0xFF = op := by decide

theorem and_zero (a : BitVec 16) : a &&& 0 = 0 := BitVec.and_zero

theorem zero_and (a : BitVec 16) : 0 &&& a = 0 := BitVec.zero_and

/-- The match value of a row is its opcode, every other field 0 (R84). -/
theorem packWord_opcode (row : Row) : packWord row.opcode 0 0 0 = row.matchWord := by cases row <;> decide

/-- Masking a packed word masks each field. -/
theorem packWord_and (op mo mr : BitVec 8) (a b c ma mb mc : BitVec 16) :
    packWord op a b c &&& (mc ++ mb ++ ma ++ mr ++ mo) = packWord (op &&& mo) (a &&& ma) (b &&& mb) (c &&& mc) := by
  unfold packWord
  rw [BitVec.and_append, BitVec.and_append, BitVec.and_append, BitVec.and_append,
    show (0 : BitVec 8) &&& mr = 0 from BitVec.zero_and]

/-- A row that uses SRC and LEN. -/
theorem maskSrcLen (op : BitVec 8) (a c : BitVec 16) :
    packWord op a 0 c &&& 0x0000FFFF0000FFFF = packWord op 0 0 0 := by
  have h : (0x0000FFFF0000FFFF : BitVec 64) =
      (0 : BitVec 16) ++ (0xFFFF : BitVec 16) ++ (0 : BitVec 16) ++ (0xFF : BitVec 8) ++ (0xFF : BitVec 8) := by decide
  rw [h, packWord_and, and_zero, and_zero, zero_and, and_ff]

/-- A row that uses DST and LEN. -/
theorem maskDstLen (op : BitVec 8) (b c : BitVec 16) :
    packWord op 0 b c &&& 0x00000000FFFFFFFF = packWord op 0 0 0 := by
  have h : (0x00000000FFFFFFFF : BitVec 64) =
      (0 : BitVec 16) ++ (0 : BitVec 16) ++ (0xFFFF : BitVec 16) ++ (0xFF : BitVec 8) ++ (0xFF : BitVec 8) := by decide
  rw [h, packWord_and, and_zero, and_zero, zero_and, and_ff]

/-- A row that uses all three fields. -/
theorem maskSrcDstLen (op : BitVec 8) (a b c : BitVec 16) :
    packWord op a b c &&& 0x000000000000FFFF = packWord op 0 0 0 := by
  have h : (0x000000000000FFFF : BitVec 64) =
      (0 : BitVec 16) ++ (0 : BitVec 16) ++ (0 : BitVec 16) ++ (0xFF : BitVec 8) ++ (0xFF : BitVec 8) := by decide
  rw [h, packWord_and, and_zero, and_zero, and_zero, and_ff]

theorem setkey (src len : Nat) : Statement (.setkey src len) := (maskSrcLen _ _ _).trans (packWord_opcode _)
theorem init (src len : Nat) : Statement (.init src len) := (maskSrcLen _ _ _).trans (packWord_opcode _)
theorem ad (src len : Nat) : Statement (.ad src len) := (maskSrcLen _ _ _).trans (packWord_opcode _)
theorem enc (src dst len : Nat) : Statement (.enc src dst len) := (maskSrcDstLen _ _ _ _).trans (packWord_opcode _)
theorem dec (src dst len : Nat) : Statement (.dec src dst len) := (maskSrcDstLen _ _ _ _).trans (packWord_opcode _)
theorem final16 (dst len : Nat) : Statement (.final16 dst len) := (maskDstLen _ _ _).trans (packWord_opcode _)
theorem final32 (dst len : Nat) : Statement (.final32 dst len) := (maskDstLen _ _ _).trans (packWord_opcode _)
theorem verify16 (src len : Nat) : Statement (.verify16 src len) := (maskSrcLen _ _ _).trans (packWord_opcode _)
theorem verify32 (src len : Nat) : Statement (.verify32 src len) := (maskSrcLen _ _ _).trans (packWord_opcode _)
theorem macfinal16 (dst len : Nat) : Statement (.macfinal16 dst len) := (maskDstLen _ _ _).trans (packWord_opcode _)
theorem macfinal32 (dst len : Nat) : Statement (.macfinal32 dst len) := (maskDstLen _ _ _).trans (packWord_opcode _)
theorem zeroize : Statement .zeroize := by unfold Statement; decide

end Sys2Proof.Laws.EncodesItsRow
end

