-- ==== Sys2Proof/Laws/Permutation.lean ====
section
/-! SUPPORT. The new lanes of one update step, lane by lane (R117). -/

namespace Sys2Proof.Machine

theorem aesRound_eq (input rk : Block) : aesRound input rk = mixColumns (shiftRows (subBytes input)) ^^^ rk := by
  unfold aesRound; rfl

theorem update_eq (s : Lanes) (m0 m1 : Lane) : update s m0 m1 =
    ⟨aesRoundX2 s.s7 (Lane.xor s.s0 m0), aesRoundX2 s.s0 s.s1, aesRoundX2 s.s1 s.s2, aesRoundX2 s.s2 s.s3,
      aesRoundX2 s.s3 (Lane.xor s.s4 m1), aesRoundX2 s.s4 s.s5, aesRoundX2 s.s5 s.s6, aesRoundX2 s.s6 s.s7⟩ := by
  unfold update; rfl

end Sys2Proof.Machine
end

