-- ==== Sys2Proof/Laws/Step.lean ====
section
/-! SUPPORT. What one step can do, said once: the transaction at the head of `pending`, in its five kinds. -/

namespace Sys2Proof.Machine

/-- A step takes the head of `pending` off and carries it out. -/
theorem step_of_pending {s : State} {tr : Transaction} {rest : List Transaction} (h : s.pending = tr :: rest) :
    step s = transact tr { s with pending := rest } := by
  unfold step
  rw [h]

/-- With no transaction pending a step changes nothing. -/
theorem step_of_none {s : State} (h : s.pending = []) : step s = .next s := by
  unfold step
  rw [h]

/-- Everything a step can do. -/
theorem step_cases {s t : State} (h : step s = .next t) :
    (s.pending = [] ∧ t = s) ∨
    ∃ tr rest, s.pending = tr :: rest ∧
      ((tr = .reset ∧ t = resetTransaction { s with pending := rest }) ∨
       (∃ addr b, tr = .ibufWrite addr b ∧ t = ibufWrite addr b { s with pending := rest }) ∨
       (∃ addr, tr = .obufRead addr ∧ t = obufRead addr { s with pending := rest }) ∨
       (tr = .statusRead ∧ t = statusRead { s with pending := rest }) ∨
       (∃ w, tr = .command w ∧
         ((∃ i, decode w = .ok i ∧ exec i { s with pending := rest } = .next t) ∨
          (∃ r, decode w = .error r ∧ t = illegalCommand { s with pending := rest })))) := by
  unfold step at h
  split at h
  · rename_i hp
    injection h with h
    exact .inl ⟨hp, h.symm⟩
  · rename_i tr rest hp
    refine .inr ⟨tr, rest, hp, ?_⟩
    cases tr with
    | reset => injection h with h; exact .inl ⟨rfl, h.symm⟩
    | ibufWrite addr b => injection h with h; exact .inr (.inl ⟨addr, b, rfl, h.symm⟩)
    | obufRead addr => injection h with h; exact .inr (.inr (.inl ⟨addr, rfl, h.symm⟩))
    | statusRead => injection h with h; exact .inr (.inr (.inr (.inl ⟨rfl, h.symm⟩)))
    | command w =>
      refine .inr (.inr (.inr (.inr ⟨w, rfl, ?_⟩)))
      change commandWord w _ = _ at h
      unfold commandWord at h
      split at h
      · exact .inl ⟨_, ‹_›, h⟩
      · injection h with h
        exact .inr ⟨_, ‹_›, h.symm⟩

/-- Everything an illegal word can do: refused while FAULT = 1, E_ILLEGAL otherwise. -/
theorem illegalCommand_cases (s : State) :
    (s.status.fault = true ∧ illegalCommand s = refuse s) ∨
    (s.status.fault = false ∧ illegalCommand s = raiseFault .illegal s) := by
  unfold illegalCommand
  cases h : s.status.fault
  · exact .inr ⟨rfl, if_neg (by simp)⟩
  · exact .inl ⟨rfl, if_pos rfl⟩

/-- An illegal word leaves everything but FAULT, CAUSE and what the host observed. -/
theorem illegalCommand_frame (s : State) :
    illegalCommand s = { s with
      status := { s.status with
        fault := (illegalCommand s).status.fault, cause := (illegalCommand s).status.cause }
      outputs := s.outputs ++ [.completion .fault] } := by
  rcases illegalCommand_cases s with ⟨-, h⟩ | ⟨-, h⟩ <;> rw [h] <;> rfl

/-- One more step of a run of any machine, when that step answers a next state. -/
theorem run_succ_of_next (M : Host.Core) (n : Nat) {s t : M.State} (h : M.step s = .next t) :
    M.run (n + 1) s = M.run n t := by
  have e : M.run (n + 1) s =
      (match M.step s with | .next u => M.run n u | .fault r => .fault r | .refused r => .refused r) := rfl
  rw [e, h]

/-- One more step of a run, the step given as `step`. -/
theorem core_run_succ (n : Nat) {s t : State} (h : step s = .next t) : core.run (n + 1) s = core.run n t :=
  run_succ_of_next core n h

end Sys2Proof.Machine
end

