-- ==== Sys2Proof/Tests/Slice0.lean ====
section
/-! SUPPORT. Tests: the checks of WellFormed, words written out from the encoding, single steps with the values of
spec/95_test_vectors.md, and for every statement with hypotheses a witness that meets them. -/

namespace Sys2Proof.Tests

/-! The evaluations below run one after another, which keeps the memory of the check small. -/
set_option Elab.async false

open Sys2Proof.Machine Sys2Proof.Safety Sys2Proof.Statements

/-! ## Helpers -/

/-- The next state of an outcome. -/
def nextOf (o : Host.Outcome State Fault Refusal) : State :=
  match o with
  | .next t => t
  | .fault _ => State.reset
  | .refused _ => State.reset

theorem exec_nextOf (i : Instr) (s : State) : exec i s = .next (nextOf (exec i s)) := by
  obtain ⟨t, h⟩ := exec_next i s
  rw [h, nextOf]

/-- A lane from the two columns of the spec's tables. -/
def lane (a b : BitVec 128) : Lane := ⟨Block.ofHex a, Block.ofHex b⟩

/-- Sixteen bytes, written in hexadecimal, at an address. -/
def stored (m : Memory) (addr : Nat) (h : BitVec 128) : Memory := Memory.writeBytes m addr (Block.ofHex h).bytes

/-- A core with 64-byte buffers and a loaded key, in the given PHASE and DIR. -/
def core64 (ph : Phase) (d : Dir) : State :=
  { State.reset with config := ⟨64⟩, status := { Status.zero with phase := ph, dir := d, keyValid := true } }

/-- `core64` in the middle of a decryption: OBUF locked, a byte in it. -/
def locked64 : State :=
  { core64 .msg .dec with
    obuf := [(0, 7)], status := { Status.zero with phase := .msg, dir := .dec, keyValid := true, obufLock := true } }

/-- `core64` with a fault recorded. -/
def faulted64 : State :=
  { core64 .ad .none with status := { Status.zero with phase := .ad, keyValid := true, fault := true, cause := .tagLen } }

/-! ## Well-formed and ill-formed commands -/

theorem test_wellFormed_largest : (Instr.enc 65535 65535 65535).wellFormed = true := by decide
theorem test_illFormed_src : (Instr.setkey 65536 16).wellFormed = false := by decide
theorem test_illFormed_dst : (Instr.final16 65536 16).wellFormed = false := by decide
theorem test_illFormed_len : (Instr.ad 0 65536).wellFormed = false := by decide

/-! ## Decoding: the words of section 10.1 -/

theorem test_decode_setkey : decode 0x0010000000000001 = .ok (.setkey 0 16) := by decide
theorem test_decode_init : decode 0x0010000000100002 = .ok (.init 0x10 16) := by decide
theorem test_decode_ad : decode 0x0008000000200003 = .ok (.ad 0x20 8) := by decide
theorem test_decode_enc : decode 0x0078000000400004 = .ok (.enc 0x40 0 120) := by decide
theorem test_decode_dec : decode 0x0078010000400005 = .ok (.dec 0x40 0x100 120) := by decide
theorem test_decode_final16 : decode 0x0010007800000006 = .ok (.final16 0x78 16) := by decide
theorem test_decode_final32 : decode 0x0020007800000007 = .ok (.final32 0x78 32) := by decide
theorem test_decode_verify16 : decode 0x0010000000b80008 = .ok (.verify16 0xb8 16) := by decide
theorem test_decode_verify32 : decode 0x0020000000b80009 = .ok (.verify32 0xb8 32) := by decide
theorem test_decode_macfinal16 : decode 0x001000000000000a = .ok (.macfinal16 0 16) := by decide
theorem test_decode_macfinal32 : decode 0x002000000000000b = .ok (.macfinal32 0 32) := by decide
theorem test_decode_zeroize : decode 0x000000000000000c = .ok .zeroize := by decide
theorem test_decode_largest_addresses : decode 0x0040ffc0ffc00004 = .ok (.enc 0xffc0 0xffc0 64) := by decide
theorem test_decode_largest_len : decode 0xffff000000010003 = .ok (.ad 1 65535) := by decide

/-- The illegal words of section 10.2, with the name each is rejected by. -/
theorem test_decode_illegal :
    decode 0x0000000000000000 = .error .unknownOpcode ∧ decode 0x000000000000000d = .error .unknownOpcode ∧
    decode 0x00000000000000ff = .error .unknownOpcode ∧ decode 0x0000000000000101 = .error .reservedField ∧
    decode 0x0000000000008001 = .error .reservedField ∧ decode 0x0010000100000001 = .error .unusedField ∧
    decode 0x0000000000000104 = .error .reservedField ∧ decode 0x0010000000010006 = .error .unusedField ∧
    decode 0x0010000100000008 = .error .unusedField ∧ decode 0x001000000001000a = .error .unusedField ∧
    decode 0x000100000000000c = .error .unusedField ∧ decode 0x000000000001000c = .error .unusedField ∧
    decode 0xffffffffffffffff = .error .unknownOpcode := by decide

theorem test_encode_enc : encode (.enc 0x80 0x40 56) = 0x0038004000800004 := by decide

theorem test_decodeTableWord : decodeTableWord 64 0x0010000000100002 = some (.init 0x10 16) ∧
    decodeTableWord 64 0x0000000000000101 = none := by decide

theorem test_withFetchWord : step (State.reset.withFetchWord 64 0x0010000000000001) = exec (.setkey 0 16) State.reset :=
  rfl

/-- The text of a command (R88). -/
theorem test_asmText : asmText (.enc 0x40 0 120) = "ENC src=64, dst=0, len=120" := by decide +kernel

/-! ## The permutation core: sections 3 and 5.1 -/

theorem test_subBytes : subBytes (Block.ofHex 0x193de3bea0f4e22b9ac68d2ae9f84808) =
    Block.ofHex 0xd42711aee0bf98f1b8b45de51e415230 := by decide +kernel
theorem test_shiftRows : shiftRows (Block.ofHex 0xd42711aee0bf98f1b8b45de51e415230) =
    Block.ofHex 0xd4bf5d30e0b452aeb84111f11e2798e5 := by decide +kernel
theorem test_mixColumns : mixColumns (Block.ofHex 0xd4bf5d30e0b452aeb84111f11e2798e5) =
    Block.ofHex 0x046681e5e0cb199a48f8d37a2806264c := by decide +kernel
theorem test_aesRound :
    aesRound (Block.ofHex 0x193de3bea0f4e22b9ac68d2ae9f84808) (Block.ofHex 0xa0fafe1788542cb123a339392a6c7605) =
      Block.ofHex 0xa49c7ff2689f352b6b5bea43026a5049 := by decide +kernel
theorem test_initSeeds_s6 : (initSeeds (Block.ofHex 0x000102030405060708090a0b0c0d0e0f)
    (Block.ofHex 0x101112131415161718191a1b1c1d1e1f)).s6 = rep (Block.ofHex 0xdb3c1a5669c729f628183b497fb826d2) := by
  decide +kernel

/-! ## One step of each command: sections 5 to 10 -/

/-- The lanes of section 5.3, after INIT. -/
def initLanesKat : Lanes :=
  ⟨lane 0xa4fc1ad9a72942fb88bd2cabbba6509a 0x80a40e392fc71084209b6c3319bdc6cc,
   lane 0x380f435cf801763b1f0c2a2f7212052d 0x73796607b59b1b650ee91c152af1f18a,
   lane 0x6ee1de433ea877fa33bc0782abff2dcb 0xb9fab2ab496e16d1facaffd5453cbf14,
   lane 0x85f94b0d4263bfa86fdf45a603d8b6ac 0x90356c8cadbaa2c969001da02e3feca0,
   lane 0x09bd69ad3730174bcd2ce9a27cd1357e 0xe610b45125796a4fcf1708cef5c4f718,
   lane 0xfcdeb0cf0a87bf442fc82383ddb0f6d6 0x61ad32a4694d6f3cca313a2d3f4687aa,
   lane 0x571c207988659e2cdfbdaae77f4f37e3 0x32e6094e217573bf91fb28c145a3efa8,
   lane 0xca549badf8faa58222412478598651cf 0x3407279a54ce76d2e2e8a90ec5d108eb⟩

/-- The state after INIT of the first known answer. -/
def afterInit : State := { core64 .ad .none with lanes := initLanesKat }

/-- The lanes of section 6.3 after the first block of the second known answer. -/
def blockOneKat : Lanes :=
  ⟨lane 0x7e2f46f93e366bd19411a7a3362f374f 0x1c9ceeaacd7de0974a58b118ae69e5e3,
   lane 0xfde38ac38eb4204b900894ac9e0f9074 0xf1e120261004c8634c6d1c42c70bd35f,
   lane 0xce213dfbeeea2f19664da16d864b3d87 0xc2e2998b2616fc5c4c915788b7048614,
   lane 0x905278c644d53f5c53ee248cac47d56d 0x04cfb360784005adae503b6d3e1e2d11,
   lane 0xae087e8bf4dc8881d6181c318bdb7d97 0x7922ef9371645754aed23b891827533f,
   lane 0x523ac42eaf544f1003da2b494b456c66 0x7520fc5f0e9ffc7c63dcfd32d27655fb,
   lane 0xc574d766a71630b48361d6d927400a97 0x1e79630ead66406a32dc91b5315ea754,
   lane 0x3fff537d42567db153a41925cc4814af 0x80ccbc17897b9b1d0c03d74a64e3af8a⟩

/-- The lanes of section 6.3 after the partial block: the same in both directions. -/
def closedKat : Lanes :=
  ⟨lane 0xf538bcf6bc67fdf482b99cbc5e68c802 0x8a7a9a329852c39b5b8a65213353a2c9,
   lane 0xd77a53876f358fb78fd055f9deab6005 0x11cafb8cbab1594f4ba2e0f921dddc16,
   lane 0x5a800d97c21db43ef1f085b88531fa05 0xc5cca3987cf9c4b62fd73682f726070d,
   lane 0x2a8d29db0246abfe081d8dfe11e10231 0x267372fc6c5fbc1055e5f99eb093304a,
   lane 0x650d336109237cf31e3eea92a7b4ac85 0xf978506debd87ebc13f0d390b51bf96b,
   lane 0x04fe0608e48dffe2db478d1a6288a040 0x505849d5a6bd547900e11056c1ac2f8a,
   lane 0x670f5bd1cd00ed5a1128bea97e44672b 0x12ba9c23420ac473378c190b1176bbd1,
   lane 0xdf5ec636845555bb08c56c0cd3821d1c 0x90608473deb6d62e5b844788ec9da8d6⟩

/-- The last 56 bytes of the plaintext of the second known answer at an address. -/
def plainKat (m : Memory) (addr : Nat) : Memory :=
  Memory.writeBytes m addr ((List.range 56).map fun k => BitVec.ofNat 8 (4 + k % 4))

/-- The last 56 bytes of its ciphertext at an address (section 6.3). -/
def cipherKat (m : Memory) (addr : Nat) : Memory :=
  Memory.writeBytes m addr
    ((Block.ofHex 0xbc926360696739e05520647e390989e1).bytes ++ (Block.ofHex 0xeb5fd42f99678a0276a498f8c454761c).bytes ++
      (Block.ofHex 0x9d6aacb647ad56be62b29c22cd4b5761).bytes ++
      (Block.ofHex 0xb38f43d5a5ee062f0000000000000000).bytes.take 8)

/-- The lanes of section 8.4 after the 35 bytes of the MAC known answer. -/
def macKat : Lanes :=
  ⟨lane 0xbc7be61ea6c21d6ea49616f37e500d9d 0x7fd3a4e1fd4efb32a32a75336e730164,
   lane 0x71db3a7ade0fc535f810b4c50e6d0e64 0x3da97c3b937b7b3f03f1b773ee636450,
   lane 0x072363284c9ced3499b4afdbe90212fd 0x43fbd3fc8c27d87a08c913ab90deae12,
   lane 0xbf22039f61d69dbafba4c1581624d73d 0x3796e4fcad8881f46cedd8c2f24fc23c,
   lane 0x5525ec508c2cfc9bc089fa1f99e19a35 0x82f303105e50c0d0d9d5fcd114b676d2,
   lane 0x827b02db10aee2adf7c7de34e0769c75 0x53b23b0f4b7dad7c30dd329d9a030dad,
   lane 0xf8cae7056f665093e0134976e761c37a 0x1931387bb2f14a6ee9be6c5f1667b460,
   lane 0x49525f39fa27376ffddba530e341260a 0x293439a9dcfdad8460dddc9622f13086⟩

/-- P1 step 2. -/
theorem test_setkey_loads :
    let t := nextOf (exec (.setkey 0 16) { State.reset with ibuf := stored [] 0 0x000102030405060708090a0b0c0d0e0f })
    t.key = Block.ofHex 0x000102030405060708090a0b0c0d0e0f ∧ t.status.word = 0x20 := by decide +kernel
/-- Section 10.3, E_KEY_LEN. -/
theorem test_setkey_length : (nextOf (exec (.setkey 0 17) State.reset)).status.word = 0xe00 := by decide +kernel

/-- P1 step 4 and section 5.3. -/
theorem test_init_lanes :
    let t := nextOf (exec (.init 0x10 16) { core64 .idle .none with
      key := Block.ofHex 0x000102030405060708090a0b0c0d0e0f, ibuf := stored [] 0x10 0x101112131415161718191a1b1c1d1e1f })
    t.lanes = initLanesKat ∧ t.status.word = 0x21 := by decide +kernel
/-- Section 9.4: INIT destroys a plaintext that was not verified. -/
theorem test_init_wipes : (nextOf (exec (.init 0 16) locked64)).obuf = [] ∧
    (nextOf (exec (.init 0 16) locked64)).status.word = 0x21 := by decide +kernel

/-- Section 6.2, lanes 0, 4 and 7. -/
theorem test_ad_padded :
    let t := nextOf (exec (.ad 0x20 8) { afterInit with ibuf := stored [] 0x20 0x01020304010203040000000000000000 })
    t.lanes.s0 = lane 0x8600a955fe8a9e5f7e89e673ec9b6899 0x0c3600805122182430858d038969338d ∧
    t.lanes.s4 = lane 0xd5e471a34f3e5b5a544a000c16bfab2a 0x6594487a1b07b78e3429585aec6c1f3c ∧
    t.lanes.s7 = lane 0x166bfd83c9c9f542547fd810c6feae06 0x389bacc954785040ec76388d674a65a8 ∧
    t.adLen = 8 ∧ t.status.word = 0x22 := by decide +kernel
/-- Section 10.3: with BUF_BYTES = 64, `AD src=65,len=0` is out of range and `AD src=64,len=0` is not. -/
theorem test_ad_range : (nextOf (exec (.ad 65 0) afterInit)).status.word = 0x1e21 ∧
    (nextOf (exec (.ad 64 0) afterInit)).status.word = 0x21 := by decide +kernel

/-- Section 6.3, block 1: 56 bytes of ciphertext, the lanes, STATUS. -/
theorem test_enc_partial :
    let t := nextOf (exec (.enc 0 8 56) { core64 .msg .enc with lanes := blockOneKat, msgLen := 64, ibuf := plainKat [] 0 })
    t.obuf = cipherKat [] 8 ∧ t.lanes = closedKat ∧ t.msgLen = 120 ∧ t.status.word = 0x2b := by decide +kernel
/-- Section 10.5: an ENC after a partial block. -/
theorem test_enc_closed : (nextOf (exec (.enc 0 0 64) (core64 .closed .enc))).status.word = 0xa2b := by decide +kernel

/-- Sections 6.3 and 6.4: the plaintext back, the lanes of the sealing side, OBUF locked. -/
theorem test_dec_partial :
    let t := nextOf (exec (.dec 8 0 56) { core64 .msg .dec with lanes := blockOneKat, ibuf := cipherKat [] 8 })
    t.obuf = plainKat [] 0 ∧ t.lanes = closedKat ∧ t.status.word = 0x73 ∧ obufByte 0 t = 0 := by decide +kernel
/-- Section 6.5: an empty DEC sets DIR, PHASE and the lock. -/
theorem test_dec_empty : (nextOf (exec (.dec 0 0 0) afterInit)).status.word = 0x72 ∧
    (nextOf (exec (.dec 0 0 0) afterInit)).lanes = initLanesKat := by decide +kernel

/-- P1 step 5: the document's first tag. -/
theorem test_final16_tag :
    let t := nextOf (exec (.final16 0 16) afterInit)
    t.obuf = stored [] 0 0x63117dc57756e402819a82e13eca8379 ∧ t.lanes = Lanes.zero ∧ t.status.word = 0x24 := by
  decide +kernel
/-- Section 10.5: no tag is written after a DEC. -/
theorem test_final16_after_dec : (nextOf (exec (.final16 0 16) locked64)).status.word = 0xa72 ∧
    (nextOf (exec (.final16 0 16) locked64)).obuf = [(0, 7)] := by decide +kernel

/-- P1 step 8: the document's second tag. -/
theorem test_final32_tag :
    (nextOf (exec (.final32 0x10 32) afterInit)).obuf =
      stored (stored [] 0x10 0xb92c71fdbd358b8a4de70b27631ace90) 0x20 0xcffd9b9cfba82028412bac41b4f53759 := by
  decide +kernel
/-- Section 10.3, E_TAG_LEN. -/
theorem test_final32_length : (nextOf (exec (.final32 0 16) afterInit)).status.word = 0x1621 := by decide +kernel

/-- Section 9.3: the genuine tag. -/
theorem test_verify16_genuine :
    let t := nextOf (exec (.verify16 0x30 16) { afterInit with ibuf := stored [] 0x30 0x63117dc57756e402819a82e13eca8379 })
    t.status.word = 0xa4 ∧ lastCompletion t = some .ok := by decide +kernel
/-- Section 9.3: sixteen zero bytes; OBUF is cleared although no DEC wrote to it. -/
theorem test_verify16_wrong :
    let t := nextOf (exec (.verify16 0x30 16) { afterInit with obuf := [(3, 1)] })
    t.status.word = 0x124 ∧ lastCompletion t = some .authFail ∧ t.obuf = [] := by decide +kernel

/-- Section 9.1 with the 32-byte tag of section 8.2. -/
theorem test_verify32_genuine :
    let t := nextOf (exec (.verify32 0 32) { locked64 with
      lanes := closedKat, adLen := 8, msgLen := 120
      ibuf := stored (stored [] 0 0xc471876f9b4978c44f2ae1ce770cdb11) 16 0xa094ee3feca64e7afcd48bfe52c60eca })
    t.status.word = 0xa4 ∧ t.obuf = [(0, 7)] := by decide +kernel
/-- Section 9.1, cross case: the 16-byte tag followed by zeros. -/
theorem test_verify32_wrong :
    let t := nextOf (exec (.verify32 0 32) { locked64 with
      lanes := closedKat, adLen := 8, msgLen := 120, ibuf := stored [] 0 0x1aebc200804f405cab637f2adebb6d77 })
    t.status.word = 0x124 ∧ t.obuf = [] := by decide +kernel

/-- P5 step 7: the document's MAC tag. -/
theorem test_macfinal16_tag :
    (nextOf (exec (.macfinal16 0 16) { core64 .msg .none with lanes := macKat, adLen := 35 })).obuf =
      stored [] 0 0x6873ee34e6b5c59143b6d35c5e4f2c6e := by decide +kernel
/-- Section 10.5: an empty ENC makes the operation no MAC. -/
theorem test_macfinal16_after_enc : (nextOf (exec (.macfinal16 0 16) (core64 .msg .enc))).status.word = 0xa2a := by
  decide +kernel

/-- P5 step 11. -/
theorem test_macfinal32_tag :
    (nextOf (exec (.macfinal32 0x10 32) { core64 .msg .none with lanes := macKat, adLen := 35 })).obuf =
      stored (stored [] 0x10 0xafcba3fc2d63c8d6c7f2d63f3ec8fbbb) 0x20 0xaf022e15ac120e78ffa7755abccd959c := by
  decide +kernel
/-- Section 10.3, E_TAG_LEN. -/
theorem test_macfinal32_length : (nextOf (exec (.macfinal32 0 31) afterInit)).status.word = 0x1621 := by decide +kernel

/-- Section 9.5: everything cleared, from the middle of a decryption. -/
theorem test_zeroize_clears : (nextOf (exec .zeroize locked64)).status.word = 0 ∧
    (nextOf (exec .zeroize locked64)).obuf = [] := by decide +kernel
/-- Sections 9.5 and 10.6: FAULT and CAUSE stay. -/
theorem test_zeroize_keeps_fault : (nextOf (exec .zeroize faulted64)).status.word = 0x1600 ∧
    lastCompletion (nextOf (exec .zeroize faulted64)) = some .ok := by decide +kernel

/-- Section 10.7, with 64 bytes: a write outside is ignored, one at the last byte is stored, a read outside gives 00. -/
theorem test_host_edges :
    ibufWrite 64 0xaa (core64 .idle .none) = core64 .idle .none ∧
    (ibufWrite 63 0xbb (core64 .idle .none)).ibuf = [(63, 0xbb)] ∧ obufByte 64 (core64 .idle .none) = 0 := by
  decide +kernel

/-! ## Witnesses: a state and operands that meet the hypotheses of each statement, every clause at its edge -/

theorem witness_DecodeOfEncode : (Instr.dec 65535 65535 65535).wellFormed = true := by decide
theorem witness_EncodeOfDecode : decode 0xffffffffffff0004 = .ok (.enc 65535 65535 65535) := by decide
theorem witness_DecodeAgreesWithMatchAndMask :
    (0xffff0000ffff0001 : BitVec 64) &&& Row.setkey.maskWord = Row.setkey.matchWord ∧
    (0xffffffffffff0004 : BitVec 64) &&& Row.enc.maskWord = Row.enc.matchWord := by decide
theorem witness_EncodedWordIsTheSumOfItsFields : (Instr.enc 65535 0 1).wellFormed = true := by decide
/-- The first opcode without a command. -/
theorem witness_IllegalWordFaults : State.reset.status.fault = false ∧
    ∀ row : Row, (0x0d : BitVec 64) &&& row.maskWord ≠ row.matchWord :=
  ⟨rfl, fun row => by cases row <;> decide⟩

/-- A core whose host is about to issue ZEROIZE and then to read STATUS. -/
def hosted : State := { core64 .ad .none with pending := [.command 0x0c, .statusRead] }

theorem step_hosted : step hosted = .next (nextOf (exec .zeroize { hosted with pending := [.statusRead] })) :=
  exec_nextOf .zeroize { hosted with pending := [.statusRead] }

theorem witness_StepRunsTheDecodedCommand :
    hosted.pending = .command 0x0c :: [.statusRead] ∧ decode 0x0c = .ok .zeroize := by decide
/-- A transaction that returns something and one that returns nothing. -/
theorem witness_OutputsOfATransaction :
    (∃ t, hosted.pending = .command 0x0c :: [.statusRead] ∧ step hosted = .next t) ∧
    ∃ t, ({ hosted with pending := [.reset] } : State).pending = .reset :: [] ∧
      step { hosted with pending := [.reset] } = .next t :=
  ⟨⟨_, rfl, step_hosted⟩, _, rfl, rfl⟩
/-- The last address of the buffer and the first beyond it. -/
theorem witness_IbufWriteWritesOneByte : Memory.wf (core64 .ad .none).ibuf = true ∧
    (63 : BitVec 16).toNat < (core64 .ad .none).config.bufBytes ∧
    (core64 .ad .none).config.bufBytes ≤ (64 : BitVec 16).toNat ∧
    ∃ t u, (∀ w, Transaction.statusRead ≠ .command w) ∧ transact .statusRead (core64 .ad .none) = .next t ∧
      transact .statusRead { core64 .ad .none with ibuf := [(0, 1)] } = .next u :=
  ⟨rfl, by decide, by decide, _, _, nofun, rfl, rfl⟩
theorem witness_ResetTransactionRestoresReset : ∃ t, faulted64.status.fault = true ∧
    Transaction.command 0x0c ≠ .reset ∧ transact (.command 0x0c) faulted64 = .next t :=
  ⟨_, rfl, nofun, exec_nextOf .zeroize faulted64⟩
theorem witness_EveryStepAnswersANextState : State.reset.pending = [] := rfl
theorem witness_ObufReadObeysTheLock : locked64.status.obufLock = true ∧
    (core64 .ad .none).config.bufBytes ≤ (64 : BitVec 16).toNat ∧
    (core64 .ad .none).status.obufLock = false ∧ (63 : BitVec 16).toNat < (core64 .ad .none).config.bufBytes := by decide
theorem witness_BufferReadsAndWritesByByte : Memory.wf [(3, 1), (5, 2)] = true ∧ 1 < [(7 : Byte), 0].length ∧
    (3 < 4 ∨ 4 + [(7 : Byte), 0].length ≤ 3) ∧ (6 < 4 ∨ 4 + [(7 : Byte), 0].length ≤ 6) := by decide

/-! ### The invariant -/

theorem witness_ResetMeetsTheInvariant : (Config.mk 64).wf = true ∧ (Config.mk 65536).wf = true := by decide

/-- The invariant holds in the middle of a decryption, OBUF locked. -/
theorem locked64_inv : Inv locked64 :=
  ⟨⟨by decide, by decide, by decide, by decide, by decide⟩, ⟨by decide, by decide⟩,
    ⟨by decide, by decide, by decide, by decide, by decide, by decide, by decide⟩⟩

theorem witness_EveryStepKeepsTheInvariant : ∃ t, Inv locked64 ∧ step locked64 = .next t := ⟨_, locked64_inv, rfl⟩
theorem witness_EveryRunFromResetMeetsTheInvariant : (Config.mk 64).wf = true ∧
    ∃ t, core.run 1 { State.reset with config := ⟨64⟩, pending := [.command 0x0c] } = .next t := by
  have h : step { State.reset with config := ⟨64⟩, pending := [.command 0x0c] } =
      .next (nextOf (exec .zeroize { State.reset with config := ⟨64⟩ })) :=
    exec_nextOf .zeroize { State.reset with config := ⟨64⟩ }
  exact ⟨by decide, _, core_run_succ 0 h⟩

/-! ### The permutation core -/

theorem witness_ShiftRowsAndMixColumnsByByte : 3 < 4 ∧ 0 < 4 := by decide
/-- Two register files that agree on instance 0 and differ on instance 1. -/
theorem witness_InstancesDoNotMixInUpdate :
    let s := Lanes.zero
    let u := { Lanes.zero with s0 := ⟨0, 1⟩ }
    s ≠ u ∧ inst s.s0 0 = inst u.s0 0 ∧ inst s.s1 0 = inst u.s1 0 ∧ inst s.s2 0 = inst u.s2 0 ∧ inst s.s3 0 = inst u.s3 0 ∧
    inst s.s4 0 = inst u.s4 0 ∧ inst s.s5 0 = inst u.s5 0 ∧ inst s.s6 0 = inst u.s6 0 ∧ inst s.s7 0 = inst u.s7 0 ∧
    inst (⟨0, 2⟩ : Lane) 0 = inst (⟨0, 3⟩ : Lane) 0 ∧ inst Lane.zero 0 = inst Lane.zero 0 := by decide

/-- What each clause of `FaultsInOrder` supposes, met by `i0` (out of sequence), `i1` (wrong fixed size), `i2` (out of
range) and, where the command has a counter, by `i3` in a state with the counter at its end. -/
def FaultsWitnessed (i0 i1 i2 : Instr) (s : State) : Prop :=
  ¬mayFollow i0 (core64 .closed .none).status ∧
  (mayFollow i1 s.status ∧ ∃ n c, fixedSize i1 = some (n, c) ∧ i1.len ≠ n) ∧
  mayFollow i2 s.status ∧ (∀ n c, fixedSize i2 = some (n, c) → i2.len = n) ∧ ¬inRange i2 s

theorem witness_SetkeyLoadsTheKey : (core64 .done .none).status.fault = false ∧
    (mayFollow (.setkey 48 16) (core64 .done .none).status ∧ 48 + 16 ≤ (core64 .done .none).config.bufBytes) ∧
    FaultsWitnessed (.setkey 0 16) (.setkey 0 15) (.setkey 49 16) (core64 .done .none) := by
  simp [FaultsWitnessed, mayFollow, fixedSize, inRange, core64, Instr.len, Status.zero]

/-- Both cases of the wipe, and every fault: out of sequence means that there is no key. -/
theorem witness_InitStartsAnOperation : locked64.status.fault = false ∧
    (mayFollow (.init 48 16) locked64.status ∧ 48 + 16 ≤ locked64.config.bufBytes ∧ locked64.status.obufLock = true) ∧
    (mayFollow (.init 48 16) (core64 .ad .none).status ∧ (core64 .ad .none).status.obufLock = false) ∧
    ¬mayFollow (.init 0 16) State.reset.status ∧
    (mayFollow (.init 0 17) locked64.status ∧ fixedSize (.init 0 17) = some (16, .nonceLen) ∧ (Instr.init 0 17).len ≠ 16) ∧
    (mayFollow (.init 49 16) locked64.status ∧ fixedSize (.init 49 16) = some (16, .nonceLen) ∧
      (Instr.init 49 16).len = 16 ∧ ¬inRange (.init 49 16) locked64) := by
  simp [mayFollow, fixedSize, inRange, core64, locked64, Instr.len, State.reset, Status.zero]

/-! ### The duplex engine -/

/-- `core64` with a counter one byte short of MAX_LEN. -/
def nearlyFull (ph : Phase) (d : Dir) : State := { core64 ph d with adLen := 2 ^ 61 - 2, msgLen := 2 ^ 61 - 2 }

/-- The largest range and count that are carried out, and the first that is not. -/
theorem witness_AdAbsorbsItsBytes : (nearlyFull .ad .none).status.fault = false ∧
    (mayFollow (.ad 63 1) (nearlyFull .ad .none).status ∧ inRange (.ad 63 1) (nearlyFull .ad .none) ∧
      counterFits (.ad 63 1) (nearlyFull .ad .none)) ∧
    ¬mayFollow (.ad 0 0) (core64 .msg .none).status ∧ ¬inRange (.ad 64 1) (nearlyFull .ad .none) ∧
    fixedSize (.ad 64 1) = none ∧
    (inRange (.ad 62 2) (nearlyFull .ad .none) ∧ ¬counterFits (.ad 62 2) (nearlyFull .ad .none)) := by
  simp [mayFollow, fixedSize, inRange, counterFits, core64, nearlyFull, Status.zero]

theorem witness_EncEncryptsItsBytes : (nearlyFull .msg .enc).status.fault = false ∧ Memory.wf (nearlyFull .msg .enc).obuf = true ∧
    (mayFollow (.enc 63 0 1) (nearlyFull .msg .enc).status ∧ inRange (.enc 63 0 1) (nearlyFull .msg .enc) ∧
      counterFits (.enc 63 0 1) (nearlyFull .msg .enc)) ∧
    ¬mayFollow (.enc 0 0 0) (core64 .closed .enc).status ∧ ¬inRange (.enc 0 64 1) (nearlyFull .msg .enc) ∧
    (inRange (.enc 0 62 2) (nearlyFull .msg .enc) ∧ ¬counterFits (.enc 0 62 2) (nearlyFull .msg .enc)) := by
  simp [mayFollow, inRange, counterFits, core64, nearlyFull, Status.zero, State.reset, Memory.wf, Memory.wfFrom]

theorem witness_DecDecryptsItsBytes : (nearlyFull .msg .dec).status.fault = false ∧ Memory.wf (nearlyFull .msg .dec).obuf = true ∧
    (mayFollow (.dec 63 0 1) (nearlyFull .msg .dec).status ∧ inRange (.dec 63 0 1) (nearlyFull .msg .dec) ∧
      counterFits (.dec 63 0 1) (nearlyFull .msg .dec)) ∧
    ¬mayFollow (.dec 0 0 0) (core64 .msg .enc).status ∧ ¬inRange (.dec 64 0 1) (nearlyFull .msg .dec) ∧
    (inRange (.dec 62 62 2) (nearlyFull .msg .dec) ∧ ¬counterFits (.dec 62 62 2) (nearlyFull .msg .dec)) := by
  simp [mayFollow, inRange, counterFits, core64, nearlyFull, Status.zero, State.reset, Memory.wf, Memory.wfFrom]

/-- The shortest and the longest partial block, and the two lengths that are none. -/
theorem witness_PartialBlockRoundTrip :
    ([9] : List Byte).length = 1 ∧ (0 < 1 ∧ 1 < 64) ∧ (zeros 63).length = 63 ∧ (0 < 63 ∧ 63 < 64) ∧
    ¬(0 < 0 ∧ 0 < 64) ∧ ¬(0 < 64 ∧ 64 < 64) := by decide

/-- A whole block and one byte, for each of the three commands (with 128-byte buffers). -/
theorem witness_DataCommandsChainAtBlockBoundaries :
    let s := fun ph d => { core64 ph d with config := Config.mk 128 }
    64 % 64 = 0 ∧ (s .ad .none).status.fault = false ∧
    (mayFollow (.ad 63 (64 + 1)) (s .ad .none).status ∧ inRange (.ad 63 (64 + 1)) (s .ad .none) ∧
      counterFits (.ad 63 (64 + 1)) (s .ad .none)) ∧
    (mayFollow (.enc 63 0 (64 + 1)) (s .ad .none).status ∧ inRange (.enc 63 0 (64 + 1)) (s .ad .none) ∧
      counterFits (.enc 63 0 (64 + 1)) (s .ad .none)) ∧
    mayFollow (.dec 0 63 (64 + 1)) (s .msg .dec).status ∧ inRange (.dec 0 63 (64 + 1)) (s .msg .dec) ∧
      counterFits (.dec 0 63 (64 + 1)) (s .msg .dec) := by
  simp [mayFollow, inRange, counterFits, core64, Status.zero, State.reset]

/-- One byte encrypted in `s`, and the byte that came out decrypted in `u`. -/
theorem witness_DecUndoesEnc :
    let s := { core64 .msg .enc with ibuf := [(5, 0x41)] }
    let t := nextOf (exec (.enc 5 9 1) s)
    let u := { core64 .msg .dec with ibuf := t.obuf }
    let v := nextOf (exec (.dec 9 2 1) u)
    s.status.fault = false ∧ t.status.fault = false ∧ exec (.enc 5 9 1) s = .next t ∧ u.status.fault = false ∧
    v.status.fault = false ∧ exec (.dec 9 2 1) u = .next v ∧ Memory.wf s.obuf = true ∧ Memory.wf u.obuf = true ∧
    u.lanes = s.lanes ∧ u.msgLen = s.msgLen ∧ ∀ k, k < 1 → Memory.read u.ibuf (9 + k) = Memory.read t.obuf (9 + k) :=
  ⟨rfl, by decide +kernel, exec_nextOf _ _, rfl, by decide +kernel, exec_nextOf _ _, rfl, rfl, rfl, rfl, fun _ _ => rfl⟩

/-- The lengths 0, 64 and 65 are no, one and two blocks; each of the five kinds of command is carried out somewhere. -/
theorem witness_UpdateStepsOfEveryCommand :
    let s := core64 .ad .none
    (let t := nextOf (exec (.ad 0 64) s)
     s.status.fault = false ∧ exec (.ad 0 64) s = .next t ∧ t.status.fault = false ∧ 64 ≤ 64 * 1 ∧ 64 * 1 < 64 + 64) ∧
    (let t := nextOf (exec (.enc 64 0 0) s)
     exec (.enc 64 0 0) s = .next t ∧ t.status.fault = false ∧ 0 ≤ 64 * 0 ∧ 64 * 0 < 0 + 64) ∧
    (let u := { s with config := ⟨128⟩ }
     let t := nextOf (exec (.dec 0 63 65) u)
     exec (.dec 0 63 65) u = .next t ∧ u.status.fault = false ∧ t.status.fault = false ∧ 65 ≤ 64 * 2 ∧
       64 * 2 < 65 + 64) ∧
    (let t := nextOf (exec (.init 48 16) s)
     exec (.init 48 16) s = .next t ∧ t.status.fault = false) ∧
    (Instr.verify32 0 32).row = .verify32 ∧ (Instr.macfinal16 0 16).row = .macfinal16 ∧
    ∃ t, exec (.setkey 0 16) (core64 .done .none) = .next t :=
  ⟨⟨rfl, exec_nextOf _ _, by decide +kernel, by decide, by decide⟩,
    ⟨exec_nextOf _ _, by decide +kernel, by decide, by decide⟩,
    ⟨exec_nextOf _ _, rfl, by decide +kernel, by decide, by decide⟩, ⟨exec_nextOf _ _, by decide +kernel⟩, rfl, rfl,
    _, exec_nextOf _ _⟩

/-- The table of R237. -/
theorem test_updateSteps : updateSteps (.ad 0 129) = 3 ∧ updateSteps (.macfinal32 0 32) = 15 ∧ updateSteps (.init 0 16) = 10 := by
  decide

/-! ### The finalizer and verification -/

theorem witness_LengthBlockHoldsBothLengths : 2 ^ 61 - 1 ≤ 2 ^ 61 - 1 ∧ 7 < 8 ∧
    lengthBlock 8 120 = lengthBlock 8 120 := ⟨Nat.le_refl _, by decide, rfl⟩
theorem witness_MacTagIgnoresInstanceOne : (⟨5, 0⟩ : Lane).inst0 = (⟨5, 9⟩ : Lane).inst0 := rfl

/-- FINAL16 and FINAL32, and the four MAC and AEAD forms' faults, at the edges of the buffer. -/
theorem witness_FinalWritesTheTag : (core64 .msg .enc).status.fault = false ∧ Memory.wf (core64 .msg .enc).obuf = true ∧
    (mayFollow (.final16 48 16) (core64 .msg .enc).status ∧ 48 + 16 ≤ (core64 .msg .enc).config.bufBytes) ∧
    (mayFollow (.final32 32 32) (core64 .msg .enc).status ∧ 32 + 32 ≤ (core64 .msg .enc).config.bufBytes) ∧
    (¬mayFollow (.final16 0 16) (core64 .idle .none).status ∧ ¬mayFollow (.final32 0 32) (core64 .msg .dec).status) ∧
    (fixedSize (.final16 0 32) = some (16, .tagLen) ∧ fixedSize (.final32 0 16) = some (32, .tagLen)) ∧
    ¬inRange (.final16 49 16) (core64 .msg .enc) ∧ ¬inRange (.final32 33 32) (core64 .msg .enc) := by
  simp [mayFollow, inOperation, fixedSize, inRange, core64, Status.zero, State.reset, Memory.wf, Memory.wfFrom]

theorem witness_MacFinalWritesTheTag : (core64 .msg .none).status.fault = false ∧ Memory.wf (core64 .msg .none).obuf = true ∧
    (mayFollow (.macfinal16 48 16) (core64 .msg .none).status ∧ 48 + 16 ≤ (core64 .msg .none).config.bufBytes) ∧
    (mayFollow (.macfinal32 32 32) (core64 .msg .none).status ∧ 32 + 32 ≤ (core64 .msg .none).config.bufBytes) ∧
    (¬mayFollow (.macfinal16 0 16) (core64 .closed .none).status ∧ ¬mayFollow (.macfinal32 0 32) (core64 .msg .enc).status) ∧
    (fixedSize (.macfinal16 0 17) = some (16, .tagLen) ∧ fixedSize (.macfinal32 0 31) = some (32, .tagLen)) ∧
    ¬inRange (.macfinal16 49 16) (core64 .msg .none) ∧ ¬inRange (.macfinal32 33 32) (core64 .msg .none) := by
  simp [mayFollow, fixedSize, inRange, core64, Status.zero, State.reset, Memory.wf, Memory.wfFrom]

theorem witness_TagEqualExactlyWhenEqual : ([1, 2] : List Byte).length = ([1, 3] : List Byte).length := rfl

/-- The genuine tags: the IBUF of `test_verify16_genuine` and of `test_verify32_genuine`. -/
theorem witness_VerifyChecksTheTag_genuine :
    let s := { afterInit with ibuf := stored [] 0x30 0x63117dc57756e402819a82e13eca8379 }
    let u := { locked64 with
      lanes := closedKat, adLen := 8, msgLen := 120
      ibuf := stored (stored [] 0 0xc471876f9b4978c44f2ae1ce770cdb11) 16 0xa094ee3feca64e7afcd48bfe52c60eca }
    (s.status.fault = false ∧ mayFollow (.verify16 48 16) s.status ∧ 48 + 16 ≤ s.config.bufBytes ∧
      (finalize16 s.lanes s.adLen s.msgLen).bytes = Memory.readBytes s.ibuf 48 16) ∧
    u.status.fault = false ∧ mayFollow (.verify32 0 32) u.status ∧ 0 + 32 ≤ u.config.bufBytes ∧
      (finalize32 u.lanes u.adLen u.msgLen).bytes = Memory.readBytes u.ibuf 0 32 :=
  ⟨⟨rfl, ⟨.inl rfl, .inl rfl⟩, by decide, by decide +kernel⟩, rfl, ⟨.inr (.inl rfl), .inr rfl⟩, by decide,
    by decide +kernel⟩

/-- Wrong tags, the last byte alone being wrong, and the faults. -/
theorem witness_VerifyChecksTheTag_wrong :
    let s := { afterInit with ibuf := stored [] 0x30 0x63117dc57756e402819a82e13eca8378 }
    (s.status.fault = false ∧ mayFollow (.verify16 48 16) s.status ∧ 48 + 16 ≤ s.config.bufBytes ∧
      Memory.read s.ibuf (48 + 15) ≠ Block.byte (finalize16 s.lanes s.adLen s.msgLen) 15) ∧
    (mayFollow (.verify32 32 32) s.status ∧ 32 + 32 ≤ s.config.bufBytes ∧
      Memory.read s.ibuf (32 + 0) ≠ laneByte (finalize32 s.lanes s.adLen s.msgLen) 0) ∧
    (¬mayFollow (.verify16 0 16) (core64 .msg .enc).status ∧ ¬mayFollow (.verify32 0 32) (core64 .done .none).status) ∧
    (fixedSize (.verify16 0 0) = some (16, .tagLen) ∧ fixedSize (.verify32 0 33) = some (32, .tagLen)) ∧
    ¬inRange (.verify16 49 16) s ∧ ¬inRange (.verify32 33 32) s :=
  ⟨⟨rfl, ⟨.inl rfl, .inl rfl⟩, by decide, by decide +kernel⟩, ⟨⟨.inl rfl, .inl rfl⟩, by decide, by decide +kernel⟩,
    by simp [mayFollow, inOperation, core64], ⟨rfl, rfl⟩, by simp [inRange, afterInit, core64], by
      simp [inRange, afterInit, core64]⟩

/-! ### Sealing and opening: one byte of each kind, under the key and nonce of P1 -/

/-- The sealing host's buffers: nonce at 0x10, associated data at 0x20, plaintext at 0x21. -/
def sealIbuf : Memory := stored [] 0x10 0x101112131415161718191a1b1c1d1e1f ++ [(0x20, 1), (0x21, 5)]

/-- The opening host's buffers: also the tag at 0x00 and the ciphertext at 0x22. The values are the model's own, so this
is a witness and no test. -/
def openIbuf : Memory := stored [] 0 0xf94fb55d3735c9d5f1e62a710703bb7e ++ sealIbuf.take 17 ++ [(0x22, 86)]

/-- A core with 64-byte buffers, the key of P1 and the given IBUF. -/
def keyed (ibuf : Memory) : State :=
  { core64 .idle .none with key := Block.ofHex 0x000102030405060708090a0b0c0d0e0f, ibuf := ibuf }

theorem seal_obuf : (runSequence (dseal16 0x10 0x20 1 0x21 1 0 1) (keyed sealIbuf)).1.obuf =
    (0, 86) :: stored [] 1 0xf94fb55d3735c9d5f1e62a710703bb7e := by decide +kernel

theorem witness_OpenUndoesSeal :
    let s := keyed sealIbuf
    let u := keyed openIbuf
    let t := (runSequence (dseal16 0x10 0x20 1 0x21 1 0 1) s).1
    (s.status.fault = false ∧ s.status.keyValid = true ∧ u.status.fault = false ∧ u.status.keyValid = true ∧
      u.key = s.key ∧ s.config.wf = true ∧ u.config = s.config ∧ Memory.wf s.obuf = true ∧ Memory.wf u.obuf = true) ∧
    (0x10 + 16 ≤ s.config.bufBytes ∧ 0x20 + 1 ≤ s.config.bufBytes ∧ 0x21 + 1 ≤ s.config.bufBytes ∧
      0 + 1 ≤ s.config.bufBytes ∧ 1 + 16 ≤ s.config.bufBytes ∧ (0 + 1 ≤ 1 ∨ 1 + 16 ≤ 0) ∧
      0x22 + 1 ≤ s.config.bufBytes ∧ 0 + 16 ≤ s.config.bufBytes ∧ 63 + 1 ≤ s.config.bufBytes) ∧
    (∀ k, k < 16 → Memory.read u.ibuf (0x10 + k) = Memory.read s.ibuf (0x10 + k)) ∧
    (∀ k, k < 1 → Memory.read u.ibuf (0x20 + k) = Memory.read s.ibuf (0x20 + k)) ∧
    (∀ k, k < 1 → Memory.read u.ibuf (0x22 + k) = Memory.read t.obuf (0 + k)) ∧
    ∀ k, k < 16 → Memory.read u.ibuf (0 + k) = Memory.read t.obuf (1 + k) := by
  refine ⟨⟨rfl, rfl, rfl, rfl, rfl, rfl, rfl, rfl, rfl⟩, by decide, by decide +kernel, by decide +kernel, ?_, ?_⟩
  · rw [seal_obuf]
    decide +kernel
  · rw [seal_obuf]
    decide +kernel

/-- That IBUF opens; the IBUF with the last byte of the tag wrong agrees with it elsewhere. -/
theorem witness_OpenRejectsAWrongTag :
    let u := keyed (Memory.write openIbuf 0xf 0x76)
    u.status.fault = false ∧
    (∃ g, runSequence (dopen16 0x10 0x20 1 0x22 1 0 63) { u with ibuf := openIbuf } = (g, true)) ∧
    (∀ k, k < 16 → Memory.read u.ibuf (0x10 + k) = Memory.read openIbuf (0x10 + k)) ∧
    (∀ k, k < 1 → Memory.read u.ibuf (0x20 + k) = Memory.read openIbuf (0x20 + k)) ∧
    (∀ k, k < 1 → Memory.read u.ibuf (0x22 + k) = Memory.read openIbuf (0x22 + k)) ∧
    ∃ k, k < 16 ∧ Memory.read u.ibuf (0 + k) ≠ Memory.read openIbuf (0 + k) := by
  refine ⟨rfl, ⟨_, Prod.ext rfl ?_⟩, by decide +kernel, by decide +kernel, by decide +kernel, 15, by decide +kernel⟩
  change (runSequence (dopen16 0x10 0x20 1 0x22 1 0 63) (keyed openIbuf)).2 = true
  decide +kernel

/-- The same with the 32-byte tag: opening buffers with the tag at 0x00, the nonce at 0x20, the associated data at 0x30
and the ciphertext at 0x31. -/
def openIbuf32 : Memory :=
  stored (stored (stored [] 0 0x39a3603a571d6ae80bd40723d8a979db) 0x10 0x3fce99b1ed36662eb0548aaec54496ab) 0x20
    0x101112131415161718191a1b1c1d1e1f ++ [(0x30, 1), (0x31, 86)]

theorem seal32_obuf : (runSequence (dseal32 0x10 0x20 1 0x21 1 0 1) (keyed sealIbuf)).1.obuf =
    (0, 86) :: stored (stored [] 1 0x39a3603a571d6ae80bd40723d8a979db) 0x11 0x3fce99b1ed36662eb0548aaec54496ab := by
  decide +kernel

theorem witness_OpenUndoesSeal_32 :
    let s := keyed sealIbuf
    let u := keyed openIbuf32
    let t := (runSequence (dseal32 0x10 0x20 1 0x21 1 0 1) s).1
    (u.status.fault = false ∧ u.status.keyValid = true ∧ u.key = s.key ∧ u.config = s.config ∧ Memory.wf u.obuf = true) ∧
    (1 + 32 ≤ s.config.bufBytes ∧ 0x20 + 16 ≤ s.config.bufBytes ∧ 0x30 + 1 ≤ s.config.bufBytes ∧
      0x31 + 1 ≤ s.config.bufBytes ∧ 0 + 32 ≤ s.config.bufBytes) ∧
    (∀ k, k < 16 → Memory.read u.ibuf (0x20 + k) = Memory.read s.ibuf (0x10 + k)) ∧
    (∀ k, k < 1 → Memory.read u.ibuf (0x30 + k) = Memory.read s.ibuf (0x20 + k)) ∧
    (∀ k, k < 1 → Memory.read u.ibuf (0x31 + k) = Memory.read t.obuf (0 + k)) ∧
    ∀ k, k < 32 → Memory.read u.ibuf (0 + k) = Memory.read t.obuf (1 + k) := by
  refine ⟨⟨rfl, rfl, rfl, rfl, rfl⟩, by decide, by decide +kernel, by decide +kernel, ?_, ?_⟩
  · rw [seal32_obuf]
    decide +kernel
  · rw [seal32_obuf]
    decide +kernel

/-- The last byte of the 32-byte tag wrong. -/
theorem witness_OpenRejectsAWrongTag_32 :
    let u := keyed (Memory.write openIbuf32 0x1f 0xaa)
    u.status.fault = false ∧
    (∃ g, runSequence (dopen32 0x20 0x30 1 0x31 1 0 63) { u with ibuf := openIbuf32 } = (g, true)) ∧
    (∀ k, k < 16 → Memory.read u.ibuf (0x20 + k) = Memory.read openIbuf32 (0x20 + k)) ∧
    (∀ k, k < 1 → Memory.read u.ibuf (0x30 + k) = Memory.read openIbuf32 (0x30 + k)) ∧
    (∀ k, k < 1 → Memory.read u.ibuf (0x31 + k) = Memory.read openIbuf32 (0x31 + k)) ∧
    ∃ k, k < 32 ∧ Memory.read u.ibuf (0 + k) ≠ Memory.read openIbuf32 (0 + k) := by
  refine ⟨rfl, ⟨_, Prod.ext rfl ?_⟩, by decide +kernel, by decide +kernel, by decide +kernel, 31, by decide +kernel⟩
  change (runSequence (dopen32 0x20 0x30 1 0x31 1 0 63) (keyed openIbuf32)).2 = true
  decide +kernel

theorem witness_SequencesRunAsTransactions :
    (∀ i ∈ [Instr.zeroize, Instr.setkey 0 16], i.wellFormed = true) ∧ State.reset.pending = [] ∧
    ∃ t, runSequence [.zeroize, .setkey 0 16] State.reset = (t, true) := by
  refine ⟨by decide, rfl, _, Prod.ext rfl ?_⟩
  decide +kernel

/-! ### Faults, transitions and frames -/

/-- Every clause: refused, illegal, and for a legal word each test failing alone and all passing. -/
theorem witness_FaultsComeInOrder :
    (faulted64.status.fault = true ∧ decode 0x0010000000100002 ≠ .ok .zeroize) ∧
    ((core64 .ad .none).status.fault = false ∧ decode 0x0d = .error .unknownOpcode ∧ decode 0x0c = .ok .zeroize) ∧
    decode 0x0001003f00000004 = .ok (.enc 0 63 1) ∧
    ¬mayFollow (.enc 0 63 1) (core64 .closed .enc).status ∧
    (mayFollow (.enc 0 63 1) (core64 .msg .enc).status ∧ inRange (.enc 0 63 1) (core64 .msg .enc) ∧
      counterFits (.enc 0 63 1) (core64 .msg .enc)) ∧
    ¬inRange (.enc 0 64 1) (core64 .msg .enc) ∧ ¬counterFits (.enc 0 62 2) (nearlyFull .msg .enc) := by
  refine ⟨by decide, by decide, by decide, ?_⟩
  simp [mayFollow, inRange, counterFits, core64, nearlyFull, Status.zero, State.reset]

/-- A transaction after a fault that is no Reset, the command being refused. -/
theorem witness_FaultStaysUntilReset :
    let s := { faulted64 with pending := [.command 0x0010000000100002] }
    s.status.fault = true ∧ s.pending = .command 0x0010000000100002 :: [] ∧
    Transaction.command 0x0010000000100002 ≠ .reset ∧ (∃ t, step s = .next t) ∧ decode 0x0010000000100002 ≠ .ok .zeroize :=
  ⟨rfl, rfl, nofun, ⟨_, exec_nextOf (.init 0x10 16) faulted64⟩, by decide⟩

theorem witness_AFaultRecordsOnlyItsCause :
    let t := nextOf (exec (.final16 0 15) (core64 .ad .none))
    (core64 .ad .none).status.fault = false ∧ exec (.final16 0 15) (core64 .ad .none) = .next t ∧ t.status.fault = true :=
  ⟨rfl, exec_nextOf _ _, by decide +kernel⟩

/-- A legal command that is carried out, ZEROIZE with FAULT = 1, and a command that is not legal. -/
theorem witness_TransitionsFollowTheTable :
    let t := nextOf (exec (.enc 0 0 1) (core64 .ad .none))
    ((core64 .ad .none).status.fault = false ∧ exec (.enc 0 0 1) (core64 .ad .none) = .next t ∧ t.status.fault = false) ∧
    (nextOf (exec .zeroize faulted64)).status.fault = faulted64.status.fault ∧
    ∃ u, exec (.ad 0 0) (core64 .closed .enc) = .next u ∧ ¬mayFollow (.ad 0 0) (core64 .closed .enc).status :=
  ⟨⟨rfl, exec_nextOf _ _, by decide +kernel⟩, by decide +kernel, _, exec_nextOf _ _, nofun⟩

theorem witness_SetkeyFrame : ∃ t, exec (.setkey 0 16) (core64 .done .none) = .next t := ⟨_, exec_nextOf _ _⟩
theorem witness_InitFrame : (∃ t, exec (.init 0 16) (core64 .ad .none) = .next t) ∧
    (core64 .ad .none).status.obufLock = false := ⟨⟨_, exec_nextOf _ _⟩, rfl⟩
theorem witness_AdFrame : ∃ t, exec (.ad 0 64) (core64 .ad .none) = .next t := ⟨_, exec_nextOf _ _⟩
theorem witness_EncAndDecFrame : (∃ t, exec (.enc 0 1 1) locked64 = .next t) ∧ (∃ t, exec (.dec 0 1 1) locked64 = .next t) ∧
    Memory.wf locked64.obuf = true ∧ (0 < 1 ∨ 1 + 1 ≤ 0) ∧ (2 < 1 ∨ 1 + 1 ≤ 2) :=
  ⟨⟨_, exec_nextOf _ _⟩, ⟨_, exec_nextOf _ _⟩, by decide, by decide, by decide⟩
theorem witness_TagWritersFrame :
    (∃ t, (Instr.final16 1 16).row = .final16 ∧ exec (.final16 1 16) (core64 .msg .enc) = .next t) ∧
    (∃ t, (Instr.macfinal32 1 32).row = .macfinal32 ∧ exec (.macfinal32 1 32) (core64 .ad .none) = .next t) ∧
    Memory.wf (core64 .msg .enc).obuf = true ∧ (0 < (Instr.final16 1 16).dst) ∧
    (Instr.final16 1 16).dst + (Instr.final16 1 16).len ≤ 17 :=
  ⟨⟨_, rfl, exec_nextOf _ _⟩, ⟨_, rfl, exec_nextOf _ _⟩, rfl, by decide, by decide⟩
/-- A VERIFY16 that does not answer AUTH_FAIL. -/
theorem witness_VerifyFrame :
    let s := { afterInit with ibuf := stored [] 0x30 0x63117dc57756e402819a82e13eca8379 }
    let t := nextOf (exec (.verify16 48 16) s)
    (Instr.verify16 48 16).row = .verify16 ∧ exec (.verify16 48 16) s = .next t ∧
    t.outputs ≠ s.outputs ++ [.completion .authFail] :=
  ⟨rfl, exec_nextOf _ _, by decide +kernel⟩

/-! ### Whole-machine rules -/

theorem witness_OnlyTheseChangeKeyAndIbuf :
    let s := { hosted with key := 1, ibuf := [(0, 1)] }
    let u := { s with pending := [.statusRead] }
    let t := nextOf (exec .zeroize u)
    s.pending = .command 0x0c :: [.statusRead] ∧ step s = .next t ∧ (t.key ≠ s.key ∨ t.status.keyValid ≠ s.status.keyValid) ∧
    t.ibuf ≠ s.ibuf := by
  refine ⟨rfl, ?_, by decide +kernel, by decide +kernel⟩
  exact exec_nextOf .zeroize { { hosted with key := 1, ibuf := [(0, 1)] } with pending := [.statusRead] }

theorem witness_UnverifiedPlaintextIsNeverReadable : ∃ t, locked64.status.obufLock = true ∧ step locked64 = .next t :=
  ⟨_, rfl, rfl⟩

/-- Two machines that differ in OBUF alone, asked for its first byte; and the same two reset, which opens the lock. -/
theorem witness_LockedObufCannotBeLearned :
    let s := fun p : List Transaction => { locked64 with pending := p }
    let u := fun p : List Transaction => { s p with obuf := [] }
    (∀ p, (s p).status.obufLock = true ∧ SameButObuf (s p) (u p) ∧ (s p).obuf ≠ (u p).obuf) ∧
    (∃ t v, step (s [.obufRead 0]) = .next t ∧ step (u [.obufRead 0]) = .next v) ∧
    ∃ t v, step (s [.reset]) = .next t ∧ step (u [.reset]) = .next v ∧ t.status.obufLock = false :=
  ⟨fun _ => ⟨rfl, rfl, nofun⟩, ⟨_, _, rfl, rfl⟩, _, _, rfl, rfl, rfl⟩

/-- Two machines with different keys and lanes and the same STATUS, OBUF and buffer size. -/
theorem witness_SecretsHaveNoReadPath :
    let s := { core64 .ad .none with obuf := [(0, 7)] }
    let u := { s with key := 9, lanes := initLanesKat }
    (∀ w, Transaction.obufRead 0 ≠ .command w) ∧ s.status = u.status ∧ s.obuf = u.obuf ∧ s.config = u.config ∧
    s.outputs = u.outputs ∧ s.key ≠ u.key ∧
    ∃ t v, transact (.obufRead 0) s = .next t ∧ transact (.obufRead 0) u = .next v :=
  ⟨nofun, rfl, rfl, rfl, rfl, by decide, _, _, rfl, rfl⟩

theorem witness_ExpectedTagIsNeverWritten : (Instr.final16 0 16).row = .final16 ∧ locked64.status.dir = .dec ∧
    ∃ t, exec (.final16 0 16) locked64 = .next t := ⟨rfl, rfl, _, exec_nextOf _ _⟩

/-- The three commands of length 0, at the last address allowed. -/
theorem witness_EmptyDataCommandIsANoOp :
    (mayFollow (.ad 64 0) (core64 .ad .none).status ∧ inRange (.ad 64 0) (core64 .ad .none) ∧
      counterFits (.ad 64 0) (core64 .ad .none) ∧ phaseAfter (.ad 64 0) .ad = .ad) ∧
    (mayFollow (.enc 64 64 0) (core64 .msg .enc).status ∧ inRange (.enc 64 64 0) (core64 .msg .enc) ∧
      counterFits (.enc 64 64 0) (core64 .msg .enc) ∧ phaseAfter (.enc 64 64 0) .msg = .msg ∧
      dirAfter (.enc 64 64 0) .enc = .enc) ∧
    mayFollow (.dec 64 64 0) locked64.status ∧ inRange (.dec 64 64 0) locked64 ∧ counterFits (.dec 64 64 0) locked64 ∧
      phaseAfter (.dec 64 64 0) .msg = .msg ∧ dirAfter (.dec 64 64 0) .dec = .dec ∧ locked64.status.obufLock = true := by
  simp [mayFollow, inRange, counterFits, phaseAfter, dirAfter, core64, locked64, Status.zero, State.reset]

end Sys2Proof.Tests
end

