-- ==== Sys2Proof/Proofs/State.lean ====
section
/-! PROOFS. The transition table (R28): the model's test of legality is the table's condition, and what a command's effect
leaves in PHASE and DIR is what the table says. And the state after reset (R34). -/

namespace Sys2Proof.Machine

open Sys2Proof.Statements

/-! ## The condition of a row -/

/-- The dispatch tests the condition the transition table gives (R28). -/
theorem legalNow_row_iff (i : Instr) (st : Status) : legalNow i.row st = true ↔ mayFollow i st := by
  cases i with
  | init => exact Iff.rfl
  | zeroize => exact ⟨fun _ => trivial, fun _ => rfl⟩
  | _ => exact decide_eq_true_iff

/-- Legality is the first test of a command (R86, R210), so a command out of sequence is E_SEQ whatever else is wrong with
it. -/
theorem firstFault_checks_of_not_mayFollow {i : Instr} {s : State} (h : ¬mayFollow i s.status) :
    firstFault (checks i.row i.src i.dst i.len s) = some .seq := by
  have hl : legalNow i.row s.status = false := by rwa [← legalNow_row_iff, Bool.not_eq_true] at h
  simp only [checks, hl, firstFault]

/-- A command whose tests all pass met the condition of its row. -/
theorem mayFollow_of_checks_pass {i : Instr} {s : State}
    (h : firstFault (checks i.row i.src i.dst i.len s) = none) : mayFollow i s.status :=
  (legalNow_row_iff i s.status).1 ((checks_pass_iff _ _ _ _ _).1 h).1

/-- ZEROIZE passes every test in every state (R187). -/
theorem firstFault_checks_zeroize (src dst len : Nat) (s : State) :
    firstFault (checks .zeroize src dst len s) = none := rfl

/-! ## PHASE and DIR after a command that is carried out -/

@[simp] theorem verifyTag_phase (expected given : List Byte) (s : State) :
    (verifyTag expected given s).1.status.phase = .done := by
  unfold verifyTag; split <;> rfl

@[simp] theorem verifyTag_dir (expected given : List Byte) (s : State) :
    (verifyTag expected given s).1.status.dir = .none := by
  unfold verifyTag; split <;> rfl

/-- The effect leaves the table's PHASE. Legality matters for AD alone, which at a block boundary keeps the PHASE it found:
the table's AD because AD is legal nowhere else. -/
theorem effectOf_phase {i : Instr} {s : State} (h : mayFollow i s.status) :
    (effectOf i s).1.status.phase = phaseAfter i s.status.phase := by
  cases i with
  | ad src len =>
    have had : s.status.phase = .ad := h
    simp only [effectOf, adPhase, phaseAfter, had]
  | verify16 | verify32 => exact verifyTag_phase _ _ _
  | _ => rfl

/-- The effect leaves the table's DIR. -/
theorem effectOf_dir (i : Instr) (s : State) : (effectOf i s).1.status.dir = dirAfter i s.status.dir := by
  cases i with
  | verify16 | verify32 => exact verifyTag_dir _ _ _
  | _ => rfl

/-! ## The statements -/

/-- Settles O48, by the three answers a command can give: it is refused, which the premise excludes; it records the fault
of a test, which is E_SEQ for a command out of sequence; or it is carried out, with every test passed. -/
theorem transitionsFollowTheTable : Obligations.TransitionsFollowTheTable := by
  intro i s t hstart h
  rcases exec_cases h with ⟨hf, hrow, -⟩ | ⟨-, c, hc, rfl⟩ | ⟨-, hpass, rfl⟩
  · rcases hstart with hf' | rfl
    · exact absurd hf (by simp [hf'])
    · exact absurd rfl hrow
  · refine ⟨fun hsame => ?_, fun hill => ?_⟩
    · rcases hstart with hf | rfl
      · exact absurd hsame (by simp [hf])
      · exact nomatch hc.symm.trans (firstFault_checks_zeroize _ _ _ s)
    · have hseq : c = .seq := Option.some.inj (hc.symm.trans (firstFault_checks_of_not_mayFollow hill))
      exact ⟨hseq, rfl, rfl⟩
  · have hlegal := mayFollow_of_checks_pass hpass
    exact ⟨fun _ => ⟨hlegal, effectOf_phase hlegal, effectOf_dir i s⟩, fun hill => absurd hlegal hill⟩

/-- The STATUS register reads 0x00000000 when every field has its zero value (R34). -/
theorem Status.word_zero : Status.zero.word = 0 := rfl

/-- Settles O16: the registers and flags are those `State.reset` writes, and a buffer that lists no byte reads 0x00
everywhere. -/
theorem resetLeavesEverythingZero : Obligations.ResetLeavesEverythingZero :=
  ⟨rfl, rfl, rfl, rfl, Status.word_zero, rfl, rfl, rfl, rfl, rfl, rfl, rfl, rfl, Memory.read_nil, Memory.read_nil⟩

end Sys2Proof.Machine
end

/-! PROOFS. The host's reads and writes (spec/20_memory.md): what IbufWrite, ObufRead and StatusRead do in each case, and
what any transaction but a Command answers (R51, R52, R55). -/

namespace Sys2Proof.Machine

/-! ## IbufWrite (R52) -/

/-- `ibufWrite` changes IBUF at most. -/
theorem ibufWrite_frame (addr : BitVec 16) (b : Byte) (s : State) :
    ibufWrite addr b s = { s with ibuf := (ibufWrite addr b s).ibuf } := by
  unfold ibufWrite; split <;> rfl

theorem ibufWrite_of_lt {addr : BitVec 16} {s : State} (b : Byte) (h : addr.toNat < s.config.bufBytes) :
    ibufWrite addr b s = { s with ibuf := Memory.write s.ibuf addr.toNat b } := if_pos h

theorem ibufWrite_of_le {addr : BitVec 16} {s : State} (b : Byte) (h : s.config.bufBytes ≤ addr.toNat) :
    ibufWrite addr b s = s := if_neg (Nat.not_lt.2 h)

/-- The byte at `addr` becomes `b`, every other byte of IBUF stays. -/
theorem read_ibufWrite {addr : BitVec 16} {s : State} (b : Byte) (hwf : Memory.wf s.ibuf = true)
    (h : addr.toNat < s.config.bufBytes) (a : Nat) :
    Memory.read (ibufWrite addr b s).ibuf a = if a = addr.toNat then b else Memory.read s.ibuf a := by
  rw [ibufWrite_of_lt b h]
  exact Memory.read_write hwf addr.toNat b a

/-! ## ObufRead (R55) -/

theorem obufByte_of_locked (addr : BitVec 16) {s : State} (h : s.status.obufLock = true) : obufByte addr s = 0 :=
  if_pos h

theorem obufByte_of_le {addr : BitVec 16} {s : State} (h : s.config.bufBytes ≤ addr.toNat) : obufByte addr s = 0 := by
  cases hl : s.status.obufLock with
  | true => exact obufByte_of_locked addr hl
  | false => simp [obufByte, hl, Nat.not_lt.2 h]

theorem obufByte_of_lt {addr : BitVec 16} {s : State} (hl : s.status.obufLock = false)
    (h : addr.toNat < s.config.bufBytes) : obufByte addr s = Memory.read s.obuf addr.toNat := by
  simp [obufByte, hl, h]

/-! ## What the host is answered -/

/-- What a transaction but a Command answers: a byte of OBUF or the STATUS word, or nothing. A Command is not described
here: it answers with its completion code. -/
def answerOf (tr : Transaction) (s : State) : List Output :=
  match tr with
  | .obufRead addr => [.byte (obufByte addr s)]
  | .statusRead => [.word s.status.word]
  | .reset | .ibufWrite _ _ | .command _ => []

/-- A transaction but a Command adds its answer to what the host observed before. -/
theorem outputs_of_transact {tr : Transaction} {s t : State} (hcmd : ∀ w, tr ≠ .command w)
    (h : transact tr s = .next t) : t.outputs = s.outputs ++ answerOf tr s := by
  cases tr with
  | command w => exact absurd rfl (hcmd w)
  | reset =>
    injection h with h
    rw [← h, resetTransaction_outputs, answerOf, List.append_nil]
  | ibufWrite addr b =>
    injection h with h
    rw [← h, ibufWrite_outputs, answerOf, List.append_nil]
  | obufRead addr => injection h with h; rw [← h]; rfl
  | statusRead => injection h with h; rw [← h]; rfl

/-- An answer is read from STATUS, OBUF and the buffer size alone. -/
theorem answerOf_congr (tr : Transaction) {s u : State} (hstatus : s.status = u.status) (hobuf : s.obuf = u.obuf)
    (hconfig : s.config = u.config) : answerOf tr s = answerOf tr u := by
  cases tr with
  | obufRead addr => simp only [answerOf, obufByte, hstatus, hobuf, hconfig]
  | statusRead => simp only [answerOf, hstatus]
  | _ => rfl

/-! ## The statements -/

/-- Settles O13. What is written is `read_ibufWrite` below BUF_BYTES and nothing from there on, whatever PHASE and FAULT
are, which `ibufWrite` does not test; and IBUF is not among what an answer is read from. -/
theorem ibufWriteWritesOneByte : Obligations.IbufWriteWritesOneByte := by
  refine ⟨fun addr b s hwf => ?_, fun s t u ibuf tr hcmd ht hu => ?_⟩
  · exact ⟨ibufWrite addr b s, rfl, ibufWrite_frame addr b s, read_ibufWrite b hwf, ibufWrite_of_le b⟩
  · have hsame : answerOf tr { s with ibuf := ibuf } = answerOf tr s := answerOf_congr tr rfl rfl rfl
    rw [outputs_of_transact hcmd ht, outputs_of_transact hcmd hu, hsame]

/-- Settles O11: `statusRead` is an answer and nothing more. -/
theorem statusReadReturnsStatus : Obligations.StatusReadReturnsStatus := fun _ => rfl

/-- Settles O14: `obufRead` is an answer and nothing more, and the byte answered is `obufByte`, case by case. -/
theorem obufReadObeysTheLock : Obligations.ObufReadObeysTheLock := fun addr s =>
  ⟨obufByte addr s, rfl, obufByte_of_locked addr, obufByte_of_le, obufByte_of_lt⟩

end Sys2Proof.Machine

/-! PROOFS. The words of the table (spec/30_encoding.md R81 to R85): what it takes to match a row is read from the fields of
the word, what it takes to be decoded as a command of the row is the same, and the words of no row are R85's. -/

namespace Sys2Proof.Machine

open Sys2Proof.Statements

/-! ## A word and its fields (R81) -/

/-- The five fields make up the whole word. -/
theorem word_eq_iff_fields (w v : BitVec 64) :
    w = v ↔ opcodeField w = opcodeField v ∧ rsvField w = rsvField v ∧ srcField w = srcField v ∧
      dstField w = dstField v ∧ lenField w = lenField v := by
  refine ⟨by rintro rfl; simp, fun ⟨hop, hrsv, hsrc, hdst, hlen⟩ => ?_⟩
  have joined (x : BitVec 64) : lenField x ++ dstField x ++ srcField x ++ rsvField x ++ opcodeField x = x := by
    simp only [lenField, dstField, srcField, rsvField, opcodeField,
      BitVec.extractLsb'_append_extractLsb'_eq_extractLsb', BitVec.extractLsb'_eq_self]
  rw [← joined w, ← joined v, hop, hrsv, hsrc, hdst, hlen]

@[simp] theorem opcodeField_and (w v : BitVec 64) : opcodeField (w &&& v) = opcodeField w &&& opcodeField v :=
  BitVec.extractLsb'_and

@[simp] theorem rsvField_and (w v : BitVec 64) : rsvField (w &&& v) = rsvField w &&& rsvField v :=
  BitVec.extractLsb'_and

@[simp] theorem srcField_and (w v : BitVec 64) : srcField (w &&& v) = srcField w &&& srcField v :=
  BitVec.extractLsb'_and

@[simp] theorem dstField_and (w v : BitVec 64) : dstField (w &&& v) = dstField w &&& dstField v :=
  BitVec.extractLsb'_and

@[simp] theorem lenField_and (w v : BitVec 64) : lenField (w &&& v) = lenField w &&& lenField v :=
  BitVec.extractLsb'_and

/-- A field under a mask that covers it or leaves it out. -/
theorem and_mask_eq_zero_iff (used : Bool) (x : BitVec 16) :
    x &&& (if used then 0 else BitVec.allOnes 16) = 0 ↔ (used = false → x = 0) := by
  cases used with
  | false => simp only [Bool.false_eq_true, if_false, BitVec.and_allOnes, forall_const]
  | true => simp

/-! ## The rows (R83, R84) -/

/-- Every field that `row` does not use is 0 in `w` (R83). ZEROIZE alone has no LEN. -/
def UnusedFieldsZero (w : BitVec 64) (row : Row) : Prop :=
  (usesSrc row = false → srcField w = 0) ∧ (usesDst row = false → dstField w = 0) ∧ (row = .zeroize → lenField w = 0)

theorem opcode_injective : Function.Injective Row.opcode := fun row row' h =>
  Option.some.inj (by rw [← rowOfOpcode_opcode row, h, rowOfOpcode_opcode])

/-- The match value of a row is its opcode with every other field 0. -/
theorem matchWord_fields (row : Row) :
    opcodeField row.matchWord = row.opcode ∧ rsvField row.matchWord = 0 ∧ srcField row.matchWord = 0 ∧
      dstField row.matchWord = 0 ∧ lenField row.matchWord = 0 := by
  cases row <;> decide

/-- The mask of a row covers OPCODE, RSV and the fields the row does not use. -/
theorem maskWord_fields (row : Row) :
    opcodeField row.maskWord = BitVec.allOnes 8 ∧ rsvField row.maskWord = BitVec.allOnes 8 ∧
      srcField row.maskWord = (if usesSrc row then 0 else BitVec.allOnes 16) ∧
      dstField row.maskWord = (if usesDst row then 0 else BitVec.allOnes 16) ∧
      lenField row.maskWord = (if decide (row ≠ .zeroize) then 0 else BitVec.allOnes 16) := by
  cases row <;> decide

/-- A word matches a row exactly when it has the row's opcode, and 0 in RSV and in the fields the row does not use. -/
theorem and_maskWord_eq_matchWord_iff (w : BitVec 64) (row : Row) :
    w &&& row.maskWord = row.matchWord ↔
      opcodeField w = row.opcode ∧ rsvField w = 0 ∧ UnusedFieldsZero w row := by
  obtain ⟨mop, mrsv, msrc, mdst, mlen⟩ := maskWord_fields row
  obtain ⟨eop, ersv, esrc, edst, elen⟩ := matchWord_fields row
  rw [word_eq_iff_fields, opcodeField_and, rsvField_and, srcField_and, dstField_and, lenField_and, mop, mrsv, msrc, mdst,
    mlen, eop, ersv, esrc, edst, elen, BitVec.and_allOnes, BitVec.and_allOnes]
  simp only [and_mask_eq_zero_iff, UnusedFieldsZero, decide_eq_false_iff_not, not_not]

/-- A word that matches two rows matches one and the same: it has one opcode. -/
theorem row_unique_of_match {w : BitVec 64} {row row' : Row} (h : w &&& row.maskWord = row.matchWord)
    (h' : w &&& row'.maskWord = row'.matchWord) : row = row' :=
  opcode_injective (((and_maskWord_eq_matchWord_iff w row).1 h).1.symm.trans ((and_maskWord_eq_matchWord_iff w row').1 h').1)

/-! ## The decoder (R84) -/

theorem exists_ite_eq_ok_iff (p : Prop) [Decidable p] (i : Instr) (r : Reject) :
    (∃ j, (if p then .ok i else .error r : Except Reject Instr) = .ok j) ↔ p := by
  by_cases h : p <;> simp [h]

/-- The operands of a row are decoded exactly when the fields it does not use are 0. -/
theorem exists_decodeRow_eq_ok_iff (w : BitVec 64) (row : Row) :
    (∃ i, decodeRow w row = .ok i) ↔ UnusedFieldsZero w row := by
  cases row with
  | enc | dec => simp [decodeRow, decodeSrcDstLen, UnusedFieldsZero, usesSrc, usesDst]
  | zeroize => simp [decodeRow, decodeNoField, exists_ite_eq_ok_iff, UnusedFieldsZero, usesSrc, usesDst]
  | setkey | init | ad | verify16 | verify32 =>
    simp [decodeRow, decodeSrcLen, exists_ite_eq_ok_iff, UnusedFieldsZero, usesSrc, usesDst]
  | final16 | final32 | macfinal16 | macfinal32 =>
    simp [decodeRow, decodeDstLen, exists_ite_eq_ok_iff, UnusedFieldsZero, usesSrc, usesDst]

/-- With the row's opcode and RSV = 0, decoding is reading the row's operands. -/
theorem decode_eq_decodeRow {w : BitVec 64} {row : Row} (hop : opcodeField w = row.opcode) (hrsv : rsvField w = 0) :
    decode w = decodeRow w row := by
  simp only [decode, hop, rowOfOpcode_opcode, hrsv, if_true]

/-- A word is decoded as a command of a row exactly when it matches the row. -/
theorem exists_decode_eq_ok_iff (w : BitVec 64) (row : Row) :
    (∃ i, decode w = .ok i ∧ i.row = row) ↔ w &&& row.maskWord = row.matchWord := by
  rw [and_maskWord_eq_matchWord_iff, ← exists_decodeRow_eq_ok_iff]
  constructor
  · rintro ⟨i, hi, rfl⟩
    obtain ⟨row, hop, hrsv, hrow⟩ := decode_eq_ok hi
    obtain ⟨rfl, -⟩ := decodeRow_eq_ok hrow
    exact ⟨hop, hrsv, i, hrow⟩
  · rintro ⟨hop, hrsv, i, hi⟩
    exact ⟨i, (decode_eq_decodeRow hop hrsv).trans hi, (decodeRow_eq_ok hi).1⟩

/-! ## Words of no row (R85) -/

/-- The opcodes in use are 0x01 to 0x0C. -/
theorem exists_opcode_iff (op : BitVec 8) : (∃ row : Row, op = row.opcode) ↔ op.toNat ≠ 0 ∧ op.toNat < 0x0D := by
  have hall : ∀ op : BitVec 8, (rowOfOpcode op).isSome = decide (op.toNat ≠ 0 ∧ op.toNat < 0x0D) := by decide
  have hrow : (∃ row : Row, op = row.opcode) ↔ (rowOfOpcode op).isSome = true := by
    rw [Option.isSome_iff_exists]
    exact exists_congr fun row => ⟨by rintro rfl; exact rowOfOpcode_opcode row, rowOfOpcode_eq_some⟩
  rw [hrow, hall, decide_eq_true_iff]

/-- A word matches no row exactly when it has the opcode of none, or RSV is not 0, or a field that the row of its opcode does
not use is not 0. -/
theorem matches_no_row_iff (w : BitVec 64) :
    (∀ row : Row, w &&& row.maskWord ≠ row.matchWord) ↔
      (¬∃ row : Row, opcodeField w = row.opcode) ∨ rsvField w ≠ 0 ∨
      ∃ row : Row, opcodeField w = row.opcode ∧ ¬UnusedFieldsZero w row := by
  simp only [ne_eq, and_maskWord_eq_matchWord_iff]
  constructor
  · intro h
    by_cases hop : ∃ row : Row, opcodeField w = row.opcode
    · obtain ⟨row, hop⟩ := hop
      by_cases hrsv : rsvField w = 0
      · exact .inr (.inr ⟨row, hop, fun hz => h row ⟨hop, hrsv, hz⟩⟩)
      · exact .inr (.inl hrsv)
    · exact .inl hop
  · rintro h row ⟨hop, hrsv, hz⟩
    rcases h with h | h | ⟨row', hop', hnz⟩
    · exact h ⟨row, hop⟩
    · exact h hrsv
    · exact hnz (opcode_injective (hop'.symm.trans hop) ▸ hz)

/-- A word of a row carries out the command decoded from it. -/
theorem commandWord_of_decode {w : BitVec 64} {i : Instr} (h : decode w = .ok i) (s : State) :
    commandWord w s = exec i s := by
  simp only [commandWord, h]

/-- A word from which no command is decoded is answered as R204 says. -/
theorem commandWord_of_no_decode {w : BitVec 64} (h : ∀ i, decode w ≠ .ok i) (s : State) :
    commandWord w s = .next (illegalCommand s) := by
  cases hd : decode w with
  | ok i => exact absurd hd (h i)
  | error r => simp only [commandWord, hd]

/-- With FAULT = 0 the answer to such a word is E_ILLEGAL. -/
theorem commandWord_illegal {w : BitVec 64} {s : State} (hf : s.status.fault = false) (h : ∀ i, decode w ≠ .ok i) :
    commandWord w s = .next (faulted .illegal s) := by
  rw [commandWord_of_no_decode h]
  rcases illegalCommand_cases s with ⟨hf', -⟩ | ⟨-, hill⟩
  · exact nomatch hf.symm.trans hf'
  · exact congrArg _ hill

/-! ## The statements -/

/-- Settles O3: to match a row and to be decoded as a command of it are the same conditions on the fields of the word, and
the opcode is one of them. -/
theorem decodeAgreesWithMatchAndMask : Obligations.DecodeAgreesWithMatchAndMask :=
  ⟨exists_decode_eq_ok_iff, fun _ _ _ => row_unique_of_match⟩

/-- Settles O6: R85's list is the negation, condition by condition, of matching a row, and a word of no row is decoded as no
command. -/
theorem illegalWordFaults : Obligations.IllegalWordFaults := by
  intro w
  constructor
  · rw [matches_no_row_iff, exists_opcode_iff]
    simp only [UnusedFieldsZero, ne_eq, not_and_or, Classical.not_imp, not_not, not_lt, or_assoc]
  · intro s hf hno
    exact commandWord_illegal hf fun i hi => hno i.row ((exists_decode_eq_ok_iff w i.row).1 ⟨i, hi, rfl⟩)

end Sys2Proof.Machine

/-! PROOFS. The faults of a command in their order (spec/30_encoding.md R86, spec/60_exceptions.md R210): the model's tests are
the rules' conditions, the first condition that fails is the cause, and when none fails the command is carried out. -/

namespace Sys2Proof.Machine

open Sys2Proof.Statements

/-! ## The tests of a command are the conditions of the rules (R206 to R208) -/

theorem requiredLen_row (i : Instr) : requiredLen i.row = fixedSize i := by cases i <;> rfl

theorem inBuffer_iff (s : State) (addr len : Nat) : inBuffer s addr len = true ↔ addr + len ≤ s.config.bufBytes :=
  decide_eq_true_iff

/-- Both range tests pass exactly when the command is in range. -/
theorem rangeTests_iff (i : Instr) (s : State) :
    (!usesSrc i.row || inBuffer s i.src i.len) = true ∧ (!usesDst i.row || inBuffer s i.dst i.len) = true ↔
      inRange i s := by
  cases i <;> simp [usesSrc, usesDst, Instr.row, Instr.src, Instr.dst, Instr.len, inBuffer_iff, inRange]

theorem counterOk_row_iff (i : Instr) (s : State) : counterOk i.row i.len s = true ↔ counterFits i s := by
  cases i with
  | ad | enc | dec => exact decide_eq_true_iff
  | _ => exact ⟨fun _ => trivial, fun _ => rfl⟩

/-! ## The first test that fails (R86, R210) -/

@[simp] theorem firstFault_cons_true (c : Cause) (l : List (Bool × Cause)) : firstFault ((true, c) :: l) = firstFault l := rfl

@[simp] theorem firstFault_cons_false (c : Cause) (l : List (Bool × Cause)) : firstFault ((false, c) :: l) = some c := rfl

/-- The tests that come after the size check. -/
def lateChecks (i : Instr) (s : State) : List (Bool × Cause) :=
  [(!usesSrc i.row || inBuffer s i.src i.len, .range), (!usesDst i.row || inBuffer s i.dst i.len, .range),
   (counterOk i.row i.len s, .length)]

/-- A command in sequence is left with its size check and the tests after it. -/
theorem firstFault_checks_of_mayFollow {i : Instr} {s : State} (h : mayFollow i s.status) :
    firstFault (checks i.row i.src i.dst i.len s) = firstFault (lengthChecks i.row i.len ++ lateChecks i s) := by
  rw [checks, (legalNow_row_iff i s.status).2 h]
  rfl

theorem firstFault_checks_of_wrong_size {i : Instr} {s : State} {n : Nat} {c : Cause} (hseq : mayFollow i s.status)
    (hfix : fixedSize i = some (n, c)) (hlen : i.len ≠ n) :
    firstFault (checks i.row i.src i.dst i.len s) = some c := by
  rw [firstFault_checks_of_mayFollow hseq, lengthChecks, requiredLen_row, hfix]
  simp [hlen]

/-- A command in sequence and of its fixed size is left with the tests after the size check. -/
theorem firstFault_checks_of_sized {i : Instr} {s : State} (hseq : mayFollow i s.status)
    (hsize : ∀ n c, fixedSize i = some (n, c) → i.len = n) :
    firstFault (checks i.row i.src i.dst i.len s) = firstFault (lateChecks i s) := by
  rw [firstFault_checks_of_mayFollow hseq]
  exact firstFault_append (lengthChecks_pass (by rwa [requiredLen_row]))

theorem firstFault_lateChecks_of_not_inRange {i : Instr} {s : State} (h : ¬inRange i s) :
    firstFault (lateChecks i s) = some .range := by
  rw [← rangeTests_iff, Classical.not_and_iff_not_or_not, Bool.not_eq_true, Bool.not_eq_true] at h
  rcases h with h | h
  · rw [lateChecks, h, firstFault_cons_false]
  · rw [lateChecks, h]
    cases !usesSrc i.row || inBuffer s i.src i.len <;> simp

theorem firstFault_lateChecks_of_inRange {i : Instr} {s : State} (h : inRange i s) :
    firstFault (lateChecks i s) = firstFault [(counterOk i.row i.len s, .length)] := by
  obtain ⟨hsrc, hdst⟩ := (rangeTests_iff i s).2 h
  rw [lateChecks, hsrc, hdst, firstFault_cons_true, firstFault_cons_true]

theorem firstFault_lateChecks_of_not_counterFits {i : Instr} {s : State} (hrange : inRange i s) (h : ¬counterFits i s) :
    firstFault (lateChecks i s) = some .length := by
  rw [← counterOk_row_iff, Bool.not_eq_true] at h
  rw [firstFault_lateChecks_of_inRange hrange, h, firstFault_cons_false]

theorem firstFault_lateChecks_of_pass {i : Instr} {s : State} (hrange : inRange i s) (h : counterFits i s) :
    firstFault (lateChecks i s) = none := by
  rw [firstFault_lateChecks_of_inRange hrange, (counterOk_row_iff i s).2 h]
  rfl

/-- With FAULT = 0 the first condition that fails is the fault recorded. -/
theorem exec_faultsInOrder (i : Instr) {s : State} (hf : s.status.fault = false) : FaultsInOrder i s :=
  ⟨fun h => exec_faults hf (firstFault_checks_of_not_mayFollow h),
   fun _ _ hfix hseq hlen => exec_faults hf (firstFault_checks_of_wrong_size hseq hfix hlen),
   fun hseq hsize h =>
    exec_faults hf ((firstFault_checks_of_sized hseq hsize).trans (firstFault_lateChecks_of_not_inRange h)),
   fun hseq hsize hrange h =>
    exec_faults hf ((firstFault_checks_of_sized hseq hsize).trans (firstFault_lateChecks_of_not_counterFits hrange h))⟩

/-! ## What a command answers -/

theorem verifyTag_code (expected given : List Byte) (s : State) :
    (verifyTag expected given s).2 = .ok ∨ (verifyTag expected given s).2 = .authFail := by
  unfold verifyTag
  split
  · exact .inl rfl
  · exact .inr rfl

/-- A command that is carried out answers OK, or AUTH_FAIL if it is a VERIFY. -/
theorem effectOf_code (i : Instr) (s : State) :
    (effectOf i s).2 = .ok ∨ (effectOf i s).2 = .authFail ∧ (i.row = .verify16 ∨ i.row = .verify32) := by
  cases i with
  | verify16 => exact (verifyTag_code _ _ s).imp_right fun h => ⟨h, .inl rfl⟩
  | verify32 => exact (verifyTag_code _ _ s).imp_right fun h => ⟨h, .inr rfl⟩
  | _ => exact .inl rfl

/-- A command none of whose conditions fails is carried out: no fault is recorded and the host is answered. -/
theorem exec_answers {i : Instr} {s : State} (hf : s.status.fault = false) (hseq : mayFollow i s.status)
    (hsize : ∀ n c, fixedSize i = some (n, c) → i.len = n) (hrange : inRange i s) (hfits : counterFits i s) :
    ∃ t c, exec i s = .next t ∧ t.status.fault = false ∧ t.outputs = s.outputs ++ [.completion c] ∧
      (c = .ok ∨ c = .authFail ∧ (i.row = .verify16 ∨ i.row = .verify32)) := by
  have hpass := (firstFault_checks_of_sized hseq hsize).trans (firstFault_lateChecks_of_pass hrange hfits)
  obtain ⟨-, -, hout, hfault, -⟩ := effectOf_frame i s
  exact ⟨_, _, exec_done hf hpass, hfault.trans hf, by rw [State.respond_outputs, hout], effectOf_code i s⟩

/-! ## FAULT = 1 and ZEROIZE (R187, R203) -/

theorem eq_zeroize_of_row {i : Instr} (h : i.row = .zeroize) : i = .zeroize := by
  cases i with
  | zeroize => rfl
  | _ => exact nomatch h

theorem exec_refused {i : Instr} {s : State} (hf : s.status.fault = true) (h : i.row ≠ .zeroize) :
    exec i s = .next (turnedAway s) := by
  rw [exec_eq_command]
  exact command_refused hf h

/-- While FAULT = 1 every word but that of ZEROIZE is refused. -/
theorem commandWord_refused {w : BitVec 64} {s : State} (hf : s.status.fault = true) (h : decode w ≠ .ok .zeroize) :
    commandWord w s = .next (turnedAway s) := by
  cases hd : decode w with
  | ok i =>
    rw [commandWord_of_decode hd]
    exact exec_refused hf fun hrow => h (eq_zeroize_of_row hrow ▸ hd)
  | error r =>
    rw [commandWord_of_no_decode (by simp [hd]), illegalCommand, if_pos hf]
    rfl

/-- ZEROIZE is performed in every state. -/
theorem exec_zeroize (s : State) : exec .zeroize s = .next ((zeroizeAll s).respond (.completion .ok)) := by
  obtain ⟨t, ht⟩ := exec_next .zeroize s
  rcases exec_cases ht with ⟨-, hrow, -⟩ | ⟨-, c, hc, -⟩ | ⟨-, -, rfl⟩
  · exact absurd rfl hrow
  · exact nomatch hc.symm.trans (firstFault_checks_zeroize _ _ _ s)
  · exact ht

/-! ## The statement -/

/-- Settles O45, clause by clause: FAULT = 1, the word of ZEROIZE, a word of no command, and a command with FAULT = 0. -/
theorem faultsComeInOrder : Obligations.FaultsComeInOrder := fun _ s =>
  ⟨commandWord_refused,
   fun hz => ⟨commandWord_of_decode hz s, _, exec_zeroize s, rfl, rfl, rfl⟩,
   commandWord_illegal,
   fun i hi hf => ⟨exec_faultsInOrder i hf, commandWord_of_decode hi s, exec_answers hf⟩⟩

end Sys2Proof.Machine

/-! PROOFS. The permutation core (spec/40_permutation_core.md): the update lane by lane (R117), and SETKEY and INIT, each where
it is carried out (R121, R122); their faults in order are those of every command (`exec_faultsInOrder`). -/

namespace Sys2Proof.Machine

open Sys2Proof.Statements

/-- A command with a fixed size, given that size, passes the size condition. -/
theorem len_eq_of_fixedSize {i : Instr} {n : Nat} {c : Cause} (hfix : fixedSize i = some (n, c)) (hlen : i.len = n) :
    ∀ n' c', fixedSize i = some (n', c') → i.len = n' := by
  intro n' c' h
  obtain ⟨rfl, -⟩ := Prod.mk.inj (Option.some.inj (hfix.symm.trans h))
  exact hlen

/-- A command none of whose conditions fails has its effect and answers its completion code. -/
theorem exec_eq_effectOf {i : Instr} {s : State} (hf : s.status.fault = false) (hseq : mayFollow i s.status)
    (hsize : ∀ n c, fixedSize i = some (n, c) → i.len = n) (hrange : inRange i s) (hfits : counterFits i s) :
    exec i s = .next ((effectOf i s).1.respond (.completion (effectOf i s).2)) :=
  exec_done hf ((firstFault_checks_of_sized hseq hsize).trans (firstFault_lateChecks_of_pass hrange hfits))

/-- The block read from a buffer at `addr` has the buffer's bytes, in order (R10, R53). -/
theorem Block.byte_ofBytes_readBytes (m : Memory) (addr : Nat) {j : Nat} (hj : j < 16) :
    Block.byte (Block.ofBytes (Memory.readBytes m addr 16)) j = Memory.read m (addr + j) := by
  rw [Block.byte_ofBytes _ hj, Memory.getD_readBytes, if_pos hj]

/-! ## INIT's wipe (R122) -/

/-- The wipe changes OBUF and STATUS at most. -/
theorem wipeIfLocked_frame (s : State) :
    wipeIfLocked s = { s with obuf := (wipeIfLocked s).obuf, status := (wipeIfLocked s).status } := by
  unfold wipeIfLocked; split <;> rfl

/-- A locked OBUF is all 0x00 after the wipe. -/
theorem read_wipeIfLocked_of_locked {s : State} (h : s.status.obufLock = true) (a : Nat) :
    Memory.read (wipeIfLocked s).obuf a = 0 := by
  rw [wipeIfLocked_obuf, if_pos h]
  exact Memory.read_nil a

/-- An OBUF that is not locked stays. -/
theorem obuf_wipeIfLocked_of_unlocked {s : State} (h : s.status.obufLock = false) : (wipeIfLocked s).obuf = s.obuf := by
  simp [h]

/-- After INIT's effect OBUF is what the wipe leaves, and all else but what R122 names stays. -/
theorem effectOf_init_frame (src len : Nat) (s : State) :
    (effectOf (.init src len) s).1 = { s with
      lanes := initLanes s.key (Block.ofBytes (Memory.readBytes s.ibuf src 16)), adLen := 0, msgLen := 0
      obuf := (wipeIfLocked s).obuf
      status := { s.status with phase := .ad, dir := .none, obufLock := false, authOk := false, authFail := false } } := by
  rw [effectOf, wipeIfLocked_frame]

/-! ## The statements -/

/-- Settles O23: the update, lane by lane. -/
theorem updateIsARingOfRounds : Obligations.UpdateIsARingOfRounds := by
  intro s m0 m1
  rw [update_eq]
  exact ⟨rfl, rfl, rfl, rfl, rfl, rfl, rfl, rfl⟩

/-- Settles O25: carried out, SETKEY has its effect, whose key is the block read at SRC. -/
theorem setkeyLoadsTheKey : Obligations.SetkeyLoadsTheKey := by
  intro src len s hf
  refine ⟨fun hseq hlen hrange => ?_, exec_faultsInOrder _ hf⟩
  subst hlen
  exact ⟨Block.ofBytes (Memory.readBytes s.ibuf src 16), fun _ => Block.byte_ofBytes_readBytes s.ibuf src,
    exec_eq_effectOf hf hseq (len_eq_of_fixedSize rfl rfl) hrange trivial⟩

/-- Settles O26: carried out, INIT has its effect, whose nonce is the block read at SRC and whose OBUF is what the wipe
leaves. -/
theorem initStartsAnOperation : Obligations.InitStartsAnOperation := by
  intro src len s hf
  refine ⟨fun hseq hlen hrange => ?_, exec_faultsInOrder _ hf⟩
  subst hlen
  refine ⟨Block.ofBytes (Memory.readBytes s.ibuf src 16), _, fun _ => Block.byte_ofBytes_readBytes s.ibuf src,
    exec_eq_effectOf hf hseq (len_eq_of_fixedSize rfl rfl) hrange trivial, ?_, read_wipeIfLocked_of_locked,
    obuf_wipeIfLocked_of_unlocked⟩
  rw [effectOf_init_frame]
  rfl

end Sys2Proof.Machine

/-! PROOFS. The duplex engine (spec/41_duplex_engine.md): what AD, ENC and DEC absorb is the string of the rules block by
block, and what ENC and DEC write is the input XORed with the keystream of the lanes before each block. ENC and DEC share
the bytes written (`outByte`); they differ in the string absorbed. -/

namespace Sys2Proof.Machine

open Sys2Proof.Statements

/-! ## A string block by block (R141) -/

/-- The lanes before block `q` of the string is absorbed. -/
def lanesBefore (s : Lanes) (f : Nat → Byte) (len q : Nat) : Lanes := ((blocksOf f len).take q).foldl absorb s

/-- The keystream byte is that of the lanes before the byte's own block. -/
theorem keystreamByte_eq (s : Lanes) (f : Nat → Byte) (len k : Nat) :
    keystreamByte s f len k = Chunk.byte (keystream (lanesBefore s f len (k / 64))) (k % 64) := rfl

theorem lanesBefore_eq_foldl (s : Lanes) (f : Nat → Byte) {len q : Nat} (h : 64 * q < len + 64) :
    lanesBefore s f len q = ((List.range q).map (blockAt f len)).foldl absorb s := by
  rw [lanesBefore, blocksOf, ← List.map_take, List.take_range, Nat.min_eq_left (by omega)]

theorem lanesBefore_succ (s : Lanes) (f : Nat → Byte) {len q : Nat} (h : 64 * q < len) :
    lanesBefore s f len (q + 1) = absorb (lanesBefore s f len q) (blockAt f len q) := by
  rw [lanesBefore_eq_foldl s f (by omega), lanesBefore_eq_foldl s f (by omega), List.range_succ, List.map_append,
    List.foldl_append]
  rfl

/-- The whole string is absorbed once no byte is left. -/
theorem absorbAll_eq_lanesBefore (s : Lanes) (f : Nat → Byte) {len q : Nat} (h : len ≤ 64 * q) :
    absorbAll s f len = lanesBefore s f len q := by
  rw [absorbAll, lanesBefore, List.take_of_length_le]
  rw [blocksOf, List.length_map, List.length_range]
  omega

/-- The whole string is its full blocks and, where `len` is not a multiple of 64, one block more. -/
theorem absorbAll_eq (s : Lanes) (f : Nat → Byte) (len : Nat) :
    absorbAll s f len =
      if len % 64 > 0 then absorb (lanesBefore s f len (len / 64)) (blockAt f len (len / 64))
      else lanesBefore s f len (len / 64) := by
  split
  · rw [absorbAll_eq_lanesBefore s f (q := len / 64 + 1) (by omega), lanesBefore_succ s f (by omega)]
  · exact absorbAll_eq_lanesBefore s f (by omega)

/-- Block `i` of a string is packed from the `n` bytes of the string that fall into it. -/
theorem ofBytes_eq_blockAt (f : Nat → Byte) {len i n : Nat} (h : ∀ j, j < 64 → (j < n ↔ 64 * i + j < len)) :
    Chunk.ofBytes ((List.range n).map fun j => f (64 * i + j)) = blockAt f len i := by
  refine Chunk.ofBytes_congr fun j hj => ?_
  rw [getD_map_range, getD_map_range, if_pos hj]
  exact if_congr (h j hj) rfl rfl

/-- The same for a string in a buffer. -/
theorem ofBytes_readBytes_eq_blockAt (m : Memory) (src : Nat) {len i n : Nat}
    (h : ∀ j, j < 64 → (j < n ↔ 64 * i + j < len)) :
    Chunk.ofBytes (Memory.readBytes m (src + 64 * i) n) = blockAt (fun k => Memory.read m (src + k)) len i := by
  simp only [Memory.readBytes, Nat.add_assoc]
  exact ofBytes_eq_blockAt (fun k => Memory.read m (src + k)) h

/-- A full block has 64 bytes of the string. -/
theorem mem_fullBlock_iff {len i : Nat} (h : 64 * i + 64 ≤ len) (j : Nat) (hj : j < 64) :
    j < 64 ↔ 64 * i + j < len := by omega

/-- The last block has `len mod 64` bytes of the string. -/
theorem mem_lastBlock_iff {len : Nat} (j : Nat) (_ : j < 64) : j < len % 64 ↔ 64 * (len / 64) + j < len := by omega

/-! ## AD (R142) -/

/-- The last block of an AD. -/
theorem absorbLast_eq (src len : Nat) (s : State) :
    absorbLast src len s =
      if len % 64 > 0 then
        { s with lanes := absorb s.lanes (Chunk.ofBytes (Memory.readBytes s.ibuf (src + 64 * (len / 64)) (len % 64))) }
      else s := by
  unfold absorbLast fullBlocks partialLen
  simp only [Chunk.ofBytes_append_zeros]

theorem absorbBlocks_ibuf (q src : Nat) (s : State) : (absorbBlocks q src s).ibuf = s.ibuf := by
  rw [absorbBlocks_frame]

theorem lanes_absorbBlocks (src : Nat) (s : State) {len q : Nat} (h : 64 * q ≤ len) :
    (absorbBlocks q src s).lanes = lanesBefore s.lanes (fun k => Memory.read s.ibuf (src + k)) len q := by
  rw [absorbBlocks_lanes, lanesBefore_eq_foldl _ _ (by omega)]
  refine congrArg (List.foldl absorb s.lanes) (List.map_congr_left fun i hi => ?_)
  have hi := List.mem_range.1 hi
  exact ofBytes_readBytes_eq_blockAt s.ibuf src (mem_fullBlock_iff (by omega))

/-- An AD absorbs the bytes of IBUF from SRC. -/
theorem lanes_absorbed (src len : Nat) (s : State) :
    (absorbLast src len (absorbBlocks (fullBlocks len) src s)).lanes =
      absorbAll s.lanes (fun k => Memory.read s.ibuf (src + k)) len := by
  have hfull := lanes_absorbBlocks src s (len := len) (q := fullBlocks len) (Nat.mul_div_le len 64)
  rw [absorbLast_eq, absorbAll_eq]
  split
  · rw [absorbBlocks_ibuf, hfull, ofBytes_readBytes_eq_blockAt s.ibuf src mem_lastBlock_iff]
    rfl
  · exact hfull

/-! ## The bytes written by ENC and DEC (R145, R148) -/

/-- Output byte `k` of the loop over `f`: the input byte XORed with the keystream of the lanes the loop has before block
`k / 64`. -/
def outByte (f : Lanes → Chunk → Lanes × Chunk) (src dst : Nat) (s : State) (k : Nat) : Byte :=
  Memory.read s.ibuf (src + k) ^^^ Chunk.byte (keystream (cryptBlocks f (k / 64) src dst s).lanes) (k % 64)

/-- The first `n` output bytes of block `i`. -/
theorem take_bytes_xor_keystream (f : Lanes → Chunk → Lanes × Chunk) (src dst : Nat) (s : State) (i : Nat) {n : Nat}
    (hn : n ≤ 64) :
    (Chunk.xor (Chunk.ofBytes (Memory.readBytes s.ibuf (src + 64 * i) n))
        (keystream (cryptBlocks f i src dst s).lanes)).bytes.take n =
      (List.range n).map fun j => outByte f src dst s (64 * i + j) := by
  refine eq_of_getD (by rw [length_take_bytes _ hn, List.length_map, List.length_range]) fun j hj => ?_
  have hj : j < n := by rwa [length_take_bytes _ hn] at hj
  rw [getD_take, if_pos hj, getD_map_range, if_pos hj, Chunk.getD_bytes, Chunk.byte_xor, Chunk.byte_ofBytes _ (by omega),
    Memory.getD_readBytes, if_pos hj, outByte, show (64 * i + j) / 64 = i by omega, show (64 * i + j) % 64 = j by omega,
    Nat.add_assoc]

/-- OBUF after the full blocks and the `LEN mod 64` output bytes that are left. -/
def cryptedObuf (f : Lanes → Chunk → Lanes × Chunk) (src dst len : Nat) (s : State) : Memory :=
  Memory.writeBytes (cryptBlocks f (len / 64) src dst s).obuf (dst + 64 * (len / 64))
    ((List.range (len % 64)).map fun j => outByte f src dst s (64 * (len / 64) + j))

/-- With no byte left over the full blocks are all. -/
theorem cryptedObuf_of_mod_eq_zero (f : Lanes → Chunk → Lanes × Chunk) (src dst : Nat) {len : Nat} (s : State)
    (h : len % 64 = 0) : cryptedObuf f src dst len s = (cryptBlocks f (len / 64) src dst s).obuf := by
  rw [cryptedObuf, h]
  rfl

theorem obuf_encrypted (src dst len : Nat) (s : State) :
    (encryptLast src dst len (cryptBlocks encBlock (fullBlocks len) src dst s)).obuf =
      cryptedObuf encBlock src dst len s := by
  rw [encryptLast_eq, fullBlocks]
  split
  · rw [cryptedObuf, ← take_bytes_xor_keystream encBlock src dst s _ (by omega), cryptBlocks_ibuf]
  · rw [cryptedObuf_of_mod_eq_zero _ _ _ _ (by omega)]

theorem obuf_decrypted (src dst len : Nat) (s : State) :
    (decrypted src dst len s).obuf = cryptedObuf decBlock src dst len s := by
  rw [decrypted_eq, fullBlocks]
  dsimp only
  split
  · rw [cryptedObuf, ← take_bytes_xor_keystream decBlock src dst s _ (by omega)]
  · rw [cryptedObuf_of_mod_eq_zero _ _ _ _ (by omega)]

/-- The output bytes stand from DST on, and every other byte of OBUF stays. -/
theorem read_cryptedObuf {f : Lanes → Chunk → Lanes × Chunk} (hf : ∀ l c, (f l c).2 = Chunk.xor c (keystream l))
    (src dst len : Nat) {s : State} (hwf : Memory.wf s.obuf = true) (a : Nat) :
    Memory.read (cryptedObuf f src dst len s) a =
      if dst ≤ a ∧ a < dst + len then outByte f src dst s (a - dst) else Memory.read s.obuf a := by
  rw [cryptedObuf, Memory.read_writeBytes (cryptBlocks_obuf f _ src dst s hwf).1, List.length_map, List.length_range]
  by_cases hlast : dst + 64 * (len / 64) ≤ a ∧ a < dst + 64 * (len / 64) + len % 64
  · rw [if_pos hlast, if_pos (by omega), getD_map_range, if_pos (by omega),
      show 64 * (len / 64) + (a - (dst + 64 * (len / 64))) = a - dst by omega]
  · rw [if_neg hlast, read_cryptBlocks f hf _ src dst s hwf]
    exact if_congr (by omega) rfl rfl

/-! ## The lanes after ENC and DEC -/

/-- If each full block makes the lanes absorb the block of the string `g`, the loop makes them absorb the string. -/
theorem lanes_cryptBlocks {f : Lanes → Chunk → Lanes × Chunk} {g : Nat → Byte} {src dst len : Nat} {s : State}
    (hblock : ∀ i, 64 * i + 64 ≤ len →
      (f (cryptBlocks f i src dst s).lanes (Chunk.ofBytes (Memory.readBytes s.ibuf (src + 64 * i) 64))).1 =
        absorb (cryptBlocks f i src dst s).lanes (blockAt g len i))
    {q : Nat} (hq : 64 * q ≤ len) : (cryptBlocks f q src dst s).lanes = lanesBefore s.lanes g len q := by
  induction q with
  | zero => rfl
  | succ q ih =>
    rw [(cryptBlocks_succ f q src dst s).1, hblock q (by omega), ih (by omega), lanesBefore_succ _ _ (by omega)]

/-- Where the loop makes the lanes absorb the string `g`, an output byte is the input byte XORed with the keystream byte of
the rules. -/
theorem outByte_eq {f : Lanes → Chunk → Lanes × Chunk} {g : Nat → Byte} {src dst len : Nat} {s : State}
    (hlanes : ∀ q, 64 * q ≤ len → (cryptBlocks f q src dst s).lanes = lanesBefore s.lanes g len q)
    {k : Nat} (hk : k < len) :
    outByte f src dst s k = Memory.read s.ibuf (src + k) ^^^ keystreamByte s.lanes g len k := by
  rw [outByte, hlanes (k / 64) (by omega), keystreamByte_eq]

/-- The full blocks of an ENC absorb the plaintext, which stands in IBUF. -/
theorem lanes_cryptBlocks_encBlock (src dst : Nat) (s : State) {len : Nat} (q : Nat) (hq : 64 * q ≤ len) :
    (cryptBlocks encBlock q src dst s).lanes = lanesBefore s.lanes (fun k => Memory.read s.ibuf (src + k)) len q :=
  lanes_cryptBlocks (fun _ hi =>
    congrArg (absorb _) (ofBytes_readBytes_eq_blockAt s.ibuf src (mem_fullBlock_iff hi))) hq

theorem lanes_encrypted (src dst len : Nat) (s : State) :
    (encryptLast src dst len (cryptBlocks encBlock (fullBlocks len) src dst s)).lanes =
      absorbAll s.lanes (fun k => Memory.read s.ibuf (src + k)) len := by
  have hfull := lanes_cryptBlocks_encBlock src dst s (fullBlocks len) (Nat.mul_div_le len 64)
  rw [encryptLast_eq, absorbAll_eq]
  split
  · rw [cryptBlocks_ibuf, hfull, ofBytes_readBytes_eq_blockAt s.ibuf src mem_lastBlock_iff]
    rfl
  · exact hfull

/-- The full blocks of a DEC absorb the plaintext, which is the bytes written. -/
theorem lanes_cryptBlocks_decBlock (src dst : Nat) (s : State) {len : Nat} (q : Nat) (hq : 64 * q ≤ len) :
    (cryptBlocks decBlock q src dst s).lanes = lanesBefore s.lanes (outByte decBlock src dst s) len q := by
  refine lanes_cryptBlocks (fun i hi => congrArg (absorb _) ?_) hq
  rw [← ofBytes_eq_blockAt (outByte decBlock src dst s) (mem_fullBlock_iff hi),
    ← take_bytes_xor_keystream decBlock src dst s i le_rfl, List.take_of_length_le (Chunk.length_bytes _).le,
    Chunk.ofBytes_bytes]

theorem lanes_decrypted (src dst len : Nat) (s : State) :
    (decrypted src dst len s).lanes = absorbAll s.lanes (outByte decBlock src dst s) len := by
  have hfull := lanes_cryptBlocks_decBlock src dst s (fullBlocks len) (Nat.mul_div_le len 64)
  rw [decrypted_eq, absorbAll_eq]
  dsimp only
  split
  · rw [fullBlocks, take_bytes_xor_keystream decBlock src dst s _ (by omega),
      ofBytes_eq_blockAt (outByte decBlock src dst s) mem_lastBlock_iff, ← fullBlocks, hfull]
  · exact hfull

/-! ## The statements -/

/-- A command without a fixed size passes the size condition. -/
theorem len_eq_of_no_fixedSize {i : Instr} (h : fixedSize i = none) : ∀ n c, fixedSize i = some (n, c) → i.len = n :=
  fun _ _ h' => nomatch h.symm.trans h'

/-- Settles O27: carried out, AD has its effect, whose lanes are those of `lanes_absorbed`; PHASE is the table's. -/
theorem adAbsorbsItsBytes : Obligations.AdAbsorbsItsBytes := by
  intro src len s hf
  refine ⟨fun hseq hrange hfits => ?_, exec_faultsInOrder _ hf⟩
  have had : s.status.phase = .ad := hseq
  rw [exec_eq_effectOf hf hseq (len_eq_of_no_fixedSize rfl) hrange hfits, effectOf, lanes_absorbed, adPhase, had]
  rfl

/-- Settles O28: carried out, ENC has its effect; the lanes before each block are those that absorbed the plaintext so
far, so the bytes written are those of the rule. -/
theorem encEncryptsItsBytes : Obligations.EncEncryptsItsBytes := by
  intro src dst len s hf
  refine ⟨fun hseq hrange hfits => ?_, exec_faultsInOrder _ hf⟩
  refine ⟨_, exec_eq_effectOf hf hseq (len_eq_of_no_fixedSize rfl) hrange hfits, ?_, fun hwf a => ?_⟩
  · rw [effectOf, lanes_encrypted]
    rfl
  · rw [effectOf, State.respond_obuf, obuf_encrypted, read_cryptedObuf (fun _ _ => rfl) src dst len hwf]
    split
    · exact outByte_eq (lanes_cryptBlocks_encBlock src dst s) (by omega)
    · rfl

/-- Settles O29: carried out, DEC has its effect. The plaintext is the string of the bytes written; the lanes before each
block are those that absorbed it so far, so it is the ciphertext XORed with its own keystream. -/
theorem decDecryptsItsBytes : Obligations.DecDecryptsItsBytes := by
  intro src dst len s hf
  refine ⟨fun hseq hrange hfits => ?_, exec_faultsInOrder _ hf⟩
  refine ⟨_, outByte decBlock src dst s, fun k => outByte_eq (lanes_cryptBlocks_decBlock src dst s),
    exec_eq_effectOf hf hseq (len_eq_of_no_fixedSize rfl) hrange hfits, ?_, fun hwf a => ?_⟩
  · rw [effectOf, lanes_decrypted]
    rfl
  · rw [effectOf, State.respond_obuf, obuf_decrypted]
    exact read_cryptedObuf (fun _ _ => rfl) src dst len hwf a

end Sys2Proof.Machine

/-! PROOFS. The finalizer (spec/42_finalizer.md): the length block byte by byte (R160), and the four commands that write a tag,
each where it is carried out (R165, R166, R171, R172); their faults in order are those of every command
(`exec_faultsInOrder`). -/

namespace Sys2Proof.Machine

open Sys2Proof.Statements

/-! ## The length block (R160) -/

/-- Byte `j` of a number, little-endian (R11). -/
theorem toNat_getD_le64 (x : Nat) {j : Nat} (hj : j < 8) : ((le64 x).getD j 0).toNat = x / 2 ^ (8 * j) % 256 := by
  rw [le64, getD_map_range, if_pos hj, BitVec.toNat_ofNat, Nat.mod_mod]

/-- The first eight bytes of the block are the first number. -/
theorem byte_le64Pair_low (a b : Nat) {j : Nat} (hj : j < 8) :
    (Block.byte (le64Pair a b) j).toNat = a / 2 ^ (8 * j) % 256 := by
  rw [le64Pair, Block.byte_ofBytes _ (by omega), List.getD_append _ _ _ _ (by rwa [length_le64]), toNat_getD_le64 a hj]

/-- The last eight bytes of the block are the second number. -/
theorem byte_le64Pair_high (a b : Nat) {j : Nat} (hj : j < 8) :
    (Block.byte (le64Pair a b) (8 + j)).toNat = b / 2 ^ (8 * j) % 256 := by
  rw [le64Pair, Block.byte_ofBytes _ (by omega), List.getD_append_right _ _ _ _ (by rw [length_le64]; omega), length_le64,
    Nat.add_sub_cancel_left, toNat_getD_le64 b hj]

/-- A number of `n` bytes is the bytes it holds. -/
theorem eq_of_bytes_eq {n x y : Nat} (hx : x < 2 ^ (8 * n)) (hy : y < 2 ^ (8 * n))
    (h : ∀ j, j < n → x / 2 ^ (8 * j) % 256 = y / 2 ^ (8 * j) % 256) : x = y := by
  have hpow (j : Nat) : 2 ^ (8 * (j + 1)) = 256 * 2 ^ (8 * j) := by rw [Nat.mul_succ, Nat.pow_add, Nat.mul_comm]
  induction n generalizing x y with
  | zero => omega
  | succ n ih =>
    have hlowest : x % 256 = y % 256 := by simpa using h 0 (by omega)
    have hrest : x / 256 = y / 256 := by
      rw [hpow] at hx hy
      refine ih (by omega) (by omega) fun j hj => ?_
      rw [Nat.div_div_eq_div_mul, Nat.div_div_eq_div_mul, ← hpow]
      exact h (j + 1) (by omega)
    omega

/-- Two pairs of 64-bit numbers with the same block are the same pair. -/
theorem le64Pair_inj {a b a' b' : Nat} (ha : a < 2 ^ 64) (hb : b < 2 ^ 64) (ha' : a' < 2 ^ 64) (hb' : b' < 2 ^ 64)
    (h : le64Pair a b = le64Pair a' b') : a = a' ∧ b = b' :=
  ⟨eq_of_bytes_eq (n := 8) ha ha' fun j hj => by rw [← byte_le64Pair_low a b hj, h, byte_le64Pair_low a' b' hj],
   eq_of_bytes_eq (n := 8) hb hb' fun j hj => by rw [← byte_le64Pair_high a b hj, h, byte_le64Pair_high a' b' hj]⟩

/-! ## A command that writes a tag (R165, R166, R171, R172) -/

/-- The bytes of a lane are those of the rules. -/
theorem getD_bytes_eq_laneByte (l : Lane) {j : Nat} (hj : j < 32) : l.bytes.getD j 0 = laneByte l j := by
  rw [Lane.getD_bytes, if_pos hj, laneByte]

/-- `cmd` has the fixed size `size`, its range is the one it writes, and its effect is to write `tag` at DST and end the
operation. -/
structure IsTagWriter (cmd : Nat → Nat → Instr) (size : Nat) (tag : State → List Byte) : Prop where
  len_eq : ∀ dst len, (cmd dst len).len = len
  fixedSize_eq : ∀ dst len, fixedSize (cmd dst len) = some (size, .tagLen)
  inRange_iff : ∀ dst len s, inRange (cmd dst len) s ↔ dst + len ≤ s.config.bufBytes
  counterFits : ∀ dst len s, counterFits (cmd dst len) s
  effectOf_eq : ∀ dst len s, effectOf (cmd dst len) s = (writeTag (tag s) dst s, .ok)

theorem isTagWriter_final16 : IsTagWriter .final16 16 fun s => (finalize16 s.lanes s.adLen s.msgLen).bytes :=
  ⟨fun _ _ => rfl, fun _ _ => rfl, fun _ _ _ => Iff.rfl, fun _ _ _ => trivial, fun _ _ _ => rfl⟩

theorem isTagWriter_final32 : IsTagWriter .final32 32 fun s => (finalize32 s.lanes s.adLen s.msgLen).bytes :=
  ⟨fun _ _ => rfl, fun _ _ => rfl, fun _ _ _ => Iff.rfl, fun _ _ _ => trivial, fun _ _ _ => rfl⟩

theorem isTagWriter_macfinal16 : IsTagWriter .macfinal16 16 fun s => (macFinalize16 s.lanes s.adLen).bytes :=
  ⟨fun _ _ => rfl, fun _ _ => rfl, fun _ _ _ => Iff.rfl, fun _ _ _ => trivial, fun _ _ _ => rfl⟩

theorem isTagWriter_macfinal32 : IsTagWriter .macfinal32 32 fun s => (macFinalize32 s.lanes s.adLen).bytes :=
  ⟨fun _ _ => rfl, fun _ _ => rfl, fun _ _ _ => Iff.rfl, fun _ _ _ => trivial, fun _ _ _ => rfl⟩

/-- The tag stands in OBUF from DST on, and every other byte stays. -/
theorem read_obuf_writeTag (tag : List Byte) (dst : Nat) {s : State} (hwf : Memory.wf s.obuf = true) (a : Nat) :
    Memory.read (writeTag tag dst s).obuf a =
      if dst ≤ a ∧ a < dst + tag.length then tag.getD (a - dst) 0 else Memory.read s.obuf a := by
  rw [writeTag_obuf, Memory.read_writeBytes hwf]

/-- A command none of whose conditions fails writes its tag; otherwise its faults are those of every command. -/
theorem IsTagWriter.writesTag {cmd : Nat → Nat → Instr} {size : Nat} {tag : State → List Byte}
    {tagByte : State → Nat → Byte} (h : IsTagWriter cmd size tag) (hsize : ∀ s, (tag s).length = size)
    (hbyte : ∀ s j, j < size → (tag s).getD j 0 = tagByte s j) : WritesTag cmd size tagByte := by
  intro dst len s hf
  refine ⟨fun hseq hlen hin => ?_, exec_faultsInOrder _ hf⟩
  subst hlen
  have hexec := exec_eq_effectOf hf hseq (len_eq_of_fixedSize (h.fixedSize_eq dst len) (h.len_eq dst len))
    ((h.inRange_iff dst len s).2 hin) (h.counterFits dst len s)
  rw [h.effectOf_eq] at hexec
  refine ⟨_, hexec, rfl, fun hwf a => ?_⟩
  rw [State.respond_obuf, read_obuf_writeTag _ _ hwf, hsize]
  split
  · exact hbyte s (a - dst) (by omega)
  · rfl

/-- A tag of one block. -/
theorem IsTagWriter.writesTag_block {cmd : Nat → Nat → Instr} {tag : State → Block}
    (h : IsTagWriter cmd 16 fun s => (tag s).bytes) : WritesTag cmd 16 fun s j => Block.byte (tag s) j :=
  h.writesTag (fun _ => Block.length_bytes _) fun _ j hj => by rw [Block.getD_bytes, if_pos hj]

/-- A tag of two blocks. -/
theorem IsTagWriter.writesTag_lane {cmd : Nat → Nat → Instr} {tag : State → Lane}
    (h : IsTagWriter cmd 32 fun s => (tag s).bytes) : WritesTag cmd 32 fun s j => laneByte (tag s) j :=
  h.writesTag (fun _ => Lane.length_bytes _) fun _ _ => getD_bytes_eq_laneByte _

/-! ## The statements -/

/-- Settles O34: each half of the block is one bit count, and eight times a length up to MAX_LEN fits its half. -/
theorem lengthBlockHoldsBothLengths : Obligations.LengthBlockHoldsBothLengths := by
  refine ⟨fun a m _ _ => ⟨fun _ => byte_le64Pair_low _ _, fun _ => byte_le64Pair_high _ _⟩, ?_⟩
  intro a m a' m' ha hm ha' hm' h
  obtain ⟨hfst, hsnd⟩ := le64Pair_inj (by omega) (by omega) (by omega) (by omega) h
  omega

/-- Settles O37: FINAL16 writes a block, FINAL32 a lane. -/
theorem finalWritesTheTag : Obligations.FinalWritesTheTag :=
  ⟨isTagWriter_final16.writesTag_block, isTagWriter_final32.writesTag_lane⟩

/-- Settles O38: MACFINAL16 writes a block, MACFINAL32 a lane. -/
theorem macFinalWritesTheTag : Obligations.MacFinalWritesTheTag :=
  ⟨isTagWriter_macfinal16.writesTag_block, isTagWriter_macfinal32.writesTag_lane⟩

end Sys2Proof.Machine

/-! PROOFS. Verification and zeroing (spec/43_verify_zeroize.md): the comparison finds the tags equal exactly when the bytes
at SRC are those of the recomputed tag (R180), which decides between the two outcomes of VERIFY16 and VERIFY32 (R181, R183,
R184); their faults in order are those of every command (`exec_faultsInOrder`). And ZEROIZE (R187). -/

namespace Sys2Proof.Machine

open Sys2Proof.Statements

/-! ## The comparison (R180) -/

/-- The differences of two strings of one length are all zero exactly when the strings are equal. -/
theorem forall_mem_zipWith_xor_eq_zero_iff {a b : List Byte} (h : a.length = b.length) :
    (∀ x ∈ List.zipWith (fun x y => x ^^^ y) a b, x = 0) ↔ a = b := by
  induction a generalizing b with
  | nil => simp [List.eq_nil_of_length_eq_zero h.symm]
  | cons x a ih =>
    cases b with
    | nil => cases h
    | cons y b =>
      rw [List.zipWith_cons_cons, List.forall_mem_cons, ih (Nat.succ.inj h), List.cons.injEq]
      exact and_congr_left fun _ => BitVec.xor_eq_zero_iff

/-- The comparison tests the OR of the differences, which is zero exactly when each of them is. -/
theorem tagEqual_iff {a b : List Byte} (h : a.length = b.length) : tagEqual a b = true ↔ a = b := by
  rw [tagEqual, decide_eq_true_iff, foldl_or_eq_zero, forall_mem_zipWith_xor_eq_zero_iff h]
  exact and_iff_right rfl

/-- Compared with the bytes of a buffer at `src`, a tag is found equal exactly when each of its bytes stands there. -/
theorem tagEqual_readBytes_iff (tag : List Byte) (m : Memory) (src : Nat) :
    tagEqual tag (Memory.readBytes m src tag.length) = true ↔
      ∀ j, j < tag.length → Memory.read m (src + j) = tag.getD j 0 := by
  have hlen : tag.length = (Memory.readBytes m src tag.length).length := (Memory.length_readBytes _ _ _).symm
  have hbyte {j : Nat} (hj : j < tag.length) :
      (Memory.readBytes m src tag.length).getD j 0 = Memory.read m (src + j) := by
    rw [Memory.getD_readBytes, if_pos hj]
  rw [tagEqual_iff hlen]
  refine ⟨fun h j hj => ?_, fun h => eq_of_getD hlen fun j hj => ?_⟩
  · rw [← hbyte hj, ← h]
  · rw [hbyte hj, h j hj]

/-! ## The two outcomes (R181) -/

theorem verifyTag_of_equal {expected given : List Byte} (h : tagEqual expected given = true) (s : State) :
    verifyTag expected given s =
      ({ endOperation s with
          status := { (endOperation s).status with authOk := true, authFail := false, obufLock := false } }, .ok) :=
  if_pos h

theorem verifyTag_of_different {expected given : List Byte} (h : ¬tagEqual expected given = true) (s : State) :
    verifyTag expected given s =
      ({ endOperation s with
          obuf := Memory.clear
          status := { (endOperation s).status with authOk := false, authFail := true, obufLock := false } }, .authFail) :=
  if_neg h

/-- A command that is carried out as the comparison of `tag s` with the bytes at SRC checks that tag. -/
theorem checksTag_of_exec {cmd : Nat → Nat → Instr} {size : Nat} {tag : State → List Byte} {tagByte : State → Nat → Byte}
    (hsize : ∀ s, (tag s).length = size) (hbyte : ∀ s j, j < size → (tag s).getD j 0 = tagByte s j)
    (hexec : ∀ (src : Nat) (s : State), s.status.fault = false → mayFollow (cmd src size) s.status →
      src + size ≤ s.config.bufBytes →
      exec (cmd src size) s =
        let r := verifyTag (tag s) (Memory.readBytes s.ibuf src size) s
        .next (r.1.respond (.completion r.2))) :
    ChecksTag cmd size tagByte := by
  intro src len s hf
  have hequal : tagEqual (tag s) (Memory.readBytes s.ibuf src size) = true ↔
      ∀ j, j < size → Memory.read s.ibuf (src + j) = tagByte s j := by
    rw [← hsize s, tagEqual_readBytes_iff, hsize s]
    exact forall₂_congr fun j hj => by rw [hbyte s j hj]
  refine ⟨fun hseq hlen hin hright => ?_, fun hseq hlen hin hwrong => ?_, exec_faultsInOrder _ hf⟩
  · subst hlen
    rw [hexec src s hf hseq hin, verifyTag_of_equal (hequal.2 hright)]
    rfl
  · subst hlen
    obtain ⟨j, hj, hne⟩ := hwrong
    rw [hexec src s hf hseq hin, verifyTag_of_different fun heq => hne (hequal.1 heq j hj)]
    exact ⟨_, rfl, rfl, Memory.read_nil⟩

/-! ## The statements -/

/-- Settles O40: carried out, either command has its effect, the comparison of the recomputed tag with the bytes at SRC; the
tag is a block for VERIFY16 and a lane for VERIFY32. -/
theorem verifyChecksTheTag : Obligations.VerifyChecksTheTag :=
  ⟨checksTag_of_exec (fun _ => Block.length_bytes _) (fun _ j hj => by rw [Block.getD_bytes, if_pos hj])
    fun _ _ hf hseq hin => exec_eq_effectOf hf hseq (len_eq_of_fixedSize rfl rfl) hin trivial,
   checksTag_of_exec (fun _ => Lane.length_bytes _) (fun _ _ => getD_bytes_eq_laneByte _)
    fun _ _ hf hseq hin => exec_eq_effectOf hf hseq (len_eq_of_fixedSize rfl rfl) hin trivial⟩

/-- Settles O41: ZEROIZE passes every test, FAULT = 1 included, and its effect is the reset state but for the two fields. -/
theorem zeroizeClearsAllButTheFault : Obligations.ZeroizeClearsAllButTheFault := exec_zeroize

end Sys2Proof.Machine

/-! PROOFS. The Reset transaction (spec/70_reset_and_hazards.md R230), and that it alone clears FAULT and CAUSE. -/

namespace Sys2Proof.Machine

/-- While FAULT = 1 a Command leaves FAULT and CAUSE: ZEROIZE is carried out and spares the two fields (R187), every other
word is refused. -/
theorem commandWord_keeps_fault {w : BitVec 64} {s t : State} (hf : s.status.fault = true)
    (h : commandWord w s = .next t) : t.status.fault = true ∧ t.status.cause = s.status.cause := by
  by_cases hz : decode w = .ok .zeroize
  · rw [commandWord_of_decode hz, exec_zeroize] at h
    injection h with h
    subst h
    exact ⟨hf, rfl⟩
  · rw [commandWord_refused hf hz] at h
    injection h with h
    subst h
    exact ⟨hf, rfl⟩

/-- While FAULT = 1 every transaction but a Reset leaves FAULT and CAUSE: the host's writes and reads do not touch STATUS. -/
theorem transact_keeps_fault {tr : Transaction} {s t : State} (hf : s.status.fault = true) (hreset : tr ≠ .reset)
    (h : transact tr s = .next t) : t.status.fault = true ∧ t.status.cause = s.status.cause := by
  cases tr with
  | reset => exact absurd rfl hreset
  | ibufWrite addr b =>
    injection h with h
    rw [← h, ibufWrite_status]
    exact ⟨hf, rfl⟩
  | obufRead addr =>
    injection h with h
    subst h
    exact ⟨hf, rfl⟩
  | statusRead =>
    injection h with h
    subst h
    exact ⟨hf, rfl⟩
  | command w => exact commandWord_keeps_fault hf h

/-- Settles O17: `resetTransaction` is the reset state but for what lies outside the core, and no other transaction clears
FAULT or CAUSE. -/
theorem resetTransactionRestoresReset : Obligations.ResetTransactionRestoresReset :=
  ⟨fun _ => rfl, fun _ _ _ => transact_keeps_fault⟩

end Sys2Proof.Machine

/-! PROOFS. The encoder and the decoder are each other's inverse on well-formed commands (spec/30_encoding.md R80 to
R85, R88), and the word of a command is the sum of its fields (R81). -/

namespace Sys2Proof.Machine

open Sys2Proof.Statements

/-! ## The operands a word can hold (R82) -/

theorem wellFormed_iff (i : Instr) : i.wellFormed = true ↔ i.src < 65536 ∧ i.dst < 65536 ∧ i.len < 65536 := by
  simp only [Instr.wellFormed, fitsField, Bool.and_eq_true, decide_eq_true_iff, and_assoc]

theorem toNat_ofNat_of_fits {n : Nat} (h : n < 65536) : (BitVec.ofNat 16 n).toNat = n := by
  rw [BitVec.toNat_ofNat, Nat.mod_eq_of_lt h]

/-! ## The operands a packed word gives back (R83) -/

theorem decodeSrcLen_packWord (op : BitVec 8) (src len : BitVec 16) (mk : Nat → Nat → Instr) :
    decodeSrcLen (packWord op src 0 len) mk = .ok (mk src.toNat len.toNat) := by
  rw [decodeSrcLen, dstField_packWord, srcField_packWord, lenField_packWord, if_pos rfl]

theorem decodeDstLen_packWord (op : BitVec 8) (dst len : BitVec 16) (mk : Nat → Nat → Instr) :
    decodeDstLen (packWord op 0 dst len) mk = .ok (mk dst.toNat len.toNat) := by
  rw [decodeDstLen, dstField_packWord, srcField_packWord, lenField_packWord, if_pos rfl]

theorem decodeSrcDstLen_packWord (op : BitVec 8) (src dst len : BitVec 16) (mk : Nat → Nat → Nat → Instr) :
    decodeSrcDstLen (packWord op src dst len) mk = .ok (mk src.toNat dst.toNat len.toNat) := by
  rw [decodeSrcDstLen, dstField_packWord, srcField_packWord, lenField_packWord]

/-- The word of a command is decoded by its own row. -/
theorem decode_encode_eq_decodeRow (i : Instr) : decode (encode i) = decodeRow (encode i) i.row := decode_packWord ..

/-- Settles O1: the word is decoded by the command's own row, which reads back the fields it uses. -/
theorem decodeOfEncode : Obligations.DecodeOfEncode := by
  intro i hwf
  obtain ⟨hsrc, hdst, hlen⟩ := (wellFormed_iff i).1 hwf
  rw [decode_encode_eq_decodeRow]
  cases i with
  | setkey | init | ad | verify16 | verify32 =>
    refine (decodeSrcLen_packWord _ _ _ _).trans ?_
    rw [toNat_ofNat_of_fits hsrc, toNat_ofNat_of_fits hlen]
    rfl
  | final16 | final32 | macfinal16 | macfinal32 =>
    refine (decodeDstLen_packWord _ _ _ _).trans ?_
    rw [toNat_ofNat_of_fits hdst, toNat_ofNat_of_fits hlen]
    rfl
  | enc | dec =>
    refine (decodeSrcDstLen_packWord _ _ _ _ _).trans ?_
    rw [toNat_ofNat_of_fits hsrc, toNat_ofNat_of_fits hdst, toNat_ofNat_of_fits hlen]
    rfl
  | zeroize => rfl

/-- A decoded command has the row and the operands the fields of the word say, and RSV is 0. -/
theorem fields_of_decode {w : BitVec 64} {i : Instr} (h : decode w = .ok i) :
    opcodeField w = i.row.opcode ∧ rsvField w = 0 ∧ i.src = (srcField w).toNat ∧ i.dst = (dstField w).toNat ∧
      i.len = (lenField w).toNat := by
  obtain ⟨row, hop, hrsv, hrow⟩ := decode_eq_ok h
  obtain ⟨rfl, hoperands⟩ := decodeRow_eq_ok hrow
  exact ⟨hop, hrsv, hoperands⟩

/-- Settles O2: the command's operands are the fields of the word, and its fields, with RSV = 0, are the whole word. -/
theorem encodeOfDecode : Obligations.EncodeOfDecode := by
  intro w i h
  obtain ⟨hop, hrsv, hsrc, hdst, hlen⟩ := fields_of_decode h
  constructor
  · rw [wellFormed_iff, hsrc, hdst, hlen]
    exact ⟨BitVec.isLt _, BitVec.isLt _, BitVec.isLt _⟩
  · simp only [encode, hsrc, hdst, hlen, BitVec.ofNat_toNat, BitVec.setWidth_eq, ← hop, packWord_fields hrsv]

/-! ## The word as a number (R81) -/

/-- A word of two parts is its lower part plus its upper part times the lower part's range. -/
theorem toNat_append_eq_add {m n : Nat} (x : BitVec m) (y : BitVec n) : (x ++ y).toNat = 2 ^ n * x.toNat + y.toNat := by
  rw [BitVec.toNat_append, ← Nat.shiftLeft_add_eq_or_of_lt y.isLt, Nat.shiftLeft_eq, Nat.mul_comm]

/-- Settles O4: the word is its five fields side by side, each a 16-bit or 8-bit number. -/
theorem encodedWordIsTheSumOfItsFields : Obligations.EncodedWordIsTheSumOfItsFields := by
  intro i hwf
  obtain ⟨hsrc, hdst, hlen⟩ := (wellFormed_iff i).1 hwf
  have hrsv : (0 : BitVec 8).toNat = 0 := rfl
  rw [encode, packWord]
  simp only [toNat_append_eq_add, toNat_ofNat_of_fits hsrc, toNat_ofNat_of_fits hdst, toNat_ofNat_of_fits hlen, hrsv]
  omega

/-- Settles O5: the six words are evaluated. -/
theorem wordsDecodeAsWrittenOut : Obligations.WordsDecodeAsWrittenOut := ⟨rfl, rfl, rfl, rfl, rfl, rfl⟩

end Sys2Proof.Machine

/-! PROOFS. What a command and a step can answer (spec/30_encoding.md R86, spec/60_exceptions.md R203): the fault record
alone, or the command's effect; and from it what every step leaves unchanged and adds (spec/20_memory.md R50, R67). -/

namespace Sys2Proof.Machine

open Sys2Proof.Statements

/-! ## The two answers of a command -/

/-- Being refused while FAULT = 1 is the fault already recorded, answered again. -/
theorem turnedAway_eq_faulted {s : State} (hf : s.status.fault = true) : turnedAway s = faulted s.status.cause s := by
  rw [faulted, ← hf, turnedAway]

/-- A command either leaves the fault record, or passes every test and has its effect; while FAULT = 1 only ZEROIZE does. -/
theorem exec_faulted_or_carried {i : Instr} {s t : State} (h : exec i s = .next t) :
    (∃ c, t = faulted c s) ∨
    (firstFault (checks i.row i.src i.dst i.len s) = none ∧ (s.status.fault = true → i = .zeroize) ∧
      t = (effectOf i s).1.respond (.completion (effectOf i s).2)) := by
  rcases exec_cases h with ⟨hf, -, rfl⟩ | ⟨-, c, -, rfl⟩ | ⟨hgo, hpass, rfl⟩
  · exact .inl ⟨_, turnedAway_eq_faulted hf⟩
  · exact .inl ⟨c, rfl⟩
  · exact .inr ⟨hpass, fun hf => eq_zeroize_of_row (not_not.1 fun hrow => hgo ⟨hf, hrow⟩), rfl⟩

/-- The word of no command leaves the fault record. -/
theorem illegalCommand_eq_faulted (s : State) : ∃ c, illegalCommand s = faulted c s := by
  rcases illegalCommand_cases s with ⟨hf, h⟩ | ⟨-, h⟩
  · exact ⟨_, h.trans (turnedAway_eq_faulted hf)⟩
  · exact ⟨_, h⟩

/-- A Command either leaves the fault record, or is that of a word that decodes to a command which has its effect. -/
theorem commandWord_faulted_or_carried {w : BitVec 64} {s t : State} (h : commandWord w s = .next t) :
    (∃ c, t = faulted c s) ∨
    ∃ i, decode w = .ok i ∧ firstFault (checks i.row i.src i.dst i.len s) = none ∧
      t = (effectOf i s).1.respond (.completion (effectOf i s).2) := by
  cases hd : decode w with
  | ok i =>
    rw [commandWord_of_decode hd] at h
    exact (exec_faulted_or_carried h).imp_right fun ⟨hpass, _, ht⟩ => ⟨i, rfl, hpass, ht⟩
  | error r =>
    rw [commandWord_of_no_decode (by simp [hd])] at h
    injection h with h
    obtain ⟨c, hc⟩ := illegalCommand_eq_faulted s
    exact .inl ⟨c, h.symm.trans hc⟩

/-! ## Every transaction answers a next state -/

/-- A Command answers a next state. -/
theorem commandWord_next (w : BitVec 64) (s : State) : ∃ t, commandWord w s = .next t := by
  cases hd : decode w with
  | ok i =>
    rw [commandWord_of_decode hd]
    exact exec_next i s
  | error r => exact ⟨_, commandWord_of_no_decode (by simp [hd]) s⟩

theorem transact_next (tr : Transaction) (s : State) : ∃ t, transact tr s = .next t := by
  cases tr with
  | command w => exact commandWord_next w s
  | _ => exact ⟨_, rfl⟩

/-- A Command leaves the parameter and the host's later transactions, and adds one completion code to what the host
observed. -/
theorem commandWord_frame {w : BitVec 64} {s t : State} (h : commandWord w s = .next t) :
    t.config = s.config ∧ t.pending = s.pending ∧ ∃ c, t.outputs = s.outputs ++ [.completion c] := by
  rcases commandWord_faulted_or_carried h with ⟨c, rfl⟩ | ⟨i, -, -, rfl⟩
  · exact ⟨rfl, rfl, .fault, rfl⟩
  · obtain ⟨hconfig, hpending, houtputs, -⟩ := effectOf_frame i s
    exact ⟨hconfig, hpending, _, congrArg (· ++ _) houtputs⟩

/-- No transaction touches the parameter or the host's later transactions. -/
theorem transact_frame {tr : Transaction} {s t : State} (h : transact tr s = .next t) :
    t.config = s.config ∧ t.pending = s.pending := by
  cases tr with
  | command w =>
    obtain ⟨hconfig, hpending, -⟩ := commandWord_frame h
    exact ⟨hconfig, hpending⟩
  | ibufWrite addr b =>
    injection h with h
    rw [← h]
    exact ⟨ibufWrite_config addr b s, ibufWrite_pending addr b s⟩
  | _ =>
    injection h with h
    subst h
    exact ⟨rfl, rfl⟩

/-! ## The statements -/

/-- Settles O7: the step takes the word off and carries it out. -/
theorem stepRunsTheDecodedCommand : Obligations.StepRunsTheDecodedCommand := fun _ _ _ _ hp hd =>
  (step_of_pending hp).trans (commandWord_of_decode hd _)

/-- Settles O8: with none pending a step changes nothing, and otherwise it is one transaction, which answers. -/
theorem everyStepAnswersANextState : Obligations.EveryStepAnswersANextState := by
  intro s
  cases hp : s.pending with
  | nil => exact ⟨s, step_of_none hp, hp, rfl, fun _ => rfl⟩
  | cons tr rest =>
    obtain ⟨t, ht⟩ := transact_next tr { s with pending := rest }
    obtain ⟨hconfig, hpending⟩ := transact_frame ht
    exact ⟨t, (step_of_pending hp).trans ht, hpending, hconfig, nofun⟩

/-- Settles O9, by induction on the pending list: each step takes its head off. -/
theorem pendingTransactionsAllComplete : Obligations.PendingTransactionsAllComplete := by
  intro s
  induction hp : s.pending generalizing s with
  | nil => exact ⟨s, rfl, hp⟩
  | cons tr rest ih =>
    obtain ⟨u, hu, hpending, -⟩ := everyStepAnswersANextState s
    obtain ⟨t, ht, hnone⟩ := ih u (by rw [hpending, hp, List.tail_cons])
    exact ⟨t, (core_run_succ rest.length hu).trans ht, hnone⟩

/-- Settles O10: a Command adds its completion code, any other transaction `answerOf`. -/
theorem outputsOfATransaction : Obligations.OutputsOfATransaction := by
  intro s t tr rest hp h
  rw [step_of_pending hp] at h
  cases tr with
  | command w =>
    obtain ⟨-, -, c, hout⟩ := commandWord_frame h
    exact ⟨[.completion c], hout, rfl⟩
  | _ =>
    have hout := outputs_of_transact (by simp) h
    exact ⟨_, hout, rfl⟩

/-- Settles O46: `transact_keeps_fault`, and a word other than ZEROIZE's is turned away. -/
theorem faultStaysUntilReset : Obligations.FaultStaysUntilReset := by
  intro s t tr rest hf hp hreset h
  rw [step_of_pending hp] at h
  obtain ⟨hfault, hcause⟩ := transact_keeps_fault (s := { s with pending := rest }) hf hreset h
  refine ⟨hfault, hcause, fun w hw hz => ?_⟩
  subst hw
  have hturned := commandWord_refused (s := { s with pending := rest }) hf hz
  injection h.symm.trans hturned

end Sys2Proof.Machine

/-! PROOFS. The invariant (spec/10_state.md R30, R31; the buffers, R32, log 8): it holds after reset, every effect keeps
it part by part, and so does every step and every run. -/

namespace Sys2Proof.Safety

open Sys2Proof.Machine Sys2Proof.Statements

/-! ## The parts of the invariant and the fields they speak of -/

theorem BuffersSound.congr {s t : State} (h : BuffersSound s) (hconfig : t.config = s.config) (hibuf : t.ibuf = s.ibuf)
    (hobuf : t.obuf = s.obuf) : BuffersSound t := by
  obtain ⟨hsize, hiwf, howf, hiin, hoin⟩ := h
  rw [← hconfig] at hsize hiin hoin
  rw [← hibuf] at hiwf hiin
  rw [← hobuf] at howf hoin
  exact ⟨hsize, hiwf, howf, hiin, hoin⟩

theorem CountersBounded.congr {s t : State} (h : CountersBounded s) (hadLen : t.adLen = s.adLen)
    (hmsgLen : t.msgLen = s.msgLen) : CountersBounded t :=
  ⟨hadLen ▸ h.adLen, hmsgLen ▸ h.msgLen⟩

theorem SequencingSound.congr {s t : State} (h : SequencingSound s) (hlanes : t.lanes = s.lanes)
    (hadLen : t.adLen = s.adLen) (hmsgLen : t.msgLen = s.msgLen) (hstatus : t.status = s.status) : SequencingSound t := by
  obtain ⟨hrest, hlocked, habsorbing, hclosed, hkeyed, hunfaulted, hexclusive⟩ := h
  rw [← hstatus] at hrest hlocked habsorbing hclosed hkeyed hunfaulted hexclusive
  rw [← hlanes, ← hadLen, ← hmsgLen] at hrest
  rw [← hmsgLen] at habsorbing
  exact ⟨hrest, hlocked, habsorbing, hclosed, hkeyed, hunfaulted, hexclusive⟩

/-- The invariant does not speak of KEY, of the host's later transactions and of what the host observed. -/
theorem Inv.congr {s t : State} (h : Inv s) (hlanes : t.lanes = s.lanes) (hadLen : t.adLen = s.adLen)
    (hmsgLen : t.msgLen = s.msgLen) (hstatus : t.status = s.status) (hconfig : t.config = s.config)
    (hibuf : t.ibuf = s.ibuf) (hobuf : t.obuf = s.obuf) : Inv t :=
  ⟨h.buffers.congr hconfig hibuf hobuf, h.counters.congr hadLen hmsgLen,
    h.sequencing.congr hlanes hadLen hmsgLen hstatus⟩

theorem Inv.respond {s : State} (h : Inv s) (o : Output) : Inv (s.respond o) := h.congr rfl rfl rfl rfl rfl rfl rfl

theorem Inv.withPending {s : State} (h : Inv s) (ts : List Transaction) : Inv { s with pending := ts } :=
  h.congr rfl rfl rfl rfl rfl rfl rfl

/-- A recorded fault leaves the invariant: CAUSE is bound only while FAULT = 0. -/
theorem Inv.faulted {s : State} (h : Inv s) (c : Cause) : Inv (faulted c s) := by
  obtain ⟨hbuf, hcount, hrest, hlocked, habsorbing, hclosed, hkeyed, -, hexclusive⟩ := h
  exact ⟨hbuf.congr rfl rfl rfl, hcount.congr rfl rfl, hrest, hlocked, habsorbing, hclosed, hkeyed, nofun, hexclusive⟩

end Sys2Proof.Safety

namespace Sys2Proof.Machine

open Sys2Proof.Statements Sys2Proof.Safety

/-! ## Reset (R34, R230) -/

/-- Settles O18: every register is zero, and a buffer that lists no byte is canonical and inside any size. -/
theorem resetMeetsTheInvariant : Obligations.ResetMeetsTheInvariant := fun _ hc =>
  { buffers := ⟨hc, rfl, rfl, rfl, rfl⟩
    counters := ⟨Nat.zero_le _, Nat.zero_le _⟩
    sequencing :=
      ⟨fun _ => ⟨rfl, rfl, rfl, rfl, rfl⟩, nofun, nofun, nofun, fun h => absurd rfl h, fun _ => rfl, nofun⟩ }

theorem inv_resetTransaction {s : State} (h : Inv s) : Inv (resetTransaction s) :=
  (resetMeetsTheInvariant s.config h.buffers.size).congr rfl rfl rfl rfl rfl rfl rfl

/-! ## IbufWrite (R52) -/

theorem inv_ibufWrite {s : State} (h : Inv s) (addr : BitVec 16) (b : Byte) : Inv (ibufWrite addr b s) := by
  rcases Nat.lt_or_ge addr.toNat s.config.bufBytes with hlt | hge
  · rw [ibufWrite_of_lt b hlt]
    obtain ⟨⟨hsize, hiwf, howf, hiin, hoin⟩, hcount, hseq⟩ := h
    exact ⟨⟨hsize, Memory.wf_write hiwf _ _, howf, Memory.within_write hiin hlt _, hoin⟩, hcount.congr rfl rfl,
      hseq.congr rfl rfl rfl rfl⟩
  · rwa [ibufWrite_of_le b hge]

/-! ## What a command's effect keeps: the buffers -/

/-- A command whose tests all pass is inside the buffers. -/
theorem inRange_of_checks_pass {i : Instr} {s : State} (h : firstFault (checks i.row i.src i.dst i.len s) = none) :
    inRange i s := by
  obtain ⟨-, -, hsrc, hdst, -⟩ := (checks_pass_iff _ _ _ _ _).1 h
  refine (rangeTests_iff i s).1 ⟨?_, ?_⟩
  · simpa [inBuffer_iff, imp_iff_not_or] using hsrc
  · simpa [inBuffer_iff, imp_iff_not_or] using hdst

theorem counterFits_of_checks_pass {i : Instr} {s : State}
    (h : firstFault (checks i.row i.src i.dst i.len s) = none) : counterFits i s := by
  obtain ⟨-, -, -, -, hcount⟩ := (checks_pass_iff _ _ _ _ _).1 h
  exact (counterOk_row_iff i s).1 hcount

/-- A command whose tests all pass has its fixed size. -/
theorem len_eq_of_checks_pass {i : Instr} {s : State} (h : firstFault (checks i.row i.src i.dst i.len s) = none) :
    ∀ n c, fixedSize i = some (n, c) → i.len = n := by
  obtain ⟨-, hsize, -⟩ := (checks_pass_iff _ _ _ _ _).1 h
  rwa [requiredLen_row] at hsize

theorem effectOf_ibuf {i : Instr} (hi : i ≠ .zeroize) (s : State) : (effectOf i s).1.ibuf = s.ibuf := by
  cases i with
  | init => exact wipeIfLocked_ibuf s
  | verify16 | verify32 => unfold effectOf verifyTag; dsimp only; split <;> rfl
  | zeroize => exact absurd rfl hi
  | _ => rfl

/-- The bytes an ENC or a DEC writes are inside the buffer. -/
theorem within_cryptedObuf (f : Lanes → Chunk → Lanes × Chunk) (src dst len : Nat) {n : Nat} {s : State}
    (hin : Memory.within n s.obuf = true) (h : dst + len ≤ n) : Memory.within n (cryptedObuf f src dst len s) = true := by
  refine Memory.within_writeBytes (cryptBlocks_within f _ src dst n s hin (by omega)) ?_
  rw [List.length_map, List.length_range]
  omega

/-- The comparison clears OBUF, or finds the tags equal and leaves it. -/
theorem verifyTag_clears_or_verifies (expected given : List Byte) (s : State) :
    (verifyTag expected given s).1.obuf = [] ∨
      (verifyTag expected given s).1.status.authOk = true ∧ (verifyTag expected given s).1.obuf = s.obuf := by
  unfold verifyTag
  split
  · exact .inr ⟨rfl, rfl⟩
  · exact .inl rfl

/-- Every effect that is in range leaves OBUF inside its size. -/
theorem within_effectOf {i : Instr} {s : State} (hin : Memory.within s.config.bufBytes s.obuf = true)
    (hrange : inRange i s) (hsize : ∀ n c, fixedSize i = some (n, c) → i.len = n) :
    Memory.within s.config.bufBytes (effectOf i s).1.obuf = true := by
  have htag {tag : List Byte} {dst len n : Nat} (hlen : len = n) (h : dst + len ≤ s.config.bufBytes)
      (hlength : tag.length = n) :
      Memory.within s.config.bufBytes (writeTag tag dst s).obuf = true :=
    Memory.within_writeBytes hin (by omega)
  have hverify (expected given : List Byte) :
      Memory.within s.config.bufBytes (verifyTag expected given s).1.obuf = true := by
    rcases verifyTag_clears_or_verifies expected given s with h | ⟨-, h⟩ <;> rw [h]
    · rfl
    · exact hin
  cases i with
  | setkey | ad => exact hin
  | zeroize => rfl
  | init =>
    simp only [effectOf, wipeIfLocked_obuf]
    split
    · rfl
    · exact hin
  | enc =>
    rw [effectOf, obuf_encrypted]
    exact within_cryptedObuf _ _ _ _ hin hrange.2
  | dec =>
    rw [effectOf, obuf_decrypted]
    exact within_cryptedObuf _ _ _ _ hin hrange.2
  | final16 | macfinal16 => exact htag (hsize _ _ rfl) hrange (Block.length_bytes _)
  | final32 | macfinal32 => exact htag (hsize _ _ rfl) hrange (Lane.length_bytes _)
  | verify16 | verify32 => exact hverify _ _

theorem buffersSound_effectOf {i : Instr} {s : State} (h : BuffersSound s)
    (hpass : firstFault (checks i.row i.src i.dst i.len s) = none) : BuffersSound (effectOf i s).1 := by
  obtain ⟨hsize, hiwf, howf, hiin, hoin⟩ := h
  have hobuf := within_effectOf hoin (inRange_of_checks_pass hpass) (len_eq_of_checks_pass hpass)
  obtain ⟨hconfig, -⟩ := effectOf_frame i s
  have hibuf : (effectOf i s).1.ibuf = s.ibuf ∨ (effectOf i s).1.ibuf = [] := by
    by_cases hi : i = .zeroize
    · exact .inr (by rw [hi]; rfl)
    · exact .inl (effectOf_ibuf hi s)
  refine ⟨hconfig ▸ hsize, ?_, wf_effectOf i s howf, ?_, hconfig ▸ hobuf⟩
  · rcases hibuf with h | h <;> rw [h]
    · exact hiwf
    · rfl
  · rw [hconfig]
    rcases hibuf with h | h <;> rw [h]
    · exact hiin
    · rfl


/-! ## What a command's effect keeps: the counters and the sequencing fields -/

theorem countersBounded_effectOf {i : Instr} {s : State} (h : CountersBounded s) (hfits : counterFits i s) :
    CountersBounded (effectOf i s).1 := by
  obtain ⟨had, hmsg⟩ := h
  cases i with
  | setkey => exact ⟨had, hmsg⟩
  | ad => exact ⟨hfits, hmsg⟩
  | enc | dec => exact ⟨had, hfits⟩
  | verify16 | verify32 =>
    unfold effectOf verifyTag
    dsimp only
    split <;> exact ⟨Nat.zero_le _, Nat.zero_le _⟩
  | _ => exact ⟨Nat.zero_le _, Nat.zero_le _⟩

theorem messagePhase_cases (len : Nat) : messagePhase len = .msg ∨ messagePhase len = .closed := by
  unfold messagePhase
  split
  · exact .inl rfl
  · exact .inr rfl

theorem adPhase_cases (len : Nat) : adPhase .ad len = .ad ∨ adPhase .ad len = .msg := by
  unfold adPhase
  split
  · exact .inl rfl
  · exact .inr rfl

/-- OBUF is not locked where DIR is not DEC (R31 (b)). -/
theorem unlocked_of_dir {s : State} (h : SequencingSound s) (hdir : s.status.dir = .none ∨ s.status.dir = .enc) :
    s.status.obufLock = false := by
  by_contra hlock
  obtain ⟨hdec, -⟩ := h.locked (by simpa using hlock)
  simp [hdec] at hdir

/-- A command that ends an operation leaves the state at rest. -/
theorem sequencingSound_at_rest {s : State} (hphase : s.status.phase = .done) (hdir : s.status.dir = .none)
    (hlock : s.status.obufLock = false) (hlanes : s.lanes = Lanes.zero) (had : s.adLen = 0) (hmsg : s.msgLen = 0)
    (hkey : s.status.keyValid = true) (hcause : s.status.fault = false → s.status.cause = .none)
    (hauth : ¬(s.status.authOk = true ∧ s.status.authFail = true)) : SequencingSound s where
  atRest _ := ⟨hdir, hlock, hlanes, had, hmsg⟩
  locked h := by simp [hlock] at h
  absorbing h := by simp [hphase] at h
  closed h := by simp [hphase] at h
  keyed _ := hkey
  unfaulted := hcause
  exclusive := hauth

/-- A command that ends before the message leaves no DIR and no message. -/
theorem sequencingSound_before_message {s : State} (hphase : s.status.phase = .ad ∨ s.status.phase = .msg)
    (hdir : s.status.dir = .none) (hlock : s.status.obufLock = false) (hmsg : s.msgLen = 0)
    (hkey : s.status.keyValid = true) (hcause : s.status.fault = false → s.status.cause = .none)
    (hauth : ¬(s.status.authOk = true ∧ s.status.authFail = true)) : SequencingSound s where
  atRest h := by rcases hphase with hp | hp <;> simp [hp] at h
  locked h := by simp [hlock] at h
  absorbing _ := ⟨hdir, hmsg⟩
  closed h := by rcases hphase with hp | hp <;> simp [hp] at h
  keyed _ := hkey
  unfaulted := hcause
  exclusive := hauth

/-- A command that moves the message keeps DIR of its own and a PHASE of the message. -/
theorem sequencingSound_in_message {s : State} (hphase : s.status.phase = .msg ∨ s.status.phase = .closed)
    (hdir : s.status.dir = .dec ∨ s.status.dir = .enc ∧ s.status.obufLock = false)
    (hkey : s.status.keyValid = true) (hcause : s.status.fault = false → s.status.cause = .none)
    (hauth : ¬(s.status.authOk = true ∧ s.status.authFail = true)) : SequencingSound s where
  atRest h := by rcases hphase with hp | hp <;> simp [hp] at h
  locked h := by
    rcases hdir with hd | ⟨-, hl⟩
    · exact ⟨hd, hphase⟩
    · simp [hl] at h
  absorbing h := by rcases hphase with hp | hp <;> simp [hp] at h
  closed _ := hdir.symm.imp_left And.left
  keyed _ := hkey
  unfaulted := hcause
  exclusive := hauth

/-- A PHASE in which a finalizing command may follow has a key. -/
theorem keyValid_of_inOperation {s : State} (h : SequencingSound s) (hop : inOperation s.status) :
    s.status.keyValid = true := by
  refine h.keyed fun hidle => ?_
  simp [inOperation, hidle] at hop

theorem sequencingSound_writeTag {s : State} (h : SequencingSound s) (hop : inOperation s.status)
    (hdir : s.status.dir = .none ∨ s.status.dir = .enc) (tag : List Byte) (dst : Nat) :
    SequencingSound (writeTag tag dst s) := by
  have hlock := unlocked_of_dir h hdir
  have hkey := keyValid_of_inOperation h hop
  exact sequencingSound_at_rest rfl rfl hlock rfl rfl rfl hkey h.unfaulted h.exclusive

theorem sequencingSound_verifyTag {s : State} (h : SequencingSound s) (hop : inOperation s.status)
    (expected given : List Byte) : SequencingSound (verifyTag expected given s).1 := by
  have hkey := keyValid_of_inOperation h hop
  unfold verifyTag
  split
  · exact sequencingSound_at_rest rfl rfl rfl rfl rfl rfl hkey h.unfaulted (by simp)
  · exact sequencingSound_at_rest rfl rfl rfl rfl rfl rfl hkey h.unfaulted (by simp)

/-- Every effect of a command in sequence keeps the sequencing fields sound. -/
theorem sequencingSound_effectOf {i : Instr} {s : State} (h : SequencingSound s) (hseq : mayFollow i s.status) :
    SequencingSound (effectOf i s).1 := by
  have hmessage (hopen : s.status.phase = .ad ∨ s.status.phase = .msg) : inOperation s.status :=
    hopen.imp_right .inl
  cases i with
  | setkey =>
    obtain ⟨hrest, hlocked, habsorbing, hclosed, -, hunfaulted, hexclusive⟩ := h
    exact ⟨hrest, hlocked, habsorbing, hclosed, fun _ => rfl, hunfaulted, hexclusive⟩
  | init =>
    exact sequencingSound_before_message (.inl rfl) rfl rfl rfl hseq h.unfaulted (by simp [effectOf])
  | ad src len =>
    have had : s.status.phase = .ad := hseq
    obtain ⟨hdir, hmsg⟩ := h.absorbing had
    have hlock := unlocked_of_dir h (.inl hdir)
    have hkey := keyValid_of_inOperation h (.inl had)
    exact sequencingSound_before_message (had ▸ adPhase_cases len) hdir hlock hmsg hkey h.unfaulted h.exclusive
  | enc src dst len =>
    have hlock := unlocked_of_dir h hseq.2
    have hkey := keyValid_of_inOperation h (hmessage hseq.1)
    exact sequencingSound_in_message (messagePhase_cases len) (.inr ⟨rfl, hlock⟩) hkey h.unfaulted h.exclusive
  | dec src dst len =>
    have hkey := keyValid_of_inOperation h (hmessage hseq.1)
    exact sequencingSound_in_message (messagePhase_cases len) (.inl rfl) hkey h.unfaulted h.exclusive
  | final16 | final32 => exact sequencingSound_writeTag h hseq.1 hseq.2 _ _
  | macfinal16 | macfinal32 => exact sequencingSound_writeTag h (hmessage hseq.1) (.inl hseq.2) _ _
  | verify16 | verify32 => exact sequencingSound_verifyTag h hseq.1 _ _
  | zeroize =>
    exact ⟨fun _ => ⟨rfl, rfl, rfl, rfl, rfl⟩, nofun, nofun, nofun, fun hne => absurd rfl hne, h.unfaulted, nofun⟩

theorem inv_effectOf {i : Instr} {s : State} (h : Inv s) (hpass : firstFault (checks i.row i.src i.dst i.len s) = none) :
    Inv (effectOf i s).1 :=
  ⟨buffersSound_effectOf h.buffers hpass, countersBounded_effectOf h.counters (counterFits_of_checks_pass hpass),
    sequencingSound_effectOf h.sequencing (mayFollow_of_checks_pass hpass)⟩

/-! ## Every transaction, every step, every run -/

theorem inv_transact {tr : Transaction} {s t : State} (h : Inv s) (ht : transact tr s = .next t) : Inv t := by
  cases tr with
  | command w =>
    rcases commandWord_faulted_or_carried ht with ⟨c, rfl⟩ | ⟨i, -, hpass, rfl⟩
    · exact h.faulted c
    · exact (inv_effectOf h hpass).respond _
  | reset => injection ht with ht; exact ht ▸ inv_resetTransaction h
  | ibufWrite addr b => injection ht with ht; exact ht ▸ inv_ibufWrite h addr b
  | obufRead addr => injection ht with ht; exact ht ▸ h.respond _
  | statusRead => injection ht with ht; exact ht ▸ h.respond _

/-- Settles O19: a step is nothing or one transaction, and every transaction keeps the invariant. -/
theorem everyStepKeepsTheInvariant : Obligations.EveryStepKeepsTheInvariant := by
  intro s t h ht
  cases hp : s.pending with
  | nil =>
    rw [step_of_none hp] at ht
    injection ht with ht
    exact ht ▸ h
  | cons tr rest =>
    rw [step_of_pending hp] at ht
    exact inv_transact (h.withPending rest) ht

/-- What every step keeps holds after every run. -/
theorem run_keeps {P : State → Prop} (hstep : ∀ s t, P s → step s = .next t → P t) {n : Nat} {s t : State} (hs : P s)
    (h : core.run n s = .next t) : P t := by
  induction n generalizing s with
  | zero =>
    injection h with h
    exact h ▸ hs
  | succ n ih =>
    obtain ⟨u, hu, -⟩ := everyStepAnswersANextState s
    exact ih (hstep s u hs hu) ((core_run_succ n hu).symm.trans h)

/-- Settles O20: the invariant holds after reset, whatever the host issues, and every step keeps it. -/
theorem everyRunFromResetMeetsTheInvariant : Obligations.EveryRunFromResetMeetsTheInvariant := fun c ts _ _ hc =>
  run_keeps everyStepKeepsTheInvariant ((resetMeetsTheInvariant c hc).withPending ts)

end Sys2Proof.Machine

/-! PROOFS. What the host can learn (spec/20_memory.md section 1, spec/43_verify_zeroize.md section 2): no answer but a
byte of an open OBUF, the STATUS word or a completion code, none of which depends on a locked OBUF; and a lock that
opens leaves OBUF cleared or the tag verified. -/

namespace Sys2Proof.Machine

open Sys2Proof.Statements Sys2Proof.Safety

/-! ## How the lock opens (R122, R181, R187, R230) -/

/-- An effect that opens the lock clears OBUF or has found the tags equal. -/
theorem effectOf_opens_lock {i : Instr} {s : State} (hlock : s.status.obufLock = true)
    (hopen : (effectOf i s).1.status.obufLock = false) :
    (effectOf i s).1.obuf = [] ∨ (effectOf i s).1.status.authOk = true ∧ (effectOf i s).1.obuf = s.obuf := by
  cases i with
  | init => exact .inl ((wipeIfLocked_obuf s).trans (if_pos hlock))
  | verify16 | verify32 => exact verifyTag_clears_or_verifies _ _ _
  | zeroize => exact .inl rfl
  | dec => exact nomatch hopen
  | _ => exact nomatch hlock.symm.trans hopen

theorem transact_opens_lock {tr : Transaction} {s t : State} (hlock : s.status.obufLock = true)
    (h : transact tr s = .next t) (hopen : t.status.obufLock = false) :
    t.obuf = [] ∨ t.status.authOk = true ∧ t.obuf = s.obuf := by
  cases tr with
  | command w =>
    rcases commandWord_faulted_or_carried h with ⟨c, rfl⟩ | ⟨i, -, -, rfl⟩
    · exact nomatch hlock.symm.trans hopen
    · exact effectOf_opens_lock hlock hopen
  | reset => injection h with h; exact .inl (h ▸ rfl)
  | ibufWrite addr b =>
    injection h with h
    rw [← h, ibufWrite_status, hlock] at hopen
    cases hopen
  | obufRead addr => injection h with h; subst h; exact nomatch hlock.symm.trans hopen
  | statusRead => injection h with h; subst h; exact nomatch hlock.symm.trans hopen

/-- A step that opens the lock clears OBUF or has found the tags equal. -/
theorem step_opens_lock {s t : State} (hlock : s.status.obufLock = true) (h : step s = .next t)
    (hopen : t.status.obufLock = false) : t.obuf = [] ∨ t.status.authOk = true ∧ t.obuf = s.obuf := by
  cases hp : s.pending with
  | nil =>
    rw [step_of_none hp] at h
    injection h with h
    subst h
    exact nomatch hlock.symm.trans hopen
  | cons tr rest =>
    rw [step_of_pending hp] at h
    exact transact_opens_lock (s := { s with pending := rest }) hlock h hopen

/-- Settles O56: a locked OBUF is hidden, and the lock stays or opens as `step_opens_lock` says. -/
theorem unverifiedPlaintextIsNeverReadable : Obligations.UnverifiedPlaintextIsNeverReadable := by
  intro s t hlock h
  have hhidden {u : State} (hu : u.status.obufLock = true) : ObufHidden u := fun addr => obufByte_of_locked addr hu
  refine ⟨hhidden hlock, ?_⟩
  cases ht : t.status.obufLock with
  | true => exact .inl ⟨rfl, hhidden ht⟩
  | false =>
    refine .inr ((step_opens_lock hlock h ht).imp_left fun hnil a => ?_)
    rw [hnil, Memory.read_nil]

/-! ## Nothing but an open OBUF depends on OBUF -/

theorem verifyTag_withObuf (expected given : List Byte) (s : State) (m : Memory) :
    ∃ m', verifyTag expected given { s with obuf := m } =
      ({ (verifyTag expected given s).1 with obuf := m' }, (verifyTag expected given s).2) := by
  unfold verifyTag
  split <;> exact ⟨_, rfl⟩

/-- An effect depends on OBUF in OBUF alone. -/
theorem effectOf_obuf (i : Instr) (s : State) (m : Memory) :
    ∃ m', effectOf i { s with obuf := m } = ({ (effectOf i s).1 with obuf := m' }, (effectOf i s).2) := by
  cases i with
  | init =>
    unfold effectOf wipeIfLocked
    dsimp only
    split <;> exact ⟨_, rfl⟩
  | ad src len =>
    unfold effectOf
    dsimp only
    rw [absorbed_lanes_congr src len (s := { s with obuf := m }) (u := s) rfl rfl]
    exact ⟨_, rfl⟩
  | enc src dst len =>
    unfold effectOf
    dsimp only
    rw [encrypted_lanes_congr src dst len (s := { s with obuf := m }) (u := s) rfl rfl]
    exact ⟨_, rfl⟩
  | dec src dst len =>
    unfold effectOf
    dsimp only
    rw [decrypted_lanes_congr src dst len (s := { s with obuf := m }) (u := s) rfl rfl]
    exact ⟨_, rfl⟩
  | verify16 | verify32 => exact verifyTag_withObuf _ _ _ _
  | _ => exact ⟨_, rfl⟩

/-- A command that is not refused records the fault of its first test that fails, or has its effect. -/
theorem command_not_refused {row : Row} {src dst len : Nat} {s : State}
    (hgo : ¬(s.status.fault = true ∧ row ≠ .zeroize)) (e : State × Completion) :
    command row src dst len s (.ok e) = .next (match firstFault (checks row src dst len s) with
      | some c => raiseFault c s
      | none => e.1.respond (.completion e.2)) := by
  unfold command
  rw [if_neg hgo]
  cases firstFault (checks row src dst len s) <;> rfl

/-- A command depends on OBUF in OBUF alone: its tests do not read it. -/
theorem exec_obuf {i : Instr} {s t : State} (h : exec i s = .next t) (m : Memory) :
    ∃ m', exec i { s with obuf := m } = .next { t with obuf := m' } := by
  rw [exec_eq_command] at h ⊢
  by_cases hgo : s.status.fault = true ∧ i.row ≠ .zeroize
  · rw [command_refused hgo.1 hgo.2] at h
    injection h with h
    exact ⟨m, h ▸ command_refused hgo.1 hgo.2⟩
  · obtain ⟨m', hm'⟩ := effectOf_obuf i s m
    rw [command_not_refused hgo] at h
    injection h with h
    have hchecks : checks i.row i.src i.dst i.len { s with obuf := m } = checks i.row i.src i.dst i.len s := rfl
    rw [command_not_refused (s := { s with obuf := m }) hgo, hchecks, hm', ← h]
    cases firstFault (checks i.row i.src i.dst i.len s) with
    | none => exact ⟨m', rfl⟩
    | some c => exact ⟨m, rfl⟩

theorem commandWord_obuf {w : BitVec 64} {s t : State} (h : commandWord w s = .next t) (m : Memory) :
    ∃ m', commandWord w { s with obuf := m } = .next { t with obuf := m' } := by
  cases hd : decode w with
  | ok i =>
    rw [commandWord_of_decode hd] at h ⊢
    exact exec_obuf h m
  | error r =>
    have hno : ∀ i, decode w ≠ .ok i := by simp [hd]
    rw [commandWord_of_no_decode hno] at h ⊢
    injection h with h
    refine ⟨m, ?_⟩
    rw [← h, illegalCommand, illegalCommand]
    dsimp only
    split <;> rfl

/-- While OBUF is locked no transaction depends on it but in OBUF: a read of it gives 0x00. -/
theorem transact_obuf {tr : Transaction} {s t : State} (hlock : s.status.obufLock = true) (h : transact tr s = .next t)
    (m : Memory) : ∃ m', transact tr { s with obuf := m } = .next { t with obuf := m' } := by
  cases tr with
  | command w => exact commandWord_obuf h m
  | reset => injection h with h; exact ⟨[], h ▸ rfl⟩
  | statusRead => injection h with h; exact ⟨m, h ▸ rfl⟩
  | ibufWrite addr b =>
    injection h with h
    refine ⟨m, congrArg Host.Outcome.next ?_⟩
    rw [← h, ibufWrite, ibufWrite]
    dsimp only
    split <;> rfl
  | obufRead addr =>
    injection h with h
    refine ⟨m, congrArg Host.Outcome.next ?_⟩
    rw [← h, obufRead, obufRead, obufByte_of_locked addr hlock,
      obufByte_of_locked addr (s := { s with obuf := m }) hlock]
    rfl

/-- A step from a locked OBUF does not depend on what it holds, but in OBUF. -/
theorem step_sameButObuf {s u t v : State} (hlock : s.status.obufLock = true) (hsu : SameButObuf s u)
    (ht : step s = .next t) (hv : step u = .next v) : SameButObuf t v := by
  obtain ⟨m, rfl⟩ : ∃ m, u = { s with obuf := m } := ⟨u.obuf, hsu⟩
  cases hp : s.pending with
  | nil =>
    rw [step_of_none hp] at ht
    rw [step_of_none (s := { s with obuf := m }) hp] at hv
    injection ht with ht
    injection hv with hv
    rw [← ht, ← hv]
    rfl
  | cons tr rest =>
    rw [step_of_pending hp] at ht
    rw [step_of_pending (s := { s with obuf := m }) hp] at hv
    obtain ⟨m', hm'⟩ := transact_obuf (s := { s with pending := rest }) hlock ht m
    injection hv.symm.trans hm' with hv
    rw [hv]
    rfl

/-- Settles O57: the states stay alike by `step_sameButObuf`; where the lock opens, each of them has OBUF cleared or the tag
verified, and AUTH_OK is alike in both. -/
theorem lockedObufCannotBeLearned : Obligations.LockedObufCannotBeLearned := by
  intro s u t v hlock hsu ht hv
  have htv := step_sameButObuf hlock hsu ht hv
  refine ⟨by rw [htv], htv, fun hopen => ?_⟩
  have hlock' : u.status.obufLock = true := by rw [hsu]; exact hlock
  have hopen' : v.status.obufLock = false := by rw [htv]; exact hopen
  rcases step_opens_lock hlock ht hopen with hnil | ⟨hok, -⟩
  · rcases step_opens_lock hlock' hv hopen' with hnil' | ⟨hok', -⟩
    · exact .inl (hnil.trans hnil'.symm)
    · rw [htv] at hok'
      exact .inr hok'
  · exact .inr hok

/-! ## The other registers (spec/10_state.md sections 2 and 3) -/

/-- Settles O58: an answer is read from STATUS, OBUF and the buffer size, and what a transaction but a Command leaves in
STATUS and OBUF is what stood there, or the reset value. -/
theorem secretsHaveNoReadPath : Obligations.SecretsHaveNoReadPath := by
  intro s u t v tr hcmd hstatus hobuf hconfig hout ht hv
  refine ⟨?_, ?_⟩
  · rw [outputs_of_transact hcmd ht, outputs_of_transact hcmd hv, hout, answerOf_congr tr hstatus hobuf hconfig]
  · cases tr with
    | command w => exact absurd rfl (hcmd w)
    | ibufWrite addr b =>
      injection ht with ht
      injection hv with hv
      rw [← ht, ← hv, ibufWrite_status, ibufWrite_status, ibufWrite_obuf, ibufWrite_obuf]
      exact ⟨hstatus, hobuf⟩
    | reset =>
      injection ht with ht
      injection hv with hv
      rw [← ht, ← hv]
      exact ⟨rfl, rfl⟩
    | obufRead | statusRead =>
      injection ht with ht
      injection hv with hv
      rw [← ht, ← hv]
      exact ⟨hstatus, hobuf⟩

end Sys2Proof.Machine

/-! PROOFS. What a command leaves unchanged on every path (spec/40_permutation_core.md section 5 to
spec/43_verify_zeroize.md section 2): the fault record touches FAULT, CAUSE and the answer alone, so each frame is that
of the command's effect. -/

namespace Sys2Proof.Machine

open Sys2Proof.Statements

/-! ## A fault has no other effect (spec/60_exceptions.md section 2) -/

/-- The causes of the tests: E_PARTIAL_LEN is none of them (R209). -/
theorem cause_of_firstFault {i : Instr} {s : State} {c : Cause}
    (h : firstFault (checks i.row i.src i.dst i.len s) = some c) : c ≠ .partialLen ∧ c ≠ .none := by
  have hsize (n : Nat) (d : Cause) (hd : requiredLen i.row = some (n, d)) : d ≠ .partialLen ∧ d ≠ .none := by
    cases hrow : i.row <;> rw [hrow] at hd <;> cases hd <;> decide
  have hmem := firstFault_mem h
  simp only [checks, lengthChecks, List.mem_cons, List.mem_append, Prod.mk.injEq, List.not_mem_nil, or_false] at hmem
  rcases hmem with ⟨-, rfl⟩ | hlen | ⟨-, rfl⟩ | ⟨-, rfl⟩ | ⟨-, rfl⟩
  · decide
  · split at hlen
    · cases hlen
    · rename_i n d hd
      obtain ⟨-, rfl⟩ := Prod.mk.inj (List.mem_singleton.1 hlen)
      exact hsize n c hd
  all_goals decide

/-- Settles O47: with FAULT = 0 a command is not refused, and one that is carried out leaves FAULT, so the fault is that
of a test. -/
theorem aFaultRecordsOnlyItsCause : Obligations.AFaultRecordsOnlyItsCause := by
  intro i s t hf h ht
  rcases exec_cases h with ⟨hf', -⟩ | ⟨-, c, hc, rfl⟩ | ⟨-, -, rfl⟩
  · exact nomatch hf.symm.trans hf'
  · exact ⟨rfl, cause_of_firstFault hc⟩
  · obtain ⟨-, -, -, hfault, -⟩ := effectOf_frame i s
    exact nomatch (hfault.trans hf).symm.trans ht

/-! ## Frames of single commands -/

/-- Settles O49: the effect is the key and KEY_VALID. -/
theorem setkeyFrame : Obligations.SetkeyFrame := by
  intro src len s t h
  rcases exec_faulted_or_carried h with ⟨c, rfl⟩ | ⟨-, -, rfl⟩ <;> rfl

/-- Settles O51: the effect is the lanes, AD_LEN and PHASE. -/
theorem adFrame : Obligations.AdFrame := by
  intro src len s t h
  rcases exec_faulted_or_carried h with ⟨c, rfl⟩ | ⟨-, -, rfl⟩ <;> rfl

/-- Settles O50: INIT's effect touches OBUF by the wipe alone, which spares an open OBUF. -/
theorem initFrame : Obligations.InitFrame := by
  intro src len s t h
  rcases exec_faulted_or_carried h with ⟨c, rfl⟩ | ⟨-, -, rfl⟩
  · exact ⟨rfl, fun _ _ => rfl⟩
  · rw [effectOf_init_frame]
    refine ⟨rfl, fun hopen a => ?_⟩
    rw [State.respond_obuf, obuf_wipeIfLocked_of_unlocked hopen]

/-- Settles O52: the bytes written are those of `read_cryptedObuf`, for both directions. -/
theorem encAndDecFrame : Obligations.EncAndDecFrame := by
  intro src dst len s t
  refine ⟨fun h => ?_, fun h => ?_, fun h hwf a ha => ?_⟩
  · rcases exec_faulted_or_carried h with ⟨c, rfl⟩ | ⟨-, -, rfl⟩ <;> rfl
  · rcases exec_faulted_or_carried h with ⟨c, rfl⟩ | ⟨-, -, rfl⟩ <;> rfl
  · rcases h with h | h
    · rcases exec_faulted_or_carried h with ⟨c, rfl⟩ | ⟨-, -, rfl⟩
      · rfl
      · rw [effectOf, State.respond_obuf, obuf_encrypted, read_cryptedObuf (fun _ _ => rfl) src dst len hwf,
          if_neg (by omega)]
    · rcases exec_faulted_or_carried h with ⟨c, rfl⟩ | ⟨-, -, rfl⟩
      · rfl
      · rw [effectOf, State.respond_obuf, obuf_decrypted, read_cryptedObuf (fun _ _ => rfl) src dst len hwf,
          if_neg (by omega)]

/-! ## The commands that write a tag (R165, R166, R171, R172) -/

/-- The four rows. -/
def WritesATag (i : Instr) : Prop := i.row = .final16 ∨ i.row = .final32 ∨ i.row = .macfinal16 ∨ i.row = .macfinal32

/-- Each of the four writes a tag as long as its fixed size, at DST. -/
theorem effectOf_tagWriter {i : Instr} (h : WritesATag i) (s : State) :
    ∃ tag : List Byte, effectOf i s = (writeTag tag i.dst s, .ok) ∧ fixedSize i = some (tag.length, .tagLen) := by
  have hblock (b : Block) : some (16, Cause.tagLen) = some (b.bytes.length, .tagLen) := by rw [Block.length_bytes]
  have hlane (l : Lane) : some (32, Cause.tagLen) = some (l.bytes.length, .tagLen) := by rw [Lane.length_bytes]
  cases i with
  | final16 | macfinal16 => exact ⟨_, rfl, hblock _⟩
  | final32 | macfinal32 => exact ⟨_, rfl, hlane _⟩
  | _ => simp [WritesATag, Instr.row] at h

/-- None of the four follows a DEC (R28). -/
theorem not_mayFollow_of_dec {i : Instr} (h : WritesATag i) {st : Status} (hdir : st.dir = .dec) : ¬mayFollow i st := by
  cases i with
  | final16 | final32 | macfinal16 | macfinal32 => simp [mayFollow, hdir]
  | _ => simp [WritesATag, Instr.row] at h

/-- Settles O53: carried out, LEN is the tag's length, and the tag is written at DST. -/
theorem tagWritersFrame : Obligations.TagWritersFrame := by
  intro i s t hi h
  rcases exec_faulted_or_carried h with ⟨c, rfl⟩ | ⟨hpass, -, rfl⟩
  · exact ⟨rfl, fun _ _ _ => rfl⟩
  · obtain ⟨tag, heffect, hfix⟩ := effectOf_tagWriter hi s
    have hlen := len_eq_of_checks_pass hpass _ _ hfix
    rw [heffect]
    refine ⟨rfl, fun hwf a ha => ?_⟩
    rw [State.respond_obuf, read_obuf_writeTag _ _ hwf, if_neg (by omega)]

/-- Settles O59: after a DEC each of the four is out of sequence, so it leaves the fault record alone. -/
theorem expectedTagIsNeverWritten : Obligations.ExpectedTagIsNeverWritten := by
  intro i s t hi hdir h
  rcases exec_faulted_or_carried h with ⟨c, rfl⟩ | ⟨hpass, -, -⟩
  · exact ⟨rfl, rfl⟩
  · exact absurd (mayFollow_of_checks_pass hpass) (not_mayFollow_of_dec hi hdir)

/-! ## VERIFY (R183, R184) -/

theorem effectOf_verify {i : Instr} (h : i.row = .verify16 ∨ i.row = .verify32) (s : State) :
    ∃ expected given : List Byte, effectOf i s = verifyTag expected given s := by
  cases i with
  | verify16 | verify32 => exact ⟨_, _, rfl⟩
  | _ => simp [Instr.row] at h

/-- Settles O54: the comparison leaves OBUF where it answers OK. -/
theorem verifyFrame : Obligations.VerifyFrame := by
  intro i s t hi h
  rcases exec_faulted_or_carried h with ⟨c, rfl⟩ | ⟨-, -, rfl⟩
  · exact ⟨rfl, fun _ _ => rfl⟩
  · obtain ⟨expected, given, heffect⟩ := effectOf_verify hi s
    rw [heffect]
    by_cases hequal : tagEqual expected given = true
    · rw [verifyTag_of_equal hequal]
      exact ⟨rfl, fun _ _ => rfl⟩
    · rw [verifyTag_of_different hequal]
      exact ⟨rfl, fun hne => absurd rfl hne⟩

/-! ## KEY and IBUF (spec/10_state.md section 3) -/

theorem effectOf_key {i : Instr} (hset : i.row ≠ .setkey) (hzero : i.row ≠ .zeroize) (s : State) :
    (effectOf i s).1.key = s.key ∧ (effectOf i s).1.status.keyValid = s.status.keyValid := by
  cases i with
  | setkey => exact absurd rfl hset
  | zeroize => exact absurd rfl hzero
  | init => exact ⟨wipeIfLocked_key s, rfl⟩
  | verify16 | verify32 => unfold effectOf verifyTag; dsimp only; split <;> exact ⟨rfl, rfl⟩
  | _ => exact ⟨rfl, rfl⟩

/-- Settles O55: no other effect, and no other transaction, touches KEY, KEY_VALID or IBUF. -/
theorem onlyTheseChangeKeyAndIbuf : Obligations.OnlyTheseChangeKeyAndIbuf := by
  intro s t tr rest hp h
  rw [step_of_pending hp] at h
  cases tr with
  | reset => exact ⟨fun _ => .inl rfl, fun _ => .inl rfl⟩
  | ibufWrite addr b =>
    injection h with h
    refine ⟨fun hne => ?_, fun _ => .inr (.inl ⟨addr, b, rfl⟩)⟩
    rw [← h, ibufWrite_key, ibufWrite_status] at hne
    simp at hne
  | obufRead | statusRead =>
    injection h with h
    subst h
    exact ⟨fun hne => by simp [obufRead, statusRead] at hne, fun hne => absurd rfl hne⟩
  | command w =>
    rcases commandWord_faulted_or_carried h with ⟨c, rfl⟩ | ⟨i, hd, -, rfl⟩
    · exact ⟨fun hne => by simp [faulted] at hne, fun hne => absurd rfl hne⟩
    · refine ⟨fun hne => .inr ⟨w, i, rfl, hd, ?_⟩, fun hne => .inr (.inr ⟨w, rfl, ?_⟩)⟩
      · by_contra hrow
        obtain ⟨hset, hzero⟩ := not_or.1 hrow
        obtain ⟨hkey, hvalid⟩ := effectOf_key hset hzero { s with pending := rest }
        exact hne.elim (fun h => h hkey) fun h => h hvalid
      · by_contra hz
        exact hne (effectOf_ibuf (fun hi => hz (hi ▸ hd)) { s with pending := rest })

/-! ## A data command of length 0 (R141) -/

theorem effectOf_ad_zero (src : Nat) (s : State) : effectOf (.ad src 0) s = (s, .ok) := rfl

theorem effectOf_enc_zero (src dst : Nat) (s : State) :
    effectOf (.enc src dst 0) s = ({ s with status := { s.status with phase := .msg, dir := .enc } }, .ok) := rfl

theorem effectOf_dec_zero (src dst : Nat) (s : State) :
    effectOf (.dec src dst 0) s =
      ({ s with status := { s.status with phase := .msg, dir := .dec, obufLock := true } }, .ok) := rfl

/-- Settles O60: with LEN = 0 no block is absorbed or written and the counter stays; PHASE, DIR and the lock stay by
hypothesis. -/
theorem emptyDataCommandIsANoOp : Obligations.EmptyDataCommandIsANoOp := by
  intro i s hi hlen hf hseq hrange hfits hphase hdir hlock
  have hdone (hfix : fixedSize i = none) (heffect : effectOf i s = (s, .ok)) :
      exec i s = .next { s with outputs := s.outputs ++ [.completion .ok] } := by
    rw [exec_eq_effectOf hf hseq (len_eq_of_no_fixedSize hfix) hrange hfits, heffect]
    rfl
  cases i with
  | ad src len =>
    obtain rfl : len = 0 := hlen
    exact hdone rfl (effectOf_ad_zero src s)
  | enc src dst len =>
    obtain rfl : len = 0 := hlen
    have hmsg : Phase.msg = s.status.phase := hphase
    have henc : Dir.enc = s.status.dir := hdir
    exact hdone rfl (by rw [effectOf_enc_zero, hmsg, henc])
  | dec src dst len =>
    obtain rfl : len = 0 := hlen
    have hmsg : Phase.msg = s.status.phase := hphase
    have hdec : Dir.dec = s.status.dir := hdir
    exact hdone rfl (by rw [effectOf_dec_zero, hmsg, hdec, ← hlock rfl])
  | _ => simp [Instr.row] at hi

end Sys2Proof.Machine

/-! PROOFS. Bytes and lanes: the STATUS word (spec/10_state.md R26 to R30), the buffers byte by byte (spec/20_memory.md
R53, R54), the AES round (spec/40_permutation_core.md section 1), and that the two halves of a lane never mix (section
2). -/

namespace Sys2Proof.Machine

open Sys2Proof.Statements

/-! ## The STATUS word -/

theorem phaseCode_le (p : Phase) : p.code.toNat ≤ 4 := by cases p <;> decide

theorem dirCode_le (d : Dir) : d.code.toNat ≤ 2 := by cases d <;> decide

theorem causeCode_le (c : Cause) : c.code.toNat ≤ 8 := by cases c <;> decide

/-- The fields of the word, each read at its bits: PHASE, DIR, CAUSE and the reserved bits. -/
theorem word_extract (st : Status) :
    st.word.extractLsb' 0 3 = st.phase.code ∧ st.word.extractLsb' 3 2 = st.dir.code ∧
      st.word.extractLsb' 10 4 = st.cause.code ∧ st.word.extractLsb' 14 18 = 0 := by
  unfold Status.word
  refine ⟨?_, ?_, ?_, ?_⟩
  · rw [BitVec.extractLsb'_append_eq_of_add_le (by decide), BitVec.extractLsb'_eq_self]
  · rw [BitVec.extractLsb'_append_eq_of_le (by decide), BitVec.extractLsb'_append_eq_of_add_le (by decide),
      BitVec.extractLsb'_eq_self]
  · repeat rw [BitVec.extractLsb'_append_eq_of_le (by decide)]
    rw [BitVec.extractLsb'_append_eq_of_add_le (by decide), BitVec.extractLsb'_eq_self]
  · repeat rw [BitVec.extractLsb'_append_eq_of_le (by decide)]
    rfl

/-- The one-bit fields. -/
theorem word_getLsbD (st : Status) :
    st.word.getLsbD 5 = st.keyValid ∧ st.word.getLsbD 6 = st.obufLock ∧ st.word.getLsbD 7 = st.authOk ∧
      st.word.getLsbD 8 = st.authFail ∧ st.word.getLsbD 9 = st.fault := by
  simp only [Status.word, BitVec.getLsbD_append]
  simp

/-- Settles O12: the codes are evaluated, the word is read field by field. -/
theorem statusWordFields : Obligations.StatusWordFields := by
  refine ⟨by decide, by decide, by decide, by decide, fun st => ?_⟩
  obtain ⟨hphase, hdir, hcause, hreserved⟩ := word_extract st
  obtain ⟨hkey, hlock, hok, hfail, hfault⟩ := word_getLsbD st
  rw [hphase, hdir, hcause]
  exact ⟨rfl, rfl, hkey, hlock, hok, hfail, hfault, rfl, hreserved, phaseCode_le _, dirCode_le _, causeCode_le _⟩

/-! ## The buffers -/

/-- Settles O15: `getD_readBytes` and `read_writeBytes` say both sides byte by byte. -/
theorem bufferReadsAndWritesByByte : Obligations.BufferReadsAndWritesByByte := by
  intro m addr n v hwf
  refine ⟨Memory.length_readBytes m addr n, fun k hk => ?_, Memory.wf_writeBytes hwf addr v, fun k hk => ?_,
    fun a ha => ?_⟩
  · rw [Memory.getD_readBytes, if_pos hk]
  · rw [Memory.read_writeBytes hwf, if_pos (by omega), Nat.add_sub_cancel_left]
  · rw [Memory.read_writeBytes hwf, if_neg (by omega)]

/-! ## The AES round -/

/-- Byte `r` of column `c` of ShiftRows. -/
theorem byte_shiftRows (b : Block) {r c : Nat} (hr : r < 4) (hc : c < 4) :
    Block.byte (shiftRows b) (r + 4 * c) = Block.byte b (r + 4 * ((c + r) % 4)) := by
  rw [shiftRows, Block.byte_ofFn _ (by omega), show (r + 4 * c) % 4 = r by omega, show (r + 4 * c) / 4 = c by omega]

/-- Byte `r` of column `c` of MixColumns. -/
theorem byte_mixColumns (b : Block) {r c : Nat} (hr : r < 4) (hc : c < 4) :
    Block.byte (mixColumns b) (4 * c + r) =
      mixColumn (Block.byte b (4 * c)) (Block.byte b (4 * c + 1)) (Block.byte b (4 * c + 2)) (Block.byte b (4 * c + 3))
        r := by
  rw [mixColumns, Block.byte_ofFn _ (by omega), show (4 * c + r) / 4 = c by omega, show (4 * c + r) % 4 = r by omega]

/-- Settles O21: both are given byte by byte. -/
theorem shiftRowsAndMixColumnsByByte : Obligations.ShiftRowsAndMixColumnsByByte :=
  ⟨fun b _ _ hr hc => byte_shiftRows b hr hc, fun b _ hc =>
    ⟨byte_mixColumns b (r := 0) (by decide) hc, byte_mixColumns b (r := 1) (by decide) hc,
     byte_mixColumns b (r := 2) (by decide) hc, byte_mixColumns b (r := 3) (by decide) hc⟩⟩

/-- The inverse in GF(2^8) as the power `a^254`: `x ↦ x^2 · a` six times gives `a^127`, squared once more. 0 stays 0. -/
def gfInverse (a : Byte) : Byte :=
  let r := (fun x => gfMul (gfMul x x) a)^[6] a
  gfMul r r

/-- The table's construction, checked for the 256 bytes. -/
theorem sbox_eq_affine_gfInverse (a : Byte) :
    (if a = 0 then gfInverse a = 0 else gfMul a (gfInverse a) = 1) ∧ sbox a = affine (gfInverse a) := by
  revert a
  decide +kernel

/-- Settles O22: the witness is the inverse as a power. -/
theorem sboxIsTheAffineInverse : Obligations.SboxIsTheAffineInverse := fun a =>
  ⟨gfInverse a, sbox_eq_affine_gfInverse a⟩

/-! ## The two instances (R116, R117) -/

theorem inst_aesRoundX2 (a b : Lane) (k : Nat) : inst (aesRoundX2 a b) k = aesRound (inst a k) (inst b k) := by
  unfold inst aesRoundX2
  split <;> rfl

theorem inst_xor (a b : Lane) (k : Nat) : inst (Lane.xor a b) k = inst a k ^^^ inst b k := by
  unfold inst Lane.xor
  split <;> rfl

/-- Two register files agree in the half `k` of every lane. -/
structure SameInstance (k : Nat) (s u : Lanes) : Prop where
  s0 : inst s.s0 k = inst u.s0 k
  s1 : inst s.s1 k = inst u.s1 k
  s2 : inst s.s2 k = inst u.s2 k
  s3 : inst s.s3 k = inst u.s3 k
  s4 : inst s.s4 k = inst u.s4 k
  s5 : inst s.s5 k = inst u.s5 k
  s6 : inst s.s6 k = inst u.s6 k
  s7 : inst s.s7 k = inst u.s7 k

/-- An update keeps the agreement when the message halves agree too. -/
theorem SameInstance.update {k : Nat} {s u : Lanes} {m0 m1 n0 n1 : Lane} (h : SameInstance k s u)
    (h0 : inst m0 k = inst n0 k) (h1 : inst m1 k = inst n1 k) :
    SameInstance k (update s m0 m1) (update u n0 n1) := by
  obtain ⟨e0, e1, e2, e3, e4, e5, e6, e7⟩ := h
  constructor <;> simp only [update_eq, inst_aesRoundX2, inst_xor, e0, e1, e2, e3, e4, e5, e6, e7, h0, h1]

/-- Settles O24: the agreement of all eight lanes is what an update keeps. -/
theorem instancesDoNotMixInUpdate : Obligations.InstancesDoNotMixInUpdate := by
  intro k s u m0 m1 n0 n1 e0 e1 e2 e3 e4 e5 e6 e7 h0 h1
  obtain ⟨r0, r1, r2, r3, r4, r5, r6, r7⟩ :=
    SameInstance.update (s := s) (u := u) ⟨e0, e1, e2, e3, e4, e5, e6, e7⟩ h0 h1
  exact ⟨r0, r1, r2, r3, r4, r5, r6, r7⟩

theorem SameInstance.finalUpdates {k : Nat} {s u : Lanes} {t t' : Lane} (h : SameInstance k s u)
    (ht : inst t k = inst t' k) : SameInstance k (finalUpdates t s) (finalUpdates t' u) := by
  have hrounds (n : Nat) :
      SameInstance k ((fun u => Machine.update u t t)^[n] s) ((fun u => Machine.update u t' t')^[n] u) := by
    induction n with
    | zero => exact h
    | succ n ih =>
      rw [Function.iterate_succ_apply', Function.iterate_succ_apply']
      exact ih.update ht ht
  exact hrounds finalRounds

/-- A MAC tag is read from the halves 0 alone (R170). -/
theorem macTag_congr {s u : Lanes} (h : SameInstance 0 s u) : macTag16 s = macTag16 u ∧ macTag32 s = macTag32 u := by
  obtain ⟨e0, e1, e2, e3, e4, e5, e6, e7⟩ := h
  simp only [macTag16, macTag32, xorLanes0to6, xorLanes0to3, xorLanes4to7, inst_xor, e0, e1, e2, e3, e4, e5, e6, e7,
    and_self]

/-- Settles O36: seven updates from the same lanes keep the halves 0 alike. -/
theorem macTagIgnoresInstanceOne : Obligations.MacTagIgnoresInstanceOne := fun _ _ _ h =>
  macTag_congr (SameInstance.finalUpdates ⟨rfl, rfl, rfl, rfl, rfl, rfl, rfl, rfl⟩ h)

/-! ## The reductions and the comparison (R162, R163, R180) -/

/-- Settles O35: the two halves of Tag32 together hold lanes 0 to 7, so lane 7 is left over Tag16. -/
theorem tagReductionsDifferByLane7 : Obligations.TagReductionsDifferByLane7 := by
  intro s
  have hsplit : Lane.xor (xorLanes0to6 s) s.s7 = Lane.xor (xorLanes0to3 s) (xorLanes4to7 s) := by
    simp only [xorLanes0to6, xorLanes0to3, xorLanes4to7, Lane.xor, BitVec.xor_assoc]
  have hfold (a b : Lane) : foldInstances (Lane.xor a b) = foldInstances a ^^^ foldInstances b := by
    simp only [foldInstances, inst_xor]
    ac_rfl
  calc tag16 s = foldInstances (Lane.xor (xorLanes0to6 s) s.s7) ^^^ foldInstances s.s7 := by
        rw [hfold, BitVec.xor_assoc, BitVec.xor_self, BitVec.xor_zero, tag16]
    _ = (tag32 s).inst0 ^^^ (tag32 s).inst1 ^^^ foldInstances s.s7 := by rw [hsplit, hfold, tag32]
    _ = (tag32 s).inst0 ^^^ (tag32 s).inst1 ^^^ inst s.s7 0 ^^^ inst s.s7 1 := (BitVec.xor_assoc _ _ _).symm

/-- Settles O39: the OR of the differences is zero exactly when the strings are equal. -/
theorem tagEqualExactlyWhenEqual : Obligations.TagEqualExactlyWhenEqual := fun _ _ => tagEqual_iff

end Sys2Proof.Machine

/-! PROOFS. The duplex engine from outside (spec/41_duplex_engine.md): a message is determined by its ciphertext
(sections 4 and 5), and a data command is a chain of commands cut at block boundaries (section 1). -/

namespace Sys2Proof.Machine

open Sys2Proof.Statements

/-! ## What is absorbed depends on the bytes of the string alone -/

theorem blockAt_congr {f g : Nat → Byte} {len i : Nat} (h : ∀ k, 64 * i ≤ k → k < 64 * i + 64 → k < len → f k = g k) :
    blockAt f len i = blockAt g len i := by
  refine Chunk.ofBytes_congr fun j hj => ?_
  rw [getD_map_range, getD_map_range, if_pos hj, if_pos hj]
  split
  · exact h _ (by omega) (by omega) ‹_›
  · rfl

theorem lanesBefore_congr (s : Lanes) {f g : Nat → Byte} {len q : Nat} (hq : 64 * q < len + 64)
    (h : ∀ k, k < 64 * q → k < len → f k = g k) : lanesBefore s f len q = lanesBefore s g len q := by
  rw [lanesBefore_eq_foldl s f hq, lanesBefore_eq_foldl s g hq]
  refine congrArg (List.foldl absorb s) (List.map_congr_left fun i hi => blockAt_congr fun k _ hk => h k ?_)
  have := List.mem_range.1 hi
  omega

theorem absorbAll_congr (s : Lanes) {f g : Nat → Byte} {len : Nat} (h : ∀ k, k < len → f k = g k) :
    absorbAll s f len = absorbAll s g len := by
  rw [absorbAll_eq_lanesBefore s f (q := (len + 63) / 64) (by omega),
    absorbAll_eq_lanesBefore s g (q := (len + 63) / 64) (by omega)]
  exact lanesBefore_congr s (by omega) fun k _ => h k

/-- The keystream byte for byte `k` depends on the bytes before it alone. -/
theorem keystreamByte_congr (s : Lanes) {f g : Nat → Byte} {len k : Nat} (hk : k < len) (h : ∀ j, j < k → f j = g j) :
    keystreamByte s f len k = keystreamByte s g len k := by
  rw [keystreamByte_eq, keystreamByte_eq, lanesBefore_congr s (by omega) fun j hj _ => h j (by omega)]

/-- Two strings with the same ciphertext from the same lanes are the same (R144, R146). -/
theorem plaintext_unique (s : Lanes) {f g : Nat → Byte} {len : Nat}
    (h : ∀ k, k < len → f k ^^^ keystreamByte s f len k = g k ^^^ keystreamByte s g len k) :
    ∀ k, k < len → f k = g k := by
  intro k
  induction k using Nat.strong_induction_on with
  | _ k ih =>
    intro hk
    have hbyte := h k hk
    rw [keystreamByte_congr s hk fun j hj => ih j hj (by omega)] at hbyte
    exact (BitVec.xor_left_inj _).1 hbyte

/-! ## The partial block in both directions (R147) -/

/-- Taking the keystream off the first `r` bytes of `p` with the keystream on gives `p` back. -/
theorem take_xor_keystream_twice (s : Lanes) {p : List Byte} {r : Nat} (hp : p.length = r) (hr : r ≤ 64) :
    (Chunk.xor (Chunk.ofBytes ((Chunk.xor (Chunk.ofBytes p) (keystream s)).bytes.take r)) (keystream s)).bytes.take r =
      p := by
  refine eq_of_getD (by rw [length_take_bytes _ hr, hp]) fun j hj => ?_
  have hj : j < r := by rwa [length_take_bytes _ hr] at hj
  rw [getD_take, if_pos hj, Chunk.getD_bytes, Chunk.byte_xor, Chunk.byte_ofBytes _ (by omega), getD_take, if_pos hj,
    Chunk.getD_bytes, Chunk.byte_xor, Chunk.byte_ofBytes _ (by omega), BitVec.xor_assoc, BitVec.xor_self, BitVec.xor_zero]

/-- Settles O30: the keystream taken off twice leaves the plaintext, which both directions absorb; the length test is the
first of DecPartial. -/
theorem partialBlockRoundTrip : Obligations.PartialBlockRoundTrip := by
  refine ⟨fun s p r hp h0 h64 => ?_, fun s c r h => if_neg h⟩
  simp only [decPartial, encPartial, if_pos (And.intro h0 h64), Chunk.ofBytes_append_zeros,
    take_xor_keystream_twice s hp (by omega)]

/-! ## ENC and then DEC (spec/41_duplex_engine.md section 5) -/

/-- The ciphertext bytes an ENC writes. -/
theorem read_obuf_enc (src dst : Nat) {len : Nat} {s : State} (hwf : Memory.wf s.obuf = true) {k : Nat} (hk : k < len) :
    Memory.read (effectOf (.enc src dst len) s).1.obuf (dst + k) =
      Memory.read s.ibuf (src + k) ^^^ keystreamByte s.lanes (fun k => Memory.read s.ibuf (src + k)) len k := by
  rw [effectOf, obuf_encrypted, read_cryptedObuf (fun _ _ => rfl) src dst len hwf, if_pos (by omega),
    Nat.add_sub_cancel_left, outByte_eq (lanes_cryptBlocks_encBlock src dst s) hk]

/-- The bytes a DEC writes. -/
theorem read_obuf_dec (src dst : Nat) {len : Nat} {s : State} (hwf : Memory.wf s.obuf = true) {k : Nat} (hk : k < len) :
    Memory.read (effectOf (.dec src dst len) s).1.obuf (dst + k) = outByte decBlock src dst s k := by
  rw [effectOf, obuf_decrypted, read_cryptedObuf (fun _ _ => rfl) src dst len hwf, if_pos (by omega),
    Nat.add_sub_cancel_left]

/-- A DEC of the ciphertext of `f` writes `f`. -/
theorem outByte_decBlock_of_ciphertext {src dst len : Nat} {s : State} {f : Nat → Byte}
    (h : ∀ k, k < len → Memory.read s.ibuf (src + k) = f k ^^^ keystreamByte s.lanes f len k) :
    ∀ k, k < len → outByte decBlock src dst s k = f k := by
  refine plaintext_unique s.lanes fun k hk => ?_
  have hout := outByte_eq (lanes_cryptBlocks_decBlock src dst s (len := len)) hk
  rw [← h k hk, hout, BitVec.xor_assoc, BitVec.xor_self, BitVec.xor_zero]

/-- A DEC of the ciphertext of `f` absorbs `f`. -/
theorem lanes_dec_of_ciphertext {src dst len : Nat} {s : State} {f : Nat → Byte}
    (h : ∀ k, k < len → Memory.read s.ibuf (src + k) = f k ^^^ keystreamByte s.lanes f len k) :
    (effectOf (.dec src dst len) s).1.lanes = absorbAll s.lanes f len := by
  rw [effectOf, lanes_decrypted]
  exact absorbAll_congr _ (outByte_decBlock_of_ciphertext h)

/-- Settles O32: what ENC wrote is the ciphertext of the bytes at SRC. -/
theorem decUndoesEnc : Obligations.DecUndoesEnc := by
  intro src dst len src' dst' s t u v hs ht hexec hu hv hexec' hwf hwf' hlanes hmsg hbytes
  obtain ⟨-, rfl⟩ := exec_carried hs hexec ht
  obtain ⟨-, rfl⟩ := exec_carried hu hexec' hv
  have hct : ∀ k, k < len → Memory.read u.ibuf (src' + k) = Memory.read s.ibuf (src + k) ^^^
      keystreamByte u.lanes (fun k => Memory.read s.ibuf (src + k)) len k := fun k hk => by
    rw [hbytes k hk, hlanes]
    exact read_obuf_enc src dst hwf hk
  refine ⟨?_, congrArg (· + len) hmsg, fun k hk => ?_⟩
  · rw [State.respond_lanes, lanes_dec_of_ciphertext hct, hlanes, State.respond_lanes, effectOf, lanes_encrypted]
  · exact (read_obuf_dec src' dst' hwf' hk).trans (outByte_decBlock_of_ciphertext hct k hk)

/-! ## Commands cut at block boundaries (R141) -/

/-- The blocks of an AD of `a + b` bytes are those of the `a` bytes and then those of the `b` bytes. -/
theorem absorbed_split (src : Nat) {a : Nat} (ha : a % 64 = 0) (b : Nat) (s : State) :
    absorbLast src (a + b) (absorbBlocks (fullBlocks (a + b)) src s) =
      absorbLast (src + a) b
        (absorbBlocks (fullBlocks b) (src + a) (absorbLast src a (absorbBlocks (fullBlocks a) src s))) := by
  rw [absorbBlocks_split src ha, absorbLast_eq src a, if_neg (by omega), absorbLast_eq, absorbLast_eq,
    show (a + b) % 64 = b % 64 by omega, show src + 64 * ((a + b) / 64) = src + a + 64 * (b / 64) by omega]

/-- The blocks of an ENC, in the same way. -/
theorem encrypted_split (src dst : Nat) {a : Nat} (ha : a % 64 = 0) (b : Nat) (s : State) :
    encryptLast src dst (a + b) (cryptBlocks encBlock (fullBlocks (a + b)) src dst s) =
      encryptLast (src + a) (dst + a) b (cryptBlocks encBlock (fullBlocks b) (src + a) (dst + a)
        (encryptLast src dst a (cryptBlocks encBlock (fullBlocks a) src dst s))) := by
  rw [cryptBlocks_split encBlock src dst ha, encryptLast_eq src dst a, if_neg (by omega), encryptLast_eq, encryptLast_eq,
    show (a + b) % 64 = b % 64 by omega, show src + 64 * ((a + b) / 64) = src + a + 64 * (b / 64) by omega,
    show dst + 64 * ((a + b) / 64) = dst + a + 64 * (b / 64) by omega]

/-- The blocks of a DEC, in the same way. -/
theorem decrypted_split (src dst : Nat) {a : Nat} (ha : a % 64 = 0) (b : Nat) (s : State) :
    decrypted src dst (a + b) s = decrypted (src + a) (dst + a) b (decrypted src dst a s) := by
  have hfirst : decrypted src dst a s = cryptBlocks decBlock (fullBlocks a) src dst s := by
    rw [decrypted_eq]
    exact if_neg (by omega)
  rw [hfirst, decrypted_eq, decrypted_eq, ← cryptBlocks_split decBlock src dst ha, cryptBlocks_ibuf,
    show (a + b) % 64 = b % 64 by omega, show src + 64 * ((a + b) / 64) = src + a + 64 * (b / 64) by omega,
    show dst + 64 * ((a + b) / 64) = dst + a + 64 * (b / 64) by omega]

theorem messagePhase_add {a : Nat} (ha : a % 64 = 0) (b : Nat) : messagePhase (a + b) = messagePhase b := by
  rw [messagePhase, messagePhase, show (a + b) % 64 = b % 64 by omega]

theorem adPhase_add (ph : Phase) {a : Nat} (ha : a % 64 = 0) (b : Nat) : adPhase ph (a + b) = adPhase ph b := by
  rw [adPhase, adPhase, show (a + b) % 64 = b % 64 by omega]

theorem adPhase_of_mod_eq_zero (ph : Phase) {a : Nat} (ha : a % 64 = 0) : adPhase ph a = ph := if_pos ha

theorem messagePhase_of_mod_eq_zero {a : Nat} (ha : a % 64 = 0) : messagePhase a = .msg := if_pos ha

/-- `whole` does to `s` what `first` and then `rest` do; the answer between them is not read. -/
def EffectSplits (whole first rest : Instr) (s : State) : Prop :=
  (effectOf whole s).1 =
    { (effectOf rest ((effectOf first s).1.respond (.completion .ok))).1 with outputs := s.outputs }

theorem effectSplits_ad (src : Nat) {a : Nat} (ha : a % 64 = 0) (b : Nat) (s : State) :
    EffectSplits (.ad src (a + b)) (.ad src a) (.ad (src + a) b) s := by
  have hibuf : (absorbLast src a (absorbBlocks (fullBlocks a) src s)).ibuf = s.ibuf := by rw [absorbed_frame]
  rw [EffectSplits, effectOf, absorbed_split src ha, adPhase_add _ ha, ← Nat.add_assoc,
    absorbed_lanes_congr _ _ (u := (effectOf (.ad src a) s).1.respond (.completion .ok)) (by rfl) hibuf]
  simp only [effectOf, State.respond, adPhase_of_mod_eq_zero _ ha]

theorem effectSplits_enc (src dst : Nat) {a : Nat} (ha : a % 64 = 0) (b : Nat) (s : State) :
    EffectSplits (.enc src dst (a + b)) (.enc src dst a) (.enc (src + a) (dst + a) b) s := by
  have hibuf : (encryptLast src dst a (cryptBlocks encBlock (fullBlocks a) src dst s)).ibuf = s.ibuf := by
    rw [encrypted_frame]
  rw [EffectSplits, effectOf, encrypted_split src dst ha, messagePhase_add ha, ← Nat.add_assoc,
    encrypted_lanes_congr _ _ _ (u := (effectOf (.enc src dst a) s).1.respond (.completion .ok)) (by rfl) hibuf,
    encrypted_obuf_congr _ _ _ (u := (effectOf (.enc src dst a) s).1.respond (.completion .ok)) (by rfl) (by rfl) hibuf]
  rfl

theorem effectSplits_dec (src dst : Nat) {a : Nat} (ha : a % 64 = 0) (b : Nat) (s : State) :
    EffectSplits (.dec src dst (a + b)) (.dec src dst a) (.dec (src + a) (dst + a) b) s := by
  have hibuf : (decrypted src dst a s).ibuf = s.ibuf := by rw [decrypted_frame]
  rw [EffectSplits, effectOf, decrypted_split src dst ha, messagePhase_add ha, ← Nat.add_assoc,
    decrypted_lanes_congr _ _ _ (u := (effectOf (.dec src dst a) s).1.respond (.completion .ok)) (by rfl) hibuf,
    decrypted_obuf_congr _ _ _ (u := (effectOf (.dec src dst a) s).1.respond (.completion .ok)) (by rfl) (by rfl) hibuf]
  rfl

/-- Command `i` is carried out and answers OK. -/
def CarriedOut (i : Instr) (s : State) : Prop := exec i s = .next ((effectOf i s).1.respond (.completion .ok))

/-- A data command none of whose conditions fails is carried out. -/
theorem carriedOut_of_data {i : Instr} {s : State} (hi : i.row = .ad ∨ i.row = .enc ∨ i.row = .dec)
    (hf : s.status.fault = false) (hseq : mayFollow i s.status) (hrange : inRange i s) (hfits : counterFits i s) :
    CarriedOut i s := by
  cases i with
  | ad | enc | dec => exact exec_eq_effectOf hf hseq (len_eq_of_no_fixedSize rfl) hrange hfits
  | _ => simp [Instr.row] at hi

/-- Where the effect splits and all three are carried out, the two parts answer OK twice and the whole once. -/
theorem chain_of_effectSplits {whole first rest : Instr} {s : State} (hf : s.status.fault = false)
    (hsplit : EffectSplits whole first rest s) (hwhole : CarriedOut whole s) (hfirst : CarriedOut first s)
    (hrest : CarriedOut rest ((effectOf first s).1.respond (.completion .ok))) :
    ∃ t u v, exec whole s = .next t ∧ exec first s = .next u ∧ exec rest u = .next v ∧
      v.status.fault = false ∧ t = { v with outputs := s.outputs ++ [.completion .ok] } ∧
      v.outputs = s.outputs ++ [.completion .ok, .completion .ok] := by
  obtain ⟨-, -, hout, hfault, -⟩ := effectOf_frame first s
  obtain ⟨-, -, hout', hfault', -⟩ := effectOf_frame rest ((effectOf first s).1.respond (.completion .ok))
  refine ⟨_, _, _, hwhole, hfirst, hrest, hfault'.trans (hfault.trans hf), ?_, ?_⟩
  · rw [hsplit]
    rfl
  · rw [State.respond_outputs, hout', State.respond_outputs, hout, List.append_assoc]
    rfl

/-- Settles O31: the first part is carried out because it asks less than the whole; it leaves PHASE and DIR such that the
rest may follow, and the rest asks what is left. -/
theorem dataCommandsChainAtBlockBoundaries : Obligations.DataCommandsChainAtBlockBoundaries := by
  intro src dst a b s hf ha whole first rest hcut hseq hrange hfits
  have hphase := messagePhase_of_mod_eq_zero ha
  rcases hcut with ⟨rfl, rfl, rfl⟩ | ⟨rfl, rfl, rfl⟩ | ⟨rfl, rfl, rfl⟩
  · have hdata {src' len' : Nat} {u : State} := carriedOut_of_data (i := .ad src' len') (s := u) (.inl rfl)
    refine chain_of_effectSplits hf (effectSplits_ad src ha b s) (hdata hf hseq hrange hfits) (hdata hf hseq ?_ ?_)
      (hdata hf ((adPhase_of_mod_eq_zero _ ha).trans hseq) ?_ ?_)
    all_goals simp only [inRange, counterFits, effectOf, State.respond_config, State.respond_adLen] at hrange hfits ⊢
    all_goals omega
  · have hdata {src' dst' len' : Nat} {u : State} :=
      carriedOut_of_data (i := .enc src' dst' len') (s := u) (.inr (.inl rfl))
    refine chain_of_effectSplits hf (effectSplits_enc src dst ha b s) (hdata hf hseq hrange hfits) (hdata hf hseq ?_ ?_)
      (hdata hf ⟨.inr hphase, .inr rfl⟩ ?_ ?_)
    all_goals simp only [inRange, counterFits, effectOf, State.respond_config, State.respond_msgLen] at hrange hfits ⊢
    all_goals omega
  · have hdata {src' dst' len' : Nat} {u : State} :=
      carriedOut_of_data (i := .dec src' dst' len') (s := u) (.inr (.inr rfl))
    refine chain_of_effectSplits hf (effectSplits_dec src dst ha b s) (hdata hf hseq hrange hfits) (hdata hf hseq ?_ ?_)
      (hdata hf ⟨.inr hphase, .inr rfl⟩ ?_ ?_)
    all_goals simp only [inRange, counterFits, effectOf, State.respond_config, State.respond_msgLen] at hrange hfits ⊢
    all_goals omega

end Sys2Proof.Machine

/-! PROOFS. The update steps of every command are those of the table (spec/70_reset_and_hazards.md section 4, R237). -/

namespace Sys2Proof.Machine

open Sys2Proof.Statements

/-! ## Lists of update steps -/

theorem updatedBy_append (s : Lanes) (l l' : List (Lane × Lane)) :
    updatedBy s (l ++ l') = updatedBy (updatedBy s l) l' := List.foldl_append

/-- `n` steps with one lane are `n` updates with it. -/
theorem updatedBy_stepsWith (s : Lanes) (n : Nat) (t : Lane) :
    updatedBy s (stepsWith n t) = (fun u => update u t t)^[n] s := by
  induction n generalizing s with
  | zero => rfl
  | succ n ih => exact ih (update s t t)

/-- FinalMix is seven steps (R161). -/
theorem finalMix_eq_updatedBy (s : Lanes) (u : Block) :
    finalMix s u = updatedBy s (stepsWith 7 (Lane.xor s.s2 (rep u))) := (updatedBy_stepsWith s 7 _).symm

/-- To absorb a string is to take the steps of its blocks (R140). -/
theorem absorbAll_eq_updatedBy (s : Lanes) (f : Nat → Byte) (len : Nat) :
    absorbAll s f len = updatedBy s (stepsOfBytes f len) := by
  rw [updatedBy, stepsOfBytes, List.foldl_map]
  rfl

theorem length_stepsOfBytes (f : Nat → Byte) (len : Nat) : (stepsOfBytes f len).length = (len + 63) / 64 := by
  rw [stepsOfBytes, List.length_map, blocksOf, List.length_map, List.length_range]

/-! ## The rows of the table -/

/-- The bytes a data command absorbs, as they stand at SRC, or for DEC with the keystream taken off. -/
theorem dataSteps : DataSteps := by
  intro i s t hi hf h ht
  obtain ⟨-, rfl⟩ := exec_carried hf h ht
  have hcount {len : Nat} : 64 * ((len + 63) / 64) < len + 64 ∧ len ≤ 64 * ((len + 63) / 64) := by omega
  cases i with
  | ad src len =>
    refine ⟨fun k => Memory.read s.ibuf (src + k), fun k _ => BitVec.xor_zero.symm, ?_, length_stepsOfBytes _ len,
      hcount⟩
    exact (lanes_absorbed src len s).trans (absorbAll_eq_updatedBy _ _ _)
  | enc src dst len =>
    refine ⟨fun k => Memory.read s.ibuf (src + k), fun k _ => BitVec.xor_zero.symm, ?_, length_stepsOfBytes _ len,
      hcount⟩
    exact (lanes_encrypted src dst len s).trans (absorbAll_eq_updatedBy _ _ _)
  | dec src dst len =>
    refine ⟨outByte decBlock src dst s, fun k hk => outByte_eq (lanes_cryptBlocks_decBlock src dst s) hk, ?_,
      length_stepsOfBytes _ len, hcount⟩
    exact (lanes_decrypted src dst len s).trans (absorbAll_eq_updatedBy _ _ _)
  | _ => simp [Instr.row] at hi

theorem initSteps : InitSteps := by
  intro src len s t hf h ht
  obtain ⟨-, rfl⟩ := exec_carried hf h ht
  exact ⟨rfl, Block.ofBytes (Memory.readBytes s.ibuf src 16), fun _ => Block.byte_ofBytes_readBytes s.ibuf src, rfl⟩

theorem finalSteps : FinalSteps := by
  intro i s a m hi
  refine ⟨?_, congrArg tag16 (finalMix_eq_updatedBy s _), congrArg tag32 (finalMix_eq_updatedBy s _)⟩
  cases i with
  | final16 | final32 | verify16 | verify32 => rfl
  | _ => simp [Instr.row] at hi

/-- The steps of MacStage2 (R169). -/
theorem macStage2_eq_updatedBy (s : Lanes) (x0 x1 : Block) (size : Nat) :
    macStage2 s x0 x1 size =
      updatedBy (updatedBy s [(⟨x0, 0⟩, ⟨x1, 0⟩)])
        (stepsWith 7 ⟨inst (updatedBy s [(⟨x0, 0⟩, ⟨x1, 0⟩)]).s2 0 ^^^ le64Pair 2 (8 * size), 0⟩) :=
  (updatedBy_stepsWith _ 7 _).symm

theorem macSteps : MacSteps := by
  intro i s a hi
  refine ⟨?_, rfl, rfl, ?_, ?_⟩
  · cases i with
    | macfinal16 | macfinal32 => rfl
    | _ => simp [Instr.row] at hi
  · simp only [macFinalize16, macStage1For16, macStage2_eq_updatedBy, finalMix_eq_updatedBy, updatedBy_append]
  · simp only [macFinalize32, macStage1For32, macStage2_eq_updatedBy, finalMix_eq_updatedBy, updatedBy_append]

/-- Settles O33, row by row. -/
theorem updateStepsOfEveryCommand : Obligations.UpdateStepsOfEveryCommand := by
  refine ⟨dataSteps, initSteps, finalSteps, macSteps, fun src len s t h => ⟨rfl, ?_⟩, rfl⟩
  rw [setkeyFrame src len s t h]

end Sys2Proof.Machine

/-! PROOFS. A host that issues a sequence and stops at the first answer that is not OK (spec/30_encoding.md section 6, R89):
as long as every command answers OK, the sequence is its words issued one by one. -/

namespace Sys2Proof.Machine

open Sys2Proof.Statements

/-! ## A sequence command by command (R89) -/

theorem lastCompletion_of_outputs {s : State} {l : List Output} {c : Completion} (h : s.outputs = l ++ [.completion c]) :
    lastCompletion s = some c := by
  simp [lastCompletion, h]

theorem lastCompletion_respond (s : State) (c : Completion) : lastCompletion (s.respond (.completion c)) = some c :=
  lastCompletion_of_outputs rfl

/-- The host goes on after OK. -/
theorem runSequence_cons_ok {i : Instr} {is : List Instr} {s t : State} (h : exec i s = .next t)
    (hok : lastCompletion t = some .ok) : runSequence (i :: is) s = runSequence is t := by
  simp only [runSequence, h, hok, if_true]

/-- The host stops after any other answer. -/
theorem runSequence_cons_stop {i : Instr} {is : List Instr} {s t : State} (h : exec i s = .next t)
    (hstop : lastCompletion t ≠ some .ok) : runSequence (i :: is) s = (t, false) := by
  simp only [runSequence, h, hstop, if_false]

/-- A sequence that succeeds begins with a command that answers OK. -/
theorem exec_of_runSequence_cons {i : Instr} {is : List Instr} {s g : State} (h : runSequence (i :: is) s = (g, true)) :
    ∃ t, exec i s = .next t ∧ lastCompletion t = some .ok ∧ runSequence is t = (g, true) := by
  obtain ⟨t, ht⟩ := exec_next i s
  by_cases hok : lastCompletion t = some .ok
  · exact ⟨t, ht, hok, (runSequence_cons_ok ht hok).symm.trans h⟩
  · cases (runSequence_cons_stop ht hok).symm.trans h

/-- A command that answers OK passed its tests and had its effect. -/
theorem carried_of_ok {i : Instr} {s t : State} (h : exec i s = .next t) (hok : lastCompletion t = some .ok) :
    firstFault (checks i.row i.src i.dst i.len s) = none ∧ (effectOf i s).2 = .ok ∧
      t = (effectOf i s).1.respond (.completion .ok) := by
  rcases exec_faulted_or_carried h with ⟨c, rfl⟩ | ⟨hpass, -, rfl⟩
  · rw [lastCompletion_of_outputs (c := .fault) rfl] at hok
    cases hok
  · rw [lastCompletion_respond] at hok
    have hcode := Option.some.inj hok
    exact ⟨hpass, hcode, by rw [hcode]⟩

/-! ## A sequence as transactions (log 1) -/

/-- The words of a sequence as the host's pending transactions. -/
def wordsOf (is : List Instr) : List Transaction := is.map fun i => .command (encode i)

/-- A step takes the word of a command off and carries the command out. -/
theorem step_wordsOf_cons {i : Instr} (hwf : i.wellFormed = true) (is : List Instr) {s t : State}
    (h : exec i s = .next t) :
    step { s with pending := wordsOf (i :: is) } = .next { t with pending := wordsOf is } := by
  rw [stepRunsTheDecodedCommand { s with pending := wordsOf (i :: is) } _ (wordsOf is) i rfl (decodeOfEncode i hwf)]
  exact exec_pending h (wordsOf is)

theorem exec_keeps_pending {i : Instr} {s t : State} (h : exec i s = .next t) : t.pending = s.pending := by
  rcases exec_faulted_or_carried h with ⟨c, rfl⟩ | ⟨-, -, rfl⟩
  · rfl
  · obtain ⟨-, hpending, -⟩ := effectOf_frame i s
    exact hpending

/-- Settles O44, by induction on the sequence: each step carries out the command whose word is at the head. -/
theorem sequencesRunAsTransactions : Obligations.SequencesRunAsTransactions := by
  intro is
  induction is with
  | nil =>
    intro s t _ hnone hrun
    injection hrun with hrun
    rw [← hrun]
    exact congrArg (fun ts => core.run 0 { s with pending := ts }) hnone.symm
  | cons i is ih =>
    intro s t hwf hnone hrun
    obtain ⟨u, hu, -, hrest⟩ := exec_of_runSequence_cons hrun
    have hwf' := List.forall_mem_cons.1 hwf
    exact (core_run_succ is.length (step_wordsOf_cons hwf'.1 is hu)).trans
      (ih u t hwf'.2 ((exec_keeps_pending hu).trans hnone) hrest)

end Sys2Proof.Machine

/-! PROOFS. Sealing and opening with either tag size (spec/43_verify_zeroize.md section 4): both prepare the lanes by
INIT and AD, both finalize the same lanes when the ciphertext is that of the message, and the tag is then the one
written. -/

namespace Sys2Proof.Machine

open Sys2Proof.Statements

/-! ## The two tag sizes (R164, R182) -/

/-- The length of the tag. -/
def tagSize (big : Bool) : Nat := if big then 32 else 16

/-- The tag of the lanes for the two byte counts. -/
def tagOf (big : Bool) (s : Lanes) (a m : Nat) : List Byte :=
  if big then (finalize32 s a m).bytes else (finalize16 s a m).bytes

/-- The command that writes the tag. -/
def finalCmd (big : Bool) (dst : Nat) : Instr := if big then .final32 dst 32 else .final16 dst 16

/-- The command that checks the tag. -/
def verifyCmd (big : Bool) (src : Nat) : Instr := if big then .verify32 src 32 else .verify16 src 16

theorem length_tagOf (big : Bool) (s : Lanes) (a m : Nat) : (tagOf big s a m).length = tagSize big := by
  cases big with
  | false => exact Block.length_bytes _
  | true => exact Lane.length_bytes _

theorem dseal_eq (big : Bool) (n ad adlen pt ptlen dst tagdst : Nat) :
    (if big then dseal32 n ad adlen pt ptlen dst tagdst else dseal16 n ad adlen pt ptlen dst tagdst) =
      [.init n 16, .ad ad adlen, .enc pt dst ptlen, finalCmd big tagdst] := by
  cases big <;> rfl

theorem dopen_eq (big : Bool) (n ad adlen ct ctlen tag dst : Nat) :
    (if big then dopen32 n ad adlen ct ctlen tag dst else dopen16 n ad adlen ct ctlen tag dst) =
      [.init n 16, .ad ad adlen, .dec ct dst ctlen, verifyCmd big tag] := by
  cases big <;> rfl

theorem exec_finalCmd (big : Bool) {dst : Nat} {s : State} (hf : s.status.fault = false) (hop : inOperation s.status)
    (hdir : s.status.dir = .none ∨ s.status.dir = .enc) (hrange : dst + tagSize big ≤ s.config.bufBytes) :
    exec (finalCmd big dst) s =
      .next ((writeTag (tagOf big s.lanes s.adLen s.msgLen) dst s).respond (.completion .ok)) := by
  cases big with
  | false => exact exec_eq_effectOf hf ⟨hop, hdir⟩ (len_eq_of_fixedSize rfl rfl) hrange trivial
  | true => exact exec_eq_effectOf hf ⟨hop, hdir⟩ (len_eq_of_fixedSize rfl rfl) hrange trivial

theorem effectOf_verifyCmd (big : Bool) (src : Nat) (s : State) :
    effectOf (verifyCmd big src) s =
      verifyTag (tagOf big s.lanes s.adLen s.msgLen) (Memory.readBytes s.ibuf src (tagSize big)) s := by
  cases big <;> rfl

theorem exec_verifyCmd (big : Bool) {src : Nat} {s : State} (hf : s.status.fault = false) (hop : inOperation s.status)
    (hdir : s.status.dir = .none ∨ s.status.dir = .dec) (hrange : src + tagSize big ≤ s.config.bufBytes) :
    exec (verifyCmd big src) s =
      .next ((effectOf (verifyCmd big src) s).1.respond (.completion (effectOf (verifyCmd big src) s).2)) := by
  cases big with
  | false => exact exec_eq_effectOf hf ⟨hop, hdir⟩ (len_eq_of_fixedSize rfl rfl) hrange trivial
  | true => exact exec_eq_effectOf hf ⟨hop, hdir⟩ (len_eq_of_fixedSize rfl rfl) hrange trivial

/-- The tag found at `src` is the one the lanes give exactly when each byte is. -/
theorem tagEqual_tagOf_iff (big : Bool) (s : Lanes) (a m : Nat) (ibuf : Memory) (src : Nat) :
    tagEqual (tagOf big s a m) (Memory.readBytes ibuf src (tagSize big)) = true ↔
      ∀ j, j < tagSize big → Memory.read ibuf (src + j) = (tagOf big s a m).getD j 0 := by
  rw [← length_tagOf big s a m]
  exact tagEqual_readBytes_iff _ _ _

/-! ## INIT and AD, before the message -/

/-- `t` is `s` with the nonce at `n` and the `adlen` bytes at `ad` in the lanes, ready for a message. -/
structure Prepared (n ad adlen : Nat) (s t : State) : Prop where
  lanes : t.lanes =
    absorbAll (initLanes s.key (Block.ofBytes (Memory.readBytes s.ibuf n 16))) (fun k => Memory.read s.ibuf (ad + k)) adlen
  adLen : t.adLen = adlen
  msgLen : t.msgLen = 0
  phase : t.status.phase = .ad ∨ t.status.phase = .msg
  dir : t.status.dir = .none
  fault : t.status.fault = false
  ibuf : t.ibuf = s.ibuf
  config : t.config = s.config
  obufWf : Memory.wf s.obuf = true → Memory.wf t.obuf = true

/-- What is prepared depends on KEY, the nonce and the associated data alone. -/
theorem Prepared.lanes_eq {n ad adlen n' ad' : Nat} {s t u v : State} (hs : Prepared n ad adlen s t)
    (hu : Prepared n' ad' adlen u v) (hkey : u.key = s.key)
    (hnonce : ∀ k, k < 16 → Memory.read u.ibuf (n' + k) = Memory.read s.ibuf (n + k))
    (had : ∀ k, k < adlen → Memory.read u.ibuf (ad' + k) = Memory.read s.ibuf (ad + k)) : v.lanes = t.lanes := by
  rw [hs.lanes, hu.lanes, hkey, Memory.readBytes_congr hnonce, absorbAll_congr _ had]

/-- A sequence that begins with INIT and AD comes to a prepared state. -/
theorem exists_prepared {n ad adlen : Nat} {s : State} (hf : s.status.fault = false) (hkey : s.status.keyValid = true)
    (hn : n + 16 ≤ s.config.bufBytes) (had : ad + adlen ≤ s.config.bufBytes) (hlen : adlen ≤ 2 ^ 61 - 1) :
    ∃ t, Prepared n ad adlen s t ∧ ∀ is, runSequence (.init n 16 :: .ad ad adlen :: is) s = runSequence is t := by
  have hinit := exec_eq_effectOf (i := .init n 16) hf hkey (len_eq_of_fixedSize rfl rfl) hn trivial
  have hwf := wf_effectOf (.init n 16) s
  rw [effectOf_init_frame] at hwf
  rw [State.respond, effectOf_init_frame] at hinit
  refine ⟨_, ?_, fun is => (runSequence_cons_ok hinit (lastCompletion_of_outputs rfl)).trans (runSequence_cons_ok
    (exec_eq_effectOf (i := .ad ad adlen) hf rfl (len_eq_of_no_fixedSize rfl) had
      (show 0 + adlen ≤ 2 ^ 61 - 1 by omega)) (lastCompletion_respond _ _))⟩
  exact ⟨lanes_absorbed ad adlen _, Nat.zero_add adlen, rfl, adPhase_cases adlen, rfl, hf, rfl, rfl, hwf⟩

/-! ## The message -/

/-- `t` is at the end of a message of `s`: the lanes `l` and the two counts, DIR `d`, ready for the tag. -/
structure AtTag (d : Dir) (l : Lanes) (adlen len : Nat) (s t : State) : Prop where
  lanes : t.lanes = l
  adLen : t.adLen = adlen
  msgLen : t.msgLen = len
  inOperation : inOperation t.status
  dir : t.status.dir = d
  fault : t.status.fault = false
  ibuf : t.ibuf = s.ibuf
  config : t.config = s.config
  obufWf : Memory.wf t.obuf = true

/-- From a prepared state an ENC writes the ciphertext of the bytes at SRC. -/
theorem exists_encrypted {n ad adlen src dst len : Nat} {s u : State} (hu : Prepared n ad adlen s u)
    (hwf : Memory.wf s.obuf = true) (hsrc : src + len ≤ s.config.bufBytes) (hdst : dst + len ≤ s.config.bufBytes)
    (hlen : len ≤ 2 ^ 61 - 1) :
    let f := fun k => Memory.read s.ibuf (src + k)
    ∃ t, exec (.enc src dst len) u = .next t ∧ lastCompletion t = some .ok ∧
      AtTag .enc (absorbAll u.lanes f len) adlen len s t ∧
      ∀ k, k < len → Memory.read t.obuf (dst + k) = f k ^^^ keystreamByte u.lanes f len k := by
  rw [← hu.config] at hsrc hdst
  rw [← hu.ibuf]
  have hwf' := hu.obufWf hwf
  refine ⟨_, exec_eq_effectOf hu.fault ⟨hu.phase, .inl hu.dir⟩ (len_eq_of_no_fixedSize rfl) ⟨hsrc, hdst⟩
    (show u.msgLen + len ≤ 2 ^ 61 - 1 by rw [hu.msgLen]; omega), lastCompletion_respond _ _, ?_,
    fun k hk => read_obuf_enc src dst hwf' hk⟩
  exact ⟨lanes_encrypted src dst len u, hu.adLen, (congrArg (· + len) hu.msgLen).trans (Nat.zero_add len),
    .inr (messagePhase_cases len), rfl, hu.fault, hu.ibuf, hu.config, wf_encrypted src dst len u hwf'⟩

/-- From a prepared state a DEC of the ciphertext of `f` writes `f`. -/
theorem exists_decrypted {n ad adlen src dst len : Nat} {s u : State} (hu : Prepared n ad adlen s u)
    (hwf : Memory.wf s.obuf = true) (hsrc : src + len ≤ s.config.bufBytes) (hdst : dst + len ≤ s.config.bufBytes)
    (hlen : len ≤ 2 ^ 61 - 1) {f : Nat → Byte}
    (hct : ∀ k, k < len → Memory.read s.ibuf (src + k) = f k ^^^ keystreamByte u.lanes f len k) :
    ∃ t, exec (.dec src dst len) u = .next t ∧ lastCompletion t = some .ok ∧
      AtTag .dec (absorbAll u.lanes f len) adlen len s t ∧
      ∀ k, k < len → Memory.read t.obuf (dst + k) = f k := by
  rw [← hu.config] at hsrc hdst
  rw [← hu.ibuf] at hct
  have hwf' := hu.obufWf hwf
  refine ⟨_, exec_eq_effectOf hu.fault ⟨hu.phase, .inl hu.dir⟩ (len_eq_of_no_fixedSize rfl) ⟨hsrc, hdst⟩
    (show u.msgLen + len ≤ 2 ^ 61 - 1 by rw [hu.msgLen]; omega), lastCompletion_respond _ _, ?_,
    fun k hk => (read_obuf_dec src dst hwf' hk).trans (outByte_decBlock_of_ciphertext hct k hk)⟩
  exact ⟨lanes_dec_of_ciphertext hct, hu.adLen, (congrArg (· + len) hu.msgLen).trans (Nat.zero_add len),
    .inr (messagePhase_cases len), rfl, hu.fault, hu.ibuf, hu.config, wf_decrypted src dst len u hwf'⟩

/-! ## The tag -/

/-- At the end of an encrypted message the tag is written, and the rest of OBUF stays. -/
theorem exists_tagged (big : Bool) {l : Lanes} {adlen len dst : Nat} {s u : State} (hu : AtTag .enc l adlen len s u)
    (hdst : dst + tagSize big ≤ s.config.bufBytes) :
    ∃ t, exec (finalCmd big dst) u = .next t ∧ lastCompletion t = some .ok ∧ ∀ a, Memory.read t.obuf a =
      if dst ≤ a ∧ a < dst + tagSize big then (tagOf big l adlen len).getD (a - dst) 0 else Memory.read u.obuf a := by
  rw [← hu.config] at hdst
  refine ⟨_, exec_finalCmd big hu.fault hu.inOperation (.inr hu.dir) hdst, lastCompletion_respond _ _, fun a => ?_⟩
  rw [State.respond_obuf, read_obuf_writeTag _ _ hu.obufWf, length_tagOf, hu.lanes, hu.adLen, hu.msgLen]

/-- At the end of a decrypted message the tag of the lanes is accepted, and OBUF is released as it is. -/
theorem exists_verified (big : Bool) {l : Lanes} {adlen len src : Nat} {s u : State} (hu : AtTag .dec l adlen len s u)
    (hsrc : src + tagSize big ≤ s.config.bufBytes)
    (hgiven : ∀ k, k < tagSize big → Memory.read s.ibuf (src + k) = (tagOf big l adlen len).getD k 0) :
    ∃ t, exec (verifyCmd big src) u = .next t ∧ lastCompletion t = some .ok ∧ t.status.obufLock = false ∧
      t.status.authOk = true ∧ t.obuf = u.obuf := by
  rw [← hu.config] at hsrc
  have hequal := (tagEqual_tagOf_iff big l adlen len s.ibuf src).2 hgiven
  rw [← hu.lanes, ← hu.adLen, ← hu.msgLen, ← hu.ibuf] at hequal
  have hverify := exec_verifyCmd big hu.fault hu.inOperation (.inr hu.dir) hsrc
  rw [effectOf_verifyCmd, verifyTag_of_equal hequal] at hverify
  exact ⟨_, hverify, lastCompletion_respond _ _, rfl, rfl, rfl⟩

/-! ## Sealing and opening -/

/-- A string inside a buffer fits a counter that starts at 0. -/
theorem le_maxLen_of_inBuffer {c : Config} (hc : c.wf = true) {addr len : Nat} (h : addr + len ≤ c.bufBytes) :
    len ≤ 2 ^ 61 - 1 := by
  have hsize : 64 ≤ c.bufBytes ∧ c.bufBytes ≤ 65536 := of_decide_eq_true hc
  omega

/-- Settles O42: both sides prepare the same lanes; the ciphertext is that of the plaintext, so decrypting it gives the
plaintext back and leaves the lanes of the sealing; so the tag written is the one expected. -/
theorem openUndoesSeal : Obligations.OpenUndoesSeal := by
  intro big n ad adlen pt ptlen dst tagdst n' ad' ct tag dst' s u size sealing opening hsf hskey huf hukey hkey hc hconfig
    hswf huwf hn had hpt hdst htagdst hapart hn' had' hct htag hdst'
  replace hapart : dst + ptlen ≤ tagdst ∨ tagdst + tagSize big ≤ dst := hapart
  have hadlen := le_maxLen_of_inBuffer hc had
  have hptlen := le_maxLen_of_inBuffer hc hpt
  obtain ⟨s2, hs2, hsealing⟩ := exists_prepared hsf hskey hn had hadlen
  obtain ⟨s3, henc, hencOk, hs3, hcipher⟩ := exists_encrypted hs2 hswf hpt hdst hptlen
  obtain ⟨t, hfinal, hfinalOk, htagged⟩ := exists_tagged big hs3 htagdst
  have hsealed : runSequence sealing s = (t, true) := by
    simp only [sealing]
    rw [dseal_eq, hsealing, runSequence_cons_ok henc hencOk, runSequence_cons_ok hfinal hfinalOk, runSequence]
  refine ⟨t, (runSequence opening u).1, hsealed, fun hnonce hadbytes hctbytes htagbytes => ?_⟩
  rw [← hconfig] at hn' had' hct htag hdst'
  obtain ⟨u2, hu2, hopening⟩ := exists_prepared huf hukey hn' had' hadlen
  have hlanes := hs2.lanes_eq hu2 hkey hnonce hadbytes
  obtain ⟨u3, hdec, hdecOk, hu3, hplain⟩ := exists_decrypted hu2 huwf hct hdst' hptlen
    (f := fun k => Memory.read s.ibuf (pt + k)) fun k hk => by
      rw [hctbytes k hk, htagged, if_neg (by omega), hcipher k hk, hlanes]
  obtain ⟨v, hverify, hverifyOk, hunlocked, hok, hobuf⟩ := exists_verified big hu3 htag fun k hk => by
    rw [htagbytes k hk, htagged, if_pos (by omega), Nat.add_sub_cancel_left, hlanes]
  have hopened : runSequence opening u = (v, true) := by
    simp only [opening]
    rw [dopen_eq, hopening, runSequence_cons_ok hdec hdecOk, runSequence_cons_ok hverify hverifyOk, runSequence]
  rw [hopened]
  exact ⟨rfl, hunlocked, hok, fun k hk => by rw [hobuf, hplain k hk]⟩

end Sys2Proof.Machine

/-! PROOFS. Opening with a wrong tag (spec/43_verify_zeroize.md section 4): two cores that differ in the buffers alone,
but not in the bytes the commands before VERIFY read, come to the same lanes, so the tag that one of them found right is
the one the other expects. -/

namespace Sys2Proof.Machine

open Sys2Proof.Statements

/-! ## Cores that differ in the buffers alone -/

/-- The two states agree on every register and flag and on BUF_BYTES. -/
structure SameRegisters (s u : State) : Prop where
  lanes : u.lanes = s.lanes
  key : u.key = s.key
  adLen : u.adLen = s.adLen
  msgLen : u.msgLen = s.msgLen
  status : u.status = s.status
  config : u.config = s.config

/-- What the host observed is no register. -/
theorem SameRegisters.respond {s u : State} (h : SameRegisters s u) (o o' : Output) :
    SameRegisters (s.respond o) (u.respond o') :=
  ⟨h.lanes, h.key, h.adLen, h.msgLen, h.status, h.config⟩

/-- The commands before the VERIFY of an opening. -/
def OpeningRow (row : Row) : Prop := row = .init ∨ row = .ad ∨ row = .dec

/-- The tests of a command do not read the buffers. -/
theorem SameRegisters.checks_eq {s u : State} (h : SameRegisters s u) (row : Row) (src dst len : Nat) :
    checks row src dst len u = checks row src dst len s := by
  obtain ⟨-, -, hadLen, hmsgLen, hstatus, hconfig⟩ := h
  simp only [checks, inBuffer, counterOk, hadLen, hmsgLen, hstatus, hconfig]

/-- A DEC whose bytes at SRC are alike absorbs the same plaintext. -/
theorem lanes_decrypted_congr_reads {src dst len : Nat} {s u : State} (hlanes : u.lanes = s.lanes)
    (hreads : ∀ k, k < len → Memory.read u.ibuf (src + k) = Memory.read s.ibuf (src + k)) :
    (effectOf (.dec src dst len) u).1.lanes = (effectOf (.dec src dst len) s).1.lanes := by
  have hct : ∀ k, k < len → Memory.read u.ibuf (src + k) =
      outByte decBlock src dst s k ^^^ keystreamByte u.lanes (outByte decBlock src dst s) len k := fun k hk => by
    rw [hreads k hk, hlanes, outByte_eq (lanes_cryptBlocks_decBlock src dst s (len := len)) hk, BitVec.xor_assoc,
      BitVec.xor_self, BitVec.xor_zero]
  rw [lanes_dec_of_ciphertext hct, hlanes, effectOf, lanes_decrypted]

/-- Where they read the same bytes, INIT, AD and DEC leave the registers alike. -/
theorem sameRegisters_effectOf {i : Instr} {s u : State} (h : SameRegisters s u) (hi : OpeningRow i.row)
    (hsize : ∀ n c, fixedSize i = some (n, c) → i.len = n)
    (hreads : ∀ k, k < i.len → Memory.read u.ibuf (i.src + k) = Memory.read s.ibuf (i.src + k)) :
    SameRegisters (effectOf i s).1 (effectOf i u).1 := by
  obtain ⟨hlanes, hkey, hadLen, hmsgLen, hstatus, hconfig⟩ := h
  cases i with
  | init src len =>
    obtain rfl : len = 16 := hsize _ _ rfl
    have hnonce : Memory.readBytes u.ibuf src 16 = Memory.readBytes s.ibuf src 16 := Memory.readBytes_congr hreads
    rw [effectOf_init_frame, effectOf_init_frame, hkey, hstatus, hconfig, hnonce]
    exact ⟨rfl, rfl, rfl, rfl, rfl, rfl⟩
  | ad src len =>
    refine ⟨?_, hkey, congrArg (· + len) hadLen, hmsgLen, ?_, hconfig⟩
    · rw [effectOf, effectOf, lanes_absorbed, lanes_absorbed, hlanes]
      exact absorbAll_congr s.lanes hreads
    · simp only [effectOf, hstatus]
  | dec src dst len =>
    refine ⟨lanes_decrypted_congr_reads hlanes hreads, hkey, hadLen, congrArg (· + len) hmsgLen, ?_, hconfig⟩
    simp only [effectOf, hstatus]
  | _ => simp [OpeningRow, Instr.row] at hi

/-- One command of an opening, carried out in both. -/
theorem sameRegisters_exec {i : Instr} {s u t : State} (h : SameRegisters s u) (hf : s.status.fault = false)
    (hi : OpeningRow i.row)
    (hreads : ∀ k, k < i.len → Memory.read u.ibuf (i.src + k) = Memory.read s.ibuf (i.src + k))
    (ht : exec i s = .next t) (hok : lastCompletion t = some .ok) :
    ∃ v, exec i u = .next v ∧ lastCompletion v = some .ok ∧ SameRegisters t v ∧ t.status.fault = false ∧
      t.ibuf = s.ibuf ∧ v.ibuf = u.ibuf := by
  obtain ⟨hpass, -, rfl⟩ := carried_of_ok ht hok
  have hne : i ≠ .zeroize := by rintro rfl; simp [OpeningRow, Instr.row] at hi
  have hcode : (effectOf i u).2 = .ok := by
    cases i with
    | init | ad | dec => rfl
    | _ => simp [OpeningRow, Instr.row] at hi
  have hdone := exec_done (s := u) (by rw [h.status, hf]) (by rw [h.checks_eq, hpass])
  rw [hcode] at hdone
  have hsame := sameRegisters_effectOf h hi (len_eq_of_checks_pass hpass) hreads
  obtain ⟨-, -, -, hfault, -⟩ := effectOf_frame i s
  exact ⟨_, hdone, lastCompletion_respond _ _, hsame.respond _ _, hfault.trans hf, effectOf_ibuf hne s, effectOf_ibuf hne u⟩

/-- The commands of an opening before its VERIFY, carried out in both. -/
theorem sameRegisters_runSequence {is rest : List Instr} {s u g : State} (h : SameRegisters s u)
    (hf : s.status.fault = false) (hrows : ∀ i ∈ is, OpeningRow i.row)
    (hreads : ∀ i ∈ is, ∀ k, k < i.len → Memory.read u.ibuf (i.src + k) = Memory.read s.ibuf (i.src + k))
    (hrun : runSequence (is ++ rest) s = (g, true)) :
    ∃ t v, runSequence rest t = (g, true) ∧ runSequence (is ++ rest) u = runSequence rest v ∧
      SameRegisters t v ∧ t.status.fault = false ∧ t.ibuf = s.ibuf ∧ v.ibuf = u.ibuf := by
  induction is generalizing s u with
  | nil => exact ⟨s, u, hrun, rfl, h, hf, rfl, rfl⟩
  | cons i is ih =>
    obtain ⟨hi, hrows⟩ := List.forall_mem_cons.1 hrows
    obtain ⟨hreadsi, hreads⟩ := List.forall_mem_cons.1 hreads
    obtain ⟨t, ht, hok, hrest⟩ := exec_of_runSequence_cons hrun
    obtain ⟨v, hv, hok', htv, hft, htibuf, hvibuf⟩ := sameRegisters_exec h hf hi hreadsi ht hok
    rw [← htibuf, ← hvibuf] at hreads
    obtain ⟨t', v', hrun', hsame, htv', hft', htibuf', hvibuf'⟩ := ih htv hft hrows hreads hrest
    exact ⟨t', v', hrun', (runSequence_cons_ok hv hok').trans hsame, htv', hft', htibuf'.trans htibuf,
      hvibuf'.trans hvibuf⟩

/-! ## The wrong tag -/

/-- A tag of which a byte is not the one found right elsewhere is rejected. -/
theorem exec_verifyCmd_wrong {big : Bool} {src : Nat} {s u t : State} (h : SameRegisters s u)
    (hf : s.status.fault = false) (ht : exec (verifyCmd big src) s = .next t) (hok : lastCompletion t = some .ok)
    (hwrong : ∃ k, k < tagSize big ∧ Memory.read u.ibuf (src + k) ≠ Memory.read s.ibuf (src + k)) :
    ∃ v, exec (verifyCmd big src) u = .next v ∧ lastCompletion v = some .authFail ∧ v.status.fault = false ∧
      v.status.authFail = true ∧ v.obuf = [] := by
  obtain ⟨hpass, hcode, -⟩ := carried_of_ok ht hok
  rw [effectOf_verifyCmd] at hcode
  have hright : tagEqual (tagOf big s.lanes s.adLen s.msgLen) (Memory.readBytes s.ibuf src (tagSize big)) = true := by
    by_contra hne
    rw [verifyTag_of_different hne] at hcode
    cases hcode
  have hdifferent : ¬tagEqual (tagOf big u.lanes u.adLen u.msgLen) (Memory.readBytes u.ibuf src (tagSize big)) = true := by
    rw [h.lanes, h.adLen, h.msgLen, tagEqual_tagOf_iff]
    intro hall
    obtain ⟨k, hk, hne⟩ := hwrong
    exact hne ((hall k hk).trans ((tagEqual_tagOf_iff big _ _ _ _ _).1 hright k hk).symm)
  have hfu : u.status.fault = false := by rw [h.status, hf]
  have hdone := exec_done hfu (by rw [h.checks_eq, hpass])
  rw [effectOf_verifyCmd, verifyTag_of_different hdifferent] at hdone
  exact ⟨_, hdone, lastCompletion_respond _ _, hfu, rfl, rfl⟩

/-- Settles O43: the two cores agree up to the VERIFY, whose comparison tells them apart. -/
theorem openRejectsAWrongTag : Obligations.OpenRejectsAWrongTag := by
  intro big n ad adlen ct ctlen tag dst u g ibuf size opening hf hrun hnonce had hct hwrong
  have hopening : opening = [.init n 16, .ad ad adlen, .dec ct dst ctlen] ++ [verifyCmd big tag] := dopen_eq ..
  rw [hopening] at hrun ⊢
  obtain ⟨t, v, hverify, hsame, htv, hft, htibuf, hvibuf⟩ :=
    sameRegisters_runSequence (s := { u with ibuf := ibuf }) (u := u) ⟨rfl, rfl, rfl, rfl, rfl, rfl⟩ hf
      (by simp [OpeningRow, Instr.row]) (by simpa [Instr.src, Instr.len] using ⟨hnonce, had, hct⟩) hrun
  obtain ⟨t', ht', hok, -⟩ := exec_of_runSequence_cons hverify
  obtain ⟨v', hv', hfail, hfault, hauth, hnil⟩ := exec_verifyCmd_wrong htv hft ht' hok (by rwa [htibuf, hvibuf])
  refine ⟨v', hsame.trans (runSequence_cons_stop hv' (by simp [hfail])), hfault, hauth, fun a => ?_⟩
  rw [hnil, Memory.read_nil]

end Sys2Proof.Machine
